-- ==== Sys2Proof/Word.lean ====
section
/-!
DEFINITION. The word types of the ChaChaPoly engine and their plainest arithmetic (00_scope.md rules R9 and R10).
-/

namespace Sys2Proof

/-- A *byte*: an unsigned integer of 8 bits (R9). -/
abbrev Byte := BitVec 8

/-- A *word*: an unsigned integer of 32 bits (R9). -/
abbrev Word := BitVec 32

/-- A 64-bit register slot, DATA address or length (R6: `REG_SLOT`, `DATA_ADDR_W`, `LEN_W`). -/
abbrev DWord := BitVec 64

/-- `add32(a, b) = (a + b) mod 2^32` (R10). -/
def add32 (a b : Word) : Word := a + b

/-- `xor32(a, b)`, the bitwise exclusive-or of two words (R10). -/
def xor32 (a b : Word) : Word := a ^^^ b

end Sys2Proof
end

