-- ==== Sys2Proof/Config.lean ====
section
/-!
DEFINITION. What one instance of the hardware fixes: the parameters of 00_scope.md rule R6 that are no part of a command's
text, and the two values the model names where the spec leaves a parameter or a power-on value open (log entries 1 and 2).
-/

namespace Sys2Proof.Config

/-- `REG_SLOT`: bytes in one register slot (R6, R31). -/
def regSlotBytes : Nat := 8

/-- Bytes of the REG space: sixteen slots (R31, R60). -/
def regSpaceBytes : Nat := 128

/-- One past the highest DATA address: `DATA_ADDR_W` is 64 bits (R6, R61). -/
def dataSpaceBytes : Nat := 2 ^ 64

/-- `MEM_BYTES` of the machine `State.reset` describes.
DESIGN CHOICE (log entry 1): the spec leaves `MEM_BYTES` open (R6); 0x1000 is what every program of 95_test_vectors.md starts
from. It is only the reset value of a field of `State`: a state with any other populated set is a state of the model too. -/
def memBytes : Nat := 0x1000

/-- What a DATA byte reads as while the memory lists nothing for its address.
DESIGN CHOICE (log entry 2): the spec says such a byte holds an unspecified fixed value (R61). Every power-on contents is the
memory of some state; only `State.reset` stands for the one where all bytes are this one. -/
def unlistedByte : Byte := 0

end Sys2Proof.Config
end

