-- ==== Sys2Proof/Syntax.lean ====
section
/-!
DEFINITION. The syntax of the engine: the nine commands (30_encoding.md rule R91), the fields of a command word (R90) and the
accesses a HOST program is made of (R95, 20_memory.md rule R65).
-/

namespace Sys2Proof

/-- The nine commands, one constructor for each row of spec/opcode_table.json (R91). A command has no operand field: every
operand comes from the operand registers (R92). `sealCmd` and `openCmd` are the commands SEAL and OPEN (`seal` and `open` are words of Lean's). -/
inductive Instr where
  | block
  | xor
  | derive
  | xxor
  | mac
  | sealCmd
  | openCmd
  | xseal
  | xopen
  deriving DecidableEq, Repr

/-- The fields of a command word, format `C`: bits 7 to 0 `op`, bits 31 to 8 `zero` (R90). -/
structure CommandWord where
  zero : BitVec 24
  op   : Byte
  deriving DecidableEq, Repr

/-- The widths of a HOST access to the DATA space: 1, 2, 4 or 8 bytes (R65). -/
inductive DataSize where
  | one
  | two
  | four
  | eight
  deriving DecidableEq, Repr

/-- The width in bytes. -/
def DataSize.bytes : DataSize → Nat
  | .one => 1
  | .two => 2
  | .four => 4
  | .eight => 8

/-- One access by the HOST, one line of a host script (R95). REG accesses carry the byte offset and the width the HOST uses, so
that the accesses the spec gives no meaning to (R32) can be written down too. -/
inductive HostAccess where
  /-- A write to the REG space; `wr REG, value` is the aligned one of width 8. -/
  | regWrite (offset width : Nat) (value : DWord)
  /-- A read of the REG space; `rd REG` is the aligned one of width 8. -/
  | regRead (offset width : Nat)
  /-- A DATA write of 1, 2, 4 or 8 bytes, little-endian (R65). -/
  | dataWrite (addr : DWord) (size : DataSize) (value : DWord)
  /-- A DATA read of 1, 2, 4 or 8 bytes, little-endian (R65). -/
  | dataRead (addr : DWord) (size : DataSize)
  /-- `wrm addr, b0 b1 ... bn` (R95). -/
  | bytesWrite (addr : DWord) (bytes : List Byte)
  /-- `rdm addr, n` (R95). -/
  | bytesRead (addr : DWord) (count : Nat)
  deriving DecidableEq, Repr

end Sys2Proof
end

