-- ==== Sys2Proof/WellFormed.lean ====
section
/-!
DEFINITION. Which terms of the syntax the spec gives a meaning to, as Bool checks: a command word (30_encoding.md rules R90,
R91 and R93), a command, and a HOST access (10_state.md rule R32, 20_memory.md rule R65).
-/

namespace Sys2Proof

/-- The field `zero` of a command word must be 0 (R90). -/
def CommandWord.zeroFieldOk (w : CommandWord) : Bool := w.zero == 0

/-- The opcode must be one of 0x01 to 0x09 (R91). -/
def CommandWord.opcodeOk (w : CommandWord) : Bool := decide (1 ≤ w.op.toNat) && decide (w.op.toNat ≤ 9)

/-- A legal command word: `zero = 0` and one of the nine opcodes; every other word is illegal (R93). -/
def CommandWord.wf (w : CommandWord) : Bool := w.zeroFieldOk && w.opcodeOk

/-- A command has no operand field, so every command is well-formed (R90: "no register fields, no immediates"). -/
def Instr.wf : Instr → Bool
  | .block => true
  | .xor => true
  | .derive => true
  | .xxor => true
  | .mac => true
  | .sealCmd => true
  | .openCmd => true
  | .xseal => true
  | .xopen => true

/-- A REG access has a meaning when its offset is a multiple of 8 below 128 and it moves all 8 bytes of one slot (R32). -/
def regAccessOk (offset width : Nat) : Bool :=
  offset % Config.regSlotBytes == 0 && decide (offset < Config.regSpaceBytes) && width == Config.regSlotBytes

/-- An access of `n` bytes carries a value `ser(v, n)` is defined for: `v < 2^(8n)` (R11, R65). -/
def dataValueOk (size : DataSize) (value : DWord) : Bool := decide (value.toNat < 2 ^ (8 * size.bytes))

/-- The HOST accesses whose form the spec gives a meaning to; whether a DATA access also touches only populated bytes depends
on the state (R65). -/
def HostAccess.wf : HostAccess → Bool
  | .regWrite offset width _ => regAccessOk offset width
  | .regRead offset width => regAccessOk offset width
  | .dataWrite _ size value => dataValueOk size value
  | .dataRead _ _ => true
  | .bytesWrite _ _ => true
  | .bytesRead _ _ => true

end Sys2Proof
end

