-- ==== Sys2Proof/Decode.lean ====
section
/-!
DEFINITION. The decoder of command words, total and rejecting by name, and after it the encoder, both over the opcode map of
30_encoding.md rule R91.
-/

namespace Sys2Proof

/-- One row of the opcode map: a word `w` selects it when `w & mask = match` (R91). -/
structure OpcodeRow where
  instr : Instr
  pattern : Word
  mask : Word
  deriving DecidableEq, Repr

/-- The opcode map (R91). -/
def opcodeMap : List OpcodeRow :=
  [ ⟨.block, 0x00000001, 0xFFFFFFFF⟩, ⟨.xor, 0x00000002, 0xFFFFFFFF⟩, ⟨.derive, 0x00000003, 0xFFFFFFFF⟩,
    ⟨.xxor, 0x00000004, 0xFFFFFFFF⟩, ⟨.mac, 0x00000005, 0xFFFFFFFF⟩, ⟨.sealCmd, 0x00000006, 0xFFFFFFFF⟩,
    ⟨.openCmd, 0x00000007, 0xFFFFFFFF⟩, ⟨.xseal, 0x00000008, 0xFFFFFFFF⟩, ⟨.xopen, 0x00000009, 0xFFFFFFFF⟩ ]

/-- Whether the word selects the row (R91). -/
def OpcodeRow.selectedBy (row : OpcodeRow) (w : Word) : Bool := w &&& row.mask == row.pattern

/-- The two ways a command word is illegal (R93). -/
inductive IllegalWord where
  /-- A bit of the field `zero`, bits 31 to 8, is set. -/
  | zeroFieldNotZero
  /-- The field `zero` is 0 and `op` is 0x00 or 0x0A to 0xFF. -/
  | opcodeNotAssigned
  deriving DecidableEq, Repr

/-- The fields of a command word (R90). -/
def CommandWord.ofWord (w : Word) : CommandWord := ⟨w.extractLsb' 8 24, w.extractLsb' 0 8⟩

/-- The decoder: every 32-bit word is one of the nine commands or illegal (R91, R93). -/
def decode (w : Word) : Except IllegalWord Instr :=
  match opcodeMap.find? (fun row => row.selectedBy w) with
  | some row => .ok row.instr
  | none =>
    if (CommandWord.ofWord w).zeroFieldOk then .error .opcodeNotAssigned else .error .zeroFieldNotZero

/-- The opcode of a command (R91). -/
def Instr.opcode : Instr → Byte
  | .block => 0x01
  | .xor => 0x02
  | .derive => 0x03
  | .xxor => 0x04
  | .mac => 0x05
  | .sealCmd => 0x06
  | .openCmd => 0x07
  | .xseal => 0x08
  | .xopen => 0x09

/-- The command word with the given fields: `zero` in bits 31 to 8, `op` in bits 7 to 0 (R90). -/
def CommandWord.toWord (w : CommandWord) : Word := w.zero ++ w.op

/-- The encoder: the one word of a command, `zero = 0` and its opcode (R90, R91). -/
def encode (i : Instr) : Word := CommandWord.toWord ⟨0, i.opcode⟩

/-- The decoder on a row of spec/opcode_table.json: the table numbers a command word's bits as R90 does, and a command word has
32 of them (R94). -/
def decodeTableWord (nbits w : Nat) : Option Instr :=
  if w % 2 ^ nbits < 2 ^ 32 then
    match decode (BitVec.ofNat 32 (w % 2 ^ nbits)) with
    | .ok i => some i
    | .error _ => none
  else none

end Sys2Proof
end

