-- ==== Sys2Proof/Machine/Bytes.lean ====
section
/-!
DEFINITION. Byte sequences and byte order: `le`, `ser`, slices and zeros (00_scope.md rule R11, 20_memory.md rule R63), and the
loading of a byte sequence into a register file.
-/

namespace Sys2Proof.Machine

/-- `le(B)`, the little-endian integer `Σ B[i] × 2^(8i)` (R11). -/
def le : List Byte → Nat
  | [] => 0
  | b :: bs => b.toNat + 256 * le bs

/-- `ser(v, n)`, the `n`-byte sequence whose byte `i` is `(v >> 8i) mod 256` (R11). -/
def ser (v : Nat) : Nat → List Byte
  | 0 => []
  | n + 1 => BitVec.ofNat 8 v :: ser (v / 256) n

/-- `B[i..j)`, the subsequence of indices `i` up to but not including `j` (R11). -/
def slice (bytes : List Byte) (i j : Nat) : List Byte := (bytes.drop i).take (j - i)

/-- `zeros(n)`, `n` bytes of value 0 (R11). -/
def zeros (n : Nat) : List Byte := List.replicate n 0

/-- The word a 4-byte sequence is read as, little-endian (R63 (a), (b)). -/
def leWord (bytes : List Byte) : Word := BitVec.ofNat 32 (le bytes)

/-- A word serialised as `ser(w, 4)`, least significant byte first (R11, R63 (c)). -/
def serWord (w : Word) : List Byte := ser w.toNat 4

/-- A register file of `n` bytes loaded from a byte sequence: register `i` takes byte `i`. -/
def registerFile (n : Nat) (bytes : List Byte) : Vector Byte n := Vector.ofFn fun i => bytes.getD i.val 0

/-- The bytewise exclusive-or of two sequences, as long as the shorter one (R152). -/
def xorBytes (a b : List Byte) : List Byte := List.zipWith (fun x y => x ^^^ y) a b

end Sys2Proof.Machine
end

