-- ==== Sys2Proof/Machine/State.lean ====
section
/-!
DEFINITION. The state of the machine as plain data: everything 10_state.md rule R20 lists (host-visible registers, the latch
PEND, the DATA space, the internal register files), the accesses of the HOST (R69, R95) and the schedule of the agents (R7);
its reset value (R37, R300); and the reasons a step can stop.
-/

namespace Sys2Proof.Machine

/-- The seven error kinds a command can complete with (60_exceptions.md rule R260). -/
inductive ErrorKind where
  | invalidKeyLength
  | invalidNonceLength
  | invalidTagLength
  | messageTooLarge
  | authenticationFailed
  | illegalCommand
  | bufferFault
  deriving DecidableEq, Repr

/-- The fields of STATUS (R29); every other bit of the register reads 0. -/
structure Status where
  busy  : Bool
  done  : Bool
  err   : Bool
  ecode : Byte
  deriving DecidableEq, Repr

/-- The working state matrix, sixteen words, row-major (R21). -/
abbrev StateMatrix := Vector Word 16

/-- The registers of the Word-Matrix Core: `X` (R21), `S0` (R22), `KS` and `BCTR` (R23), and the round index (R25). -/
structure WordMatrixCore where
  x     : StateMatrix
  s0    : StateMatrix
  ks    : Vector Byte 64
  bctr  : Word
  round : BitVec 4
  deriving DecidableEq, Repr

/-- The sequencer of the ChaCha20 Stream Engine: the chunk index `j`, 33 bits (R25). -/
structure StreamEngine where
  chunk : BitVec 33
  deriving DecidableEq, Repr

/-- The registers of the XChaCha20 Extension: `SUBKEY` and `SUBNONCE` (R23). -/
structure XChaChaExtension where
  subkey   : Vector Byte 32
  subnonce : Vector Byte 12
  deriving DecidableEq, Repr

/-- Five limb registers, indices 0 to 4 (R24). -/
structure Limbs (w : Nat) where
  l0 : BitVec w
  l1 : BitVec w
  l2 : BitVec w
  l3 : BitVec w
  l4 : BitVec w
  deriving DecidableEq, Repr

/-- `S5[1]` to `S5[4]` (R24). -/
structure ScaledLimbs where
  s1 : Word
  s2 : Word
  s3 : Word
  s4 : Word
  deriving DecidableEq, Repr

/-- Four words of 32 bits, indices 0 to 3: the shape of `PAD` (R24) and of the repacked accumulator (R206). -/
structure FourWords where
  p0 : Word
  p1 : Word
  p2 : Word
  p3 : Word
  deriving DecidableEq, Repr

/-- The registers of the Poly1305 Accumulator: `H`, `R`, `S5`, `PAD`, `D` and `TAGX` (R24), and the block index `k`, 60 bits
(R25). -/
structure Poly1305Accumulator where
  h     : Limbs 32
  r     : Limbs 32
  s5    : ScaledLimbs
  pad   : FourWords
  d     : Limbs 64
  tagx  : Vector Byte 16
  block : BitVec 60
  deriving DecidableEq, Repr

/-- The phases of the AEAD state machine (44_aead.md rule R230). -/
inductive AeadPhase where
  | keySetup
  | tagKeyDerivation
  | bulkTransform
  | macAssembly
  | finalize
  | verify
  deriving DecidableEq, Repr

/-- The registers of the AEAD Composer: `OTK` and `DIFF` (R24), and the phase (R25, R230). -/
structure AeadComposer where
  otk   : Vector Byte 32
  diff  : Byte
  phase : AeadPhase
  deriving DecidableEq, Repr

/-- The internal register files, R20 (d): hidden from the HOST (R35), grouped by the five units of 00_scope.md rule R2. -/
structure Hidden where
  wmc : WordMatrixCore
  se  : StreamEngine
  xe  : XChaChaExtension
  pa  : Poly1305Accumulator
  ac  : AeadComposer
  deriving DecidableEq, Repr

/-- The DATA space's contents: a list of (address, byte) pairs, kept in one canonical form (`Memory.wf`). -/
structure Memory where
  cells : List Host.Cell
  deriving DecidableEq, Repr

/-- An interval `[base, base + size)` of populated DATA addresses (20_memory.md rule R61). -/
structure Region where
  base : Nat
  size : Nat
  deriving DecidableEq, Repr

/-- What a HOST read returned (R95: "the value read is shown after =>"). -/
inductive Reply where
  | reg (offset : Nat) (value : DWord)
  | data (addr : DWord) (value : DWord)
  | bytes (addr : DWord) (bytes : List Byte)
  deriving DecidableEq, Repr

/-- One turn of the schedule: which agent moves next (R7), or the outside reset event (70_reset_and_hazards.md rule R300). A
reset makes the internal register files unspecified: the turn itself carries what they then hold, and nothing constrains it. -/
inductive Turn where
  | host
  | engine
  | reset (left : Hidden)
  deriving DecidableEq, Repr

/-- The state of the machine. -/
structure State where
  /-- STATUS (R29). -/
  status    : Status
  /-- RES_LEN (R30). -/
  resLen    : DWord
  /-- CTR (R26). -/
  ctr       : Word
  /-- KEY_ADDR, and with it the eight other descriptor registers (R27). -/
  keyAddr   : DWord
  keyLen    : DWord
  nonceAddr : DWord
  nonceLen  : DWord
  aadAddr   : DWord
  aadLen    : DWord
  bufAddr   : DWord
  bufLen    : DWord
  outAddr   : DWord
  /-- PEND, the pending-command latch: nothing or one command word (R33). -/
  pend      : Option Word
  /-- The contents of the DATA space (R61). -/
  mem       : Memory
  /-- `DATA_POP`, the set of DATA addresses that hold a byte, as rising disjoint intervals (R61). It is the model's argument: no
  step changes it, and a statement about every state holds for every populated set. -/
  pop       : List Region
  /-- The internal register files (R20 (d)). -/
  hidden    : Hidden
  /-- The HOST accesses issued while BUSY was 1 and not yet performed, oldest first (R69). -/
  held      : List HostAccess
  /-- The HOST accesses not yet issued, in the order the HOST issues them (R73 (a), R95). -/
  script    : List HostAccess
  /-- What the HOST's reads returned, newest first (the model's own record, log entry 6). -/
  replies   : List Reply
  /-- The turns the agents take; where it is empty the ENGINE moves first (the model's own field, log entry 5). -/
  schedule  : List Turn
  deriving DecidableEq, Repr

/-- The machine never stops with a fault: every command body terminates and completes, with or without an error kind (R98), and
no state is stuck (R272: "no state from which the engine cannot accept a command"). So this type has no constructor, which is
safe: nothing is left out by it. -/
inductive Fault where
  deriving DecidableEq, Repr

/-- Why a step is refused. Each of the last three is a HOST access the spec gives no meaning to and says a model refuses; no
command is refused. -/
inductive Refusal where
  /-- An instruction that has no meaning yet, by its mnemonic: raised only by `exec`'s own arms, and by none of them now. Safe. -/
  | notModelled (mnemonic : String)
  /-- A REG access that is not an aligned 8-byte access below offset 128 (R32, 93_implementation_defined.md U6): raised by
  `hostPerform`. Safe. -/
  | regAccessWithoutMeaning
  /-- A HOST access to a DATA address outside `DATA_POP` (R65, U7): raised by `hostPerform`. Safe. -/
  | dataAddressNotPopulated
  /-- A DATA write of `n` bytes with a value of more than `n` bytes, for which `ser(v, n)` is not defined (R11, R65): raised by
  `hostPerform`. Safe. -/
  | dataValueTooWide
  deriving DecidableEq, Repr

/-- Five zero limbs. -/
def Limbs.zero (w : Nat) : Limbs w := ⟨0, 0, 0, 0, 0⟩

/-- The internal register files all zero, the phase KeySetup.
DESIGN CHOICE (log entry 3): the spec leaves them unspecified after reset and unobservable (R37). -/
def Hidden.zero : Hidden where
  wmc := { x := Vector.replicate 16 0, s0 := Vector.replicate 16 0, ks := Vector.replicate 64 0, bctr := 0, round := 0 }
  se := { chunk := 0 }
  xe := { subkey := Vector.replicate 32 0, subnonce := Vector.replicate 12 0 }
  pa := { h := Limbs.zero 32, r := Limbs.zero 32, s5 := ⟨0, 0, 0, 0⟩, pad := ⟨0, 0, 0, 0⟩, d := Limbs.zero 64,
          tagx := Vector.replicate 16 0, block := 0 }
  ac := { otk := Vector.replicate 32 0, diff := 0, phase := .keySetup }

/-- The machine right after the power-on reset (R37, R300): every host-visible register 0, PEND empty; the DATA space with
nothing listed (log entry 2) and populated on `[0, Config.memBytes)` (log entry 1); no HOST access and no turn given yet. -/
def State.reset : State where
  status := ⟨false, false, false, 0⟩
  resLen := 0
  ctr := 0
  keyAddr := 0
  keyLen := 0
  nonceAddr := 0
  nonceLen := 0
  aadAddr := 0
  aadLen := 0
  bufAddr := 0
  bufLen := 0
  outAddr := 0
  pend := none
  mem := ⟨[]⟩
  pop := [⟨0, Config.memBytes⟩]
  hidden := Hidden.zero
  held := []
  script := []
  replies := []
  schedule := []

end Sys2Proof.Machine
end

