-- ==== Sys2Proof/Machine/Flags.lean ====
section
/-!
DEFINITION. The engine's flags, the fields of STATUS (10_state.md rules R29 and R34): the error codes, what issue and completion
write to the fields, and the word the HOST reads.
-/

namespace Sys2Proof.Machine

/-- The code written to `STATUS.ECODE` (60_exceptions.md rule R260). -/
def ErrorKind.code : ErrorKind → Byte
  | .invalidKeyLength => 1
  | .invalidNonceLength => 2
  | .invalidTagLength => 3
  | .messageTooLarge => 4
  | .authenticationFailed => 5
  | .illegalCommand => 6
  | .bufferFault => 7

/-- STATUS as a HOST read returns it: BUSY in bit 0, DONE in bit 1, ERR in bit 2, ECODE in bits 15 to 8, every other bit 0
(R29). -/
def Status.word (f : Status) : DWord :=
  BitVec.ofNat 64 (f.busy.toNat + 2 * f.done.toNat + 4 * f.err.toNat + 256 * f.ecode.toNat)

/-- STATUS after reset: all fields 0 (R37). -/
def Status.cleared : Status := ⟨false, false, false, 0⟩

/-- STATUS from the issue of a command (30_encoding.md rule R97). -/
def Status.pending : Status := ⟨true, false, false, 0⟩

/-- STATUS after a command that ended normally (R98). -/
def Status.ok : Status := ⟨false, true, false, 0⟩

/-- STATUS after a command that raised an error kind (R98, R269). -/
def Status.failed (e : ErrorKind) : Status := ⟨false, true, true, e.code⟩

end Sys2Proof.Machine
end

