-- ==== Sys2Proof/Machine/Ops.lean ====
section
/-!
DEFINITION. The named operations over the DATA space and the registers, the issue and the two completions of a command
(30_encoding.md rules R97 and R98), error entry as one operation (60_exceptions.md rule R269), and the reset event (R300).
-/

namespace Sys2Proof.Machine

/-! ### The DATA space -/

/-- The canonical form: addresses strictly rising, and no cell listed with the value an unlisted address reads as. -/
abbrev Memory.wf (m : Memory) : Prop :=
  m.cells.Pairwise (fun c d => c.1 < d.1) ∧ ∀ c ∈ m.cells, c.2 ≠ Config.unlistedByte

/-- The byte a list of cells holds at an address. -/
def cellsRead : List Host.Cell → Nat → Byte
  | [], _ => Config.unlistedByte
  | (k, v) :: rest, a => if k = a then v else cellsRead rest a

/-- The cells after a byte is stored; storing what an unlisted address reads as takes the cell out. -/
def cellsWrite : List Host.Cell → Nat → Byte → List Host.Cell
  | [], a, b => if b = Config.unlistedByte then [] else [(a, b)]
  | (k, v) :: rest, a, b =>
    if k < a then (k, v) :: cellsWrite rest a b
    else if k = a then (if b = Config.unlistedByte then rest else (a, b) :: rest)
    else (if b = Config.unlistedByte then (k, v) :: rest else (a, b) :: (k, v) :: rest)

/-- The DATA byte at an address (R61). -/
def Memory.read (m : Memory) (a : Nat) : Byte := cellsRead m.cells a

/-- The DATA space after one byte is stored (R61). -/
def Memory.write (m : Memory) (a : Nat) (b : Byte) : Memory := ⟨cellsWrite m.cells a b⟩

/-- `MemRead(addr, n)`: byte `i` is the DATA byte at `addr + i` (R12). -/
def Memory.readBytes (m : Memory) (a n : Nat) : List Byte := (List.range n).map fun i => m.read (a + i)

/-- `MemWrite(addr, n, B)`: byte `i` of `B` is stored at `addr + i` (R12). -/
def Memory.writeBytes (m : Memory) (a : Nat) : List Byte → Memory
  | [] => m
  | b :: bs => (m.write a b).writeBytes (a + 1) bs

/-! ### `DATA_POP` and the range check -/

/-- The form `DATA_POP` is kept in: rising intervals that do not touch, none empty, none past the top of the DATA space. -/
abbrev popWf (pop : List Region) : Prop :=
  pop.Pairwise (fun r q => r.base + r.size < q.base) ∧ ∀ r ∈ pop, 0 < r.size ∧ r.base + r.size ≤ Config.dataSpaceBytes

/-- Whether a DATA address holds a byte (R61). -/
def populated (pop : List Region) (a : Nat) : Bool := pop.any fun r => decide (r.base ≤ a) && decide (a < r.base + r.size)

/-- Whether every address from `a` up to but not including `stop` is in the rising intervals, without counting them one by
one: an interval that holds `a` carries the walk to its end. -/
def covers : List Region → Nat → Nat → Bool
  | [], a, stop => decide (stop ≤ a)
  | r :: rest, a, stop =>
    if r.base ≤ a ∧ a < r.base + r.size then covers rest (r.base + r.size) stop else covers rest a stop

/-- The range check `valid(a, n)` (20_memory.md rule R62); the sum `a + n` does not wrap. -/
def State.validRange (s : State) (a : DWord) (n : Nat) : Bool :=
  n == 0 || (decide (a.toNat + n ≤ Config.dataSpaceBytes) && covers s.pop a.toNat (a.toNat + n))

/-! ### Issue, completion, error entry, reset -/

/-- Issue of a command word (30_encoding.md rule R97). -/
def State.issue (s : State) (w : Word) : State :=
  { s with pend := some w, status := .pending, resLen := 0 }

/-- The normal end of a completion step (R98): the command's one range of DATA writes, RES_LEN, STATUS, PEND. -/
def State.succeed (s : State) (addr : DWord) (bytes : List Byte) (len : Nat) : State :=
  { s with
    mem := s.mem.writeBytes addr.toNat bytes, resLen := BitVec.ofNat 64 len, status := .ok, pend := none }

/-- Error entry, the error branch of a completion step (R98, R269): nothing is saved, no DATA byte is written, no register but
STATUS and RES_LEN changes. There is no return from it (R270): the next issue clears it. -/
def State.raiseError (s : State) (e : ErrorKind) : State :=
  { s with resLen := 0, status := .failed e, pend := none }

/-- The first error kind whose cause holds, in the order the causes are listed (60_exceptions.md rule R268). -/
def firstCause (causes : List (Bool × ErrorKind)) : Option ErrorKind := (causes.find? Prod.fst).map Prod.snd

/-- A command: its causes of error are checked in order before its body does anything (00_scope.md rule R14). -/
def State.runCommand (s : State) (causes : List (Bool × ErrorKind)) (body : State → State) : Host.Outcome State Fault Refusal :=
  match firstCause causes with
  | some e => .next (s.raiseError e)
  | none => .next (body s)

/-- The reset event (70_reset_and_hazards.md rule R300): the registers to 0, PEND emptied, every held HOST access dropped, the
DATA space unchanged, the internal register files unspecified (they take whatever `left` holds).
DESIGN CHOICE (log entry 22): an access whose hold has lifted and whose turn has not come is dropped with the held ones. R69
performs it "as if issued at that moment"; the spec does not say what a reset between the two does. -/
def State.resetEvent (s : State) (left : Hidden) : State :=
  { s with
    status := .cleared, resLen := 0, ctr := 0, keyAddr := 0, keyLen := 0, nonceAddr := 0, nonceLen := 0, aadAddr := 0,
    aadLen := 0, bufAddr := 0, bufLen := 0, outAddr := 0, pend := none, hidden := left, held := [] }

/-! ### The REG space -/

/-- A read of slot `n`: CMD and the reserved slots read 0, a narrow register's upper bits read 0 (10_state.md rule R31). -/
def State.regRead (s : State) (slot : Nat) : DWord :=
  match slot with
  | 1 => s.status.word
  | 2 => s.resLen
  | 3 => s.ctr.setWidth 64
  | 4 => s.keyAddr
  | 5 => s.keyLen
  | 6 => s.nonceAddr
  | 7 => s.nonceLen
  | 8 => s.aadAddr
  | 9 => s.aadLen
  | 10 => s.bufAddr
  | 11 => s.bufLen
  | 12 => s.outAddr
  | _ => 0

/-- A write to slot `n`: a write to CMD issues the low 32 bits (R28), CTR takes the low 32 bits, writes to STATUS, RES_LEN and
the reserved slots are ignored (R29, R30, R31). -/
def State.regWrite (s : State) (slot : Nat) (v : DWord) : State :=
  match slot with
  | 0 => s.issue (v.setWidth 32)
  | 3 => { s with ctr := v.setWidth 32 }
  | 4 => { s with keyAddr := v }
  | 5 => { s with keyLen := v }
  | 6 => { s with nonceAddr := v }
  | 7 => { s with nonceLen := v }
  | 8 => { s with aadAddr := v }
  | 9 => { s with aadLen := v }
  | 10 => { s with bufAddr := v }
  | 11 => { s with bufLen := v }
  | 12 => { s with outAddr := v }
  | _ => s

end Sys2Proof.Machine
end

