-- ==== Sys2Proof/Machine/Operands.lean ====
section
/-!
DEFINITION. The operands of the commands (20_memory.md rule R70, 30_encoding.md rule R92) and the causes of error each command
checks, as lists in the priority order of 60_exceptions.md rule R268.
-/

namespace Sys2Proof.Machine

/-- The key, `MemRead(KEY_ADDR, 32)`: every command's key has 32 bytes (R92). -/
def State.key (s : State) : List Byte := s.mem.readBytes s.keyAddr.toNat 32

/-- The 12-byte nonce of an IETF command, `MemRead(NONCE_ADDR, 12)` (R92). -/
def State.nonce (s : State) : List Byte := s.mem.readBytes s.nonceAddr.toNat 12

/-- The 24-byte nonce of an X command, `MemRead(NONCE_ADDR, 24)` (R92). -/
def State.nonce24 (s : State) : List Byte := s.mem.readBytes s.nonceAddr.toNat 24

/-- The associated data, `Operand(AAD)` (R70). -/
def State.aad (s : State) : List Byte := s.mem.readBytes s.aadAddr.toNat s.aadLen.toNat

/-- The buffer, `Operand(BUF)` (R70). -/
def State.buf (s : State) : List Byte := s.mem.readBytes s.bufAddr.toNat s.bufLen.toNat

/-- `AEAD_MAX_BYTES = (2^32 − 2) × 64` (44_aead.md rule R237). -/
def aeadMaxBytes : Nat := (2 ^ 32 - 2) * 64

/-- `nchunks = ceil(n / 64)` (41_stream_engine.md rule R150). -/
def chunkCount (n : Nat) : Nat := (n + 63) / 64

/-- The overflow condition: at least one chunk, and the last one's counter would pass 2^32 − 1 (R151). -/
def counterOverflow (ctr : Word) (n : Nat) : Bool :=
  decide (1 ≤ chunkCount n) && decide (ctr.toNat + chunkCount n - 1 > 2 ^ 32 - 1)

/-- InvalidKeyLength: `KEY_LEN != 32` (R261). -/
def State.badKeyLength (s : State) : Bool := s.keyLen != 32

/-- InvalidNonceLength: `NONCE_LEN` is not the length the command needs (R262). -/
def State.badNonceLength (s : State) (n : DWord) : Bool := s.nonceLen != n

/-- InvalidTagLength: `BUF_LEN < 16` (R263). -/
def State.badTagLength (s : State) : Bool := decide (s.bufLen.toNat < 16)

/-- MessageTooLarge of XOR and XXOR (R264 (a)). -/
def State.streamTooLarge (s : State) : Bool := counterOverflow s.ctr s.bufLen.toNat

/-- MessageTooLarge of SEAL and XSEAL (R264 (b)). -/
def State.plaintextTooLarge (s : State) : Bool := decide (s.bufLen.toNat > aeadMaxBytes)

/-- MessageTooLarge of OPEN and XOPEN: the ciphertext is the sealed input less the tag (R264 (b)). -/
def State.ciphertextTooLarge (s : State) : Bool := decide (s.bufLen.toNat - 16 > aeadMaxBytes)

/-- BufferFault: some range is not valid (R267). -/
def State.badRange (s : State) (ranges : List (DWord × Nat)) : Bool := !ranges.all fun r => s.validRange r.1 r.2

/-- The ranges BLOCK reads and writes (40_block_function.md rule R131). -/
def State.blockRanges (s : State) : List (DWord × Nat) := [(s.keyAddr, 32), (s.nonceAddr, 12), (s.outAddr, 64)]

/-- The ranges XOR reads and writes (R153). -/
def State.xorRanges (s : State) : List (DWord × Nat) := [(s.keyAddr, 32), (s.nonceAddr, 12), (s.bufAddr, s.bufLen.toNat)]

/-- The ranges DERIVE reads and writes (42_xchacha.md rule R174). -/
def State.deriveRanges (s : State) : List (DWord × Nat) := [(s.keyAddr, 32), (s.nonceAddr, 24), (s.outAddr, 44)]

/-- The ranges XXOR reads and writes (R175). -/
def State.xxorRanges (s : State) : List (DWord × Nat) := [(s.keyAddr, 32), (s.nonceAddr, 24), (s.bufAddr, s.bufLen.toNat)]

/-- The ranges MAC reads and writes (43_poly1305.md rule R210). -/
def State.macRanges (s : State) : List (DWord × Nat) := [(s.keyAddr, 32), (s.bufAddr, s.bufLen.toNat), (s.outAddr, 16)]

/-- The ranges SEAL (nonce length 12) and XSEAL (24) read and write: the buffer with the 16 tag bytes after it (R238, R240). -/
def State.sealRanges (s : State) (nonceBytes : Nat) : List (DWord × Nat) :=
  [(s.keyAddr, 32), (s.nonceAddr, nonceBytes), (s.aadAddr, s.aadLen.toNat), (s.bufAddr, s.bufLen.toNat + 16)]

/-- The ranges OPEN (nonce length 12) and XOPEN (24) read and write (R239, R241). -/
def State.openRanges (s : State) (nonceBytes : Nat) : List (DWord × Nat) :=
  [(s.keyAddr, 32), (s.nonceAddr, nonceBytes), (s.aadAddr, s.aadLen.toNat), (s.bufAddr, s.bufLen.toNat)]

/-- What BLOCK checks, in order (R131). -/
def State.blockCauses (s : State) : List (Bool × ErrorKind) :=
  [(s.badKeyLength, .invalidKeyLength), (s.badNonceLength 12, .invalidNonceLength), (s.badRange s.blockRanges, .bufferFault)]

/-- What XOR checks, in order (R153). -/
def State.xorCauses (s : State) : List (Bool × ErrorKind) :=
  [(s.badKeyLength, .invalidKeyLength), (s.badNonceLength 12, .invalidNonceLength), (s.streamTooLarge, .messageTooLarge),
   (s.badRange s.xorRanges, .bufferFault)]

/-- What DERIVE checks, in order (R174). -/
def State.deriveCauses (s : State) : List (Bool × ErrorKind) :=
  [(s.badKeyLength, .invalidKeyLength), (s.badNonceLength 24, .invalidNonceLength), (s.badRange s.deriveRanges, .bufferFault)]

/-- What XXOR checks, in order (R175). -/
def State.xxorCauses (s : State) : List (Bool × ErrorKind) :=
  [(s.badKeyLength, .invalidKeyLength), (s.badNonceLength 24, .invalidNonceLength), (s.streamTooLarge, .messageTooLarge),
   (s.badRange s.xxorRanges, .bufferFault)]

/-- What MAC checks, in order (R210). -/
def State.macCauses (s : State) : List (Bool × ErrorKind) :=
  [(s.badKeyLength, .invalidKeyLength), (s.badRange s.macRanges, .bufferFault)]

/-- What SEAL checks, in order (R238). -/
def State.sealCauses (s : State) : List (Bool × ErrorKind) :=
  [(s.badKeyLength, .invalidKeyLength), (s.badNonceLength 12, .invalidNonceLength), (s.plaintextTooLarge, .messageTooLarge),
   (s.badRange (s.sealRanges 12), .bufferFault)]

/-- What OPEN checks before it reads a DATA byte, in order (R239). -/
def State.openCauses (s : State) : List (Bool × ErrorKind) :=
  [(s.badKeyLength, .invalidKeyLength), (s.badNonceLength 12, .invalidNonceLength), (s.badTagLength, .invalidTagLength),
   (s.ciphertextTooLarge, .messageTooLarge), (s.badRange (s.openRanges 12), .bufferFault)]

/-- What XSEAL checks, in order (R240). -/
def State.xsealCauses (s : State) : List (Bool × ErrorKind) :=
  [(s.badKeyLength, .invalidKeyLength), (s.badNonceLength 24, .invalidNonceLength), (s.plaintextTooLarge, .messageTooLarge),
   (s.badRange (s.sealRanges 24), .bufferFault)]

/-- What XOPEN checks before it reads a DATA byte, in order (R241). -/
def State.xopenCauses (s : State) : List (Bool × ErrorKind) :=
  [(s.badKeyLength, .invalidKeyLength), (s.badNonceLength 24, .invalidNonceLength), (s.badTagLength, .invalidTagLength),
   (s.ciphertextTooLarge, .messageTooLarge), (s.badRange (s.openRanges 24), .bufferFault)]

end Sys2Proof.Machine
end

