-- ==== Sys2Proof/Machine/Poly1305.lean ====
section
/-!
DEFINITION. The Poly1305 Accumulator (43_poly1305.md): the value level on natural numbers, the limb level on the unit's
registers, and the command MAC, which runs the limb level the hardware has.
-/

namespace Sys2Proof.Machine

/-! ### The value level -/

/-- `P1305 = 2^130 − 5` (00_scope.md rule R15). -/
def p1305 : Nat := 2 ^ 130 - 5

/-- The clamp mask (R191). -/
def clampMask : Nat := 0x0ffffffc0ffffffc0ffffffc0fffffff

/-- The clamped key half `r` (R190, R191). -/
def clampedR (otk : List Byte) : Nat := le (slice otk 0 16) &&& clampMask

/-- The key half `s` (R190). -/
def padS (otk : List Byte) : Nat := le (slice otk 16 32)

/-- Block to integer: `n = le(blk) + 2^(8 L)` (R192). -/
def blockInt (blk : List Byte) : Nat := le blk + 2 ^ (8 * blk.length)

/-- `nblocks = ceil(len(msg) / 16)` (R195). -/
def blockCount (n : Nat) : Nat := (n + 15) / 16

/-- Message block `k`: bytes `16 k` up to `min(16 k + 16, len(msg))` (R195). -/
def blockAt (msg : List Byte) (k : Nat) : List Byte := slice msg (16 * k) (16 * k + 16)

/-- Absorb: `h <- ((h + n) × r) mod P1305` (R193). -/
def absorb (r h : Nat) (blk : List Byte) : Nat := ((h + blockInt blk) * r) % p1305

/-- The accumulator after the whole message, starting at 0 (R193, R195). -/
def absorbAll (r : Nat) (msg : List Byte) : Nat :=
  (List.range (blockCount msg.length)).foldl (fun h k => absorb r h (blockAt msg k)) 0

/-- `Poly1305Mac(otk, msg)` (R195, with R194). -/
def poly1305Mac (otk msg : List Byte) : List Byte :=
  ser ((absorbAll (clampedR otk) msg % p1305 + padS otk) % 2 ^ 128) 16

/-! ### The limb level -/

/-- `MASK26` in a 32-bit register (R196). -/
def mask26 : Word := 0x3ffffff

/-- `MASK26` in a 64-bit register (R196). -/
def mask26D : DWord := 0x3ffffff

/-- The represented integer `val(H) = Σ H[i] × 2^(26 i)` (R196). -/
def Limbs.val {w : Nat} (h : Limbs w) : Nat :=
  h.l0.toNat + h.l1.toNat * 2 ^ 26 + h.l2.toNat * 2 ^ 52 + h.l3.toNat * 2 ^ 78 + h.l4.toNat * 2 ^ 104

/-- Loading `R` from the key bytes, the clamp folded into the masks (R197). -/
def loadR (otk : List Byte) : Limbs 32 where
  l0 := leWord (slice otk 0 4) &&& 0x3ffffff
  l1 := (leWord (slice otk 3 7) >>> 2) &&& 0x3ffff03
  l2 := (leWord (slice otk 6 10) >>> 4) &&& 0x3ffc0ff
  l3 := (leWord (slice otk 9 13) >>> 6) &&& 0x3f03fff
  l4 := (leWord (slice otk 12 16) >>> 8) &&& 0x00fffff

/-- `S5[i] <- 5 × R[i]` (R198). -/
def scaleR (r : Limbs 32) : ScaledLimbs := ⟨5 * r.l1, 5 * r.l2, 5 * r.l3, 5 * r.l4⟩

/-- `PAD[i] <- le(otk[16 + 4i .. 20 + 4i))` (R198). -/
def loadPad (otk : List Byte) : FourWords :=
  ⟨leWord (slice otk 16 20), leWord (slice otk 20 24), leWord (slice otk 24 28), leWord (slice otk 28 32)⟩

/-- Digit `i` of a block integer, `n[26i + 25 : 26i]` (R199). -/
def digit26 (n i : Nat) : Word := BitVec.ofNat 32 ((n >>> (26 * i)) % 2 ^ 26)

/-- Adding a block: `H[i] <- H[i] + N[i]`, with `N[4] = n >> 104` (R199). -/
def addBlock (h : Limbs 32) (n : Nat) : Limbs 32 :=
  ⟨h.l0 + digit26 n 0, h.l1 + digit26 n 1, h.l2 + digit26 n 2, h.l3 + digit26 n 3, h.l4 + BitVec.ofNat 32 (n >>> 104)⟩

/-- A 32 × 32 to 64 bit unsigned multiply (R200). -/
def mul64 (a b : Word) : DWord := a.setWidth 64 * b.setWidth 64

/-- The five column sums (R200). -/
def mulColumns (h r : Limbs 32) (s : ScaledLimbs) : Limbs 64 where
  l0 := mul64 h.l0 r.l0 + mul64 h.l1 s.s4 + mul64 h.l2 s.s3 + mul64 h.l3 s.s2 + mul64 h.l4 s.s1
  l1 := mul64 h.l0 r.l1 + mul64 h.l1 r.l0 + mul64 h.l2 s.s4 + mul64 h.l3 s.s3 + mul64 h.l4 s.s2
  l2 := mul64 h.l0 r.l2 + mul64 h.l1 r.l1 + mul64 h.l2 r.l0 + mul64 h.l3 s.s4 + mul64 h.l4 s.s3
  l3 := mul64 h.l0 r.l3 + mul64 h.l1 r.l2 + mul64 h.l2 r.l1 + mul64 h.l3 r.l0 + mul64 h.l4 s.s4
  l4 := mul64 h.l0 r.l4 + mul64 h.l1 r.l3 + mul64 h.l2 r.l2 + mul64 h.l3 r.l1 + mul64 h.l4 r.l0

/-- The carries rippled through the column sums: `D[i] <- D[i] + (D[i-1] >> 26)` (R201). -/
def rippleColumns (d : Limbs 64) : Limbs 64 :=
  let d1 := d.l1 + (d.l0 >>> 26)
  let d2 := d.l2 + (d1 >>> 26)
  let d3 := d.l3 + (d2 >>> 26)
  ⟨d.l0, d1, d2, d3, d.l4 + (d3 >>> 26)⟩

/-- The low 26 bits of a column sum, in a limb register (R201). -/
def lowDigit (d : DWord) : Word := (d &&& mask26D).setWidth 32

/-- The limbs after the multiplication, from the rippled column sums; the carry out of the top digit folds into digit 0 times 5
(R201). -/
def foldColumns (d : Limbs 64) : Limbs 32 :=
  let h0 := lowDigit d.l0 + 5 * (d.l4 >>> 26).setWidth 32
  ⟨h0 &&& mask26, lowDigit d.l1 + (h0 >>> 26), lowDigit d.l2, lowDigit d.l3, lowDigit d.l4⟩

/-- The final carry pass (R204). -/
def finalCarry (h : Limbs 32) : Limbs 32 :=
  let h2 := h.l2 + (h.l1 >>> 26)
  let h3 := h.l3 + (h2 >>> 26)
  let h4 := h.l4 + (h3 >>> 26)
  let h0 := h.l0 + 5 * (h4 >>> 26)
  ⟨h0 &&& mask26, (h.l1 &&& mask26) + (h0 >>> 26), h2 &&& mask26, h3 &&& mask26, h4 &&& mask26⟩

/-- `G = val(H) + 5 − 2^130` on the limbs, the top one modulo 2^32 (R205). -/
def minusP (h : Limbs 32) : Limbs 32 :=
  let g0 := h.l0 + 5
  let g1 := h.l1 + (g0 >>> 26)
  let g2 := h.l2 + (g1 >>> 26)
  let g3 := h.l3 + (g2 >>> 26)
  ⟨g0 &&& mask26, g1 &&& mask26, g2 &&& mask26, g3 &&& mask26, h.l4 + (g3 >>> 26) - 0x4000000⟩

/-- The selection mask: all ones when bit 31 of `G[4]` is 0, else 0 (R205). -/
def selectMask (g : Limbs 32) : Word := (g.l4 >>> 31) - 1

/-- One masked selection, `(h & ~m) | (g & m)` (R205). -/
def selectWord (m h g : Word) : Word := (h &&& ~~~m) ||| (g &&& m)

/-- The conditional subtraction of `P1305`, selected without a branch (R205). -/
def conditionalSubtract (h : Limbs 32) : Limbs 32 :=
  let g := minusP h
  let m := selectMask g
  ⟨selectWord m h.l0 g.l0, selectWord m h.l1 g.l1, selectWord m h.l2 g.l2, selectWord m h.l3 g.l3, selectWord m h.l4 g.l4⟩

/-- The low 128 bits of `val(H)` as four words (R206). -/
def repack (h : Limbs 32) : FourWords :=
  ⟨h.l0 ||| (h.l1 <<< 26), (h.l1 >>> 6) ||| (h.l2 <<< 20), (h.l2 >>> 12) ||| (h.l3 <<< 14), (h.l3 >>> 18) ||| (h.l4 <<< 8)⟩

/-- Adding `s` with a 64-bit temporary, the carry out of bit 127 dropped (R207). -/
def addPad (w pad : FourWords) : FourWords :=
  let f0 : DWord := w.p0.setWidth 64 + pad.p0.setWidth 64
  let f1 : DWord := w.p1.setWidth 64 + pad.p1.setWidth 64 + (f0 >>> 32)
  let f2 : DWord := w.p2.setWidth 64 + pad.p2.setWidth 64 + (f1 >>> 32)
  let f3 : DWord := w.p3.setWidth 64 + pad.p3.setWidth 64 + (f2 >>> 32)
  ⟨f0.setWidth 32, f1.setWidth 32, f2.setWidth 32, f3.setWidth 32⟩

/-- The four words serialised, least significant first (R207). -/
def FourWords.serialize (t : FourWords) : List Byte := serWord t.p0 ++ serWord t.p1 ++ serWord t.p2 ++ serWord t.p3

/-! ### Micro-operations on the registers -/

/-- The start of a MAC computation: `R`, `S5` and `PAD` loaded, `H` zeroed (R197, R198). -/
def Poly1305Accumulator.start (p : Poly1305Accumulator) (otk : List Byte) : Poly1305Accumulator :=
  { p with r := loadR otk, s5 := scaleR (loadR otk), pad := loadPad otk, h := Limbs.zero 32, block := 0 }

/-- One block step: R199, then R200, then R201 (R202). -/
def Poly1305Accumulator.blockStep (p : Poly1305Accumulator) (blk : List Byte) : Poly1305Accumulator :=
  let d := rippleColumns (mulColumns (addBlock p.h (blockInt blk)) p.r p.s5)
  { p with d := d, h := foldColumns d }

/-- The block steps of a message, the block index running with them (R195, R202).
DESIGN CHOICE (log entry 21): the index counts through the whole message it is given, for an AEAD command the whole MAC input of
44_aead.md rule R233, and keeps its low 60 bits. 10_state.md rule R25 sizes it for a message of at most 2^60 blocks and says that
it does not wrap; it does not say how an AEAD command counts a MAC input of more. No step reads the index. -/
def Poly1305Accumulator.absorbBlocks (p : Poly1305Accumulator) (msg : List Byte) : Poly1305Accumulator :=
  (List.range (blockCount msg.length)).foldl
    (fun p k => { p.blockStep (blockAt msg k) with block := BitVec.ofNat 60 k }) p

/-- The finalisation: R204, R205, R206, R207; the tag is left in `TAGX`. -/
def Poly1305Accumulator.finish (p : Poly1305Accumulator) : Poly1305Accumulator :=
  let h := conditionalSubtract (finalCarry p.h)
  { p with h := h, tagx := registerFile 16 (addPad (repack h) p.pad).serialize }

/-- `Poly1305MacLimbs(otk, msg)` on the registers (R208). -/
def Poly1305Accumulator.runMac (p : Poly1305Accumulator) (otk msg : List Byte) : Poly1305Accumulator :=
  ((p.start otk).absorbBlocks msg).finish

/-- A MAC computation, on the internal register files. -/
def Hidden.runMac (g : Hidden) (otk msg : List Byte) : Hidden := { g with pa := g.pa.runMac otk msg }

/-! ### The command -/

/-- What MAC does when no error applies: the tag to `OUT_ADDR` (R210). -/
def State.macBody (s : State) : State :=
  let g := s.hidden.runMac s.key s.buf
  { s with hidden := g }.succeed s.outAddr g.pa.tagx.toList 16

/-- MAC (43_poly1305.md rule R210). -/
def execMac (s : State) : Host.Outcome State Fault Refusal := s.runCommand s.macCauses State.macBody

end Sys2Proof.Machine
end

