-- ==== Sys2Proof/Machine/Block.lean ====
section
/-!
DEFINITION. The Word-Matrix Core (40_block_function.md): the quarter-round and the rounds, the block function as a pure function
on values, the micro-operations on the unit's registers, and the command BLOCK.
-/

namespace Sys2Proof.Machine

/-! ### Functions on values -/

/-- The constant words `K0` to `K3` (R120). -/
def constK0 : Word := 0x61707865
def constK1 : Word := 0x3320646e
def constK2 : Word := 0x79622d32
def constK3 : Word := 0x6b206574

/-- `rotl32(x, n)`, the left rotation, for `0 < n < 32` (00_scope.md rule R10). -/
def rotl32 (x : Word) (n : Nat) : Word := (x <<< n) ||| (x >>> (32 - n))

/-- Word `i` of a byte sequence: `le(B[4i .. 4i+4))` (20_memory.md rule R63 (a), (b)). -/
def wordAt (bytes : List Byte) (i : Nat) : Word := leWord (slice bytes (4 * i) (4 * i + 4))

/-- The matrix INIT builds: four constants, eight key words, the counter word, three nonce words (R121). -/
def initMatrix (key nonce : List Byte) (ctr : Word) : StateMatrix :=
  #v[constK0, constK1, constK2, constK3,
     wordAt key 0, wordAt key 1, wordAt key 2, wordAt key 3,
     wordAt key 4, wordAt key 5, wordAt key 6, wordAt key 7,
     ctr, wordAt nonce 0, wordAt nonce 1, wordAt nonce 2]

/-- Stage 1 of the quarter-round pipeline (R123). -/
def qrStage1 (q : Word × Word × Word × Word) : Word × Word × Word × Word :=
  match q with
  | (a, b, c, d) => (add32 a b, b, c, rotl32 (xor32 d (add32 a b)) 16)

/-- Stage 2 (R123). -/
def qrStage2 (q : Word × Word × Word × Word) : Word × Word × Word × Word :=
  match q with
  | (a, b, c, d) => (a, rotl32 (xor32 b (add32 c d)) 12, add32 c d, d)

/-- Stage 3 (R123). -/
def qrStage3 (q : Word × Word × Word × Word) : Word × Word × Word × Word :=
  match q with
  | (a, b, c, d) => (add32 a b, b, c, rotl32 (xor32 d (add32 a b)) 8)

/-- Stage 4 (R123). -/
def qrStage4 (q : Word × Word × Word × Word) : Word × Word × Word × Word :=
  match q with
  | (a, b, c, d) => (a, rotl32 (xor32 b (add32 c d)) 7, add32 c d, d)

/-- QR: the four stages in series (R122, R123). -/
def quarterRound (q : Word × Word × Word × Word) : Word × Word × Word × Word :=
  qrStage4 (qrStage3 (qrStage2 (qrStage1 q)))

/-- `QRX(p, q, r, s)`: QR in place on four words of the matrix (R122). -/
def qrx (p q r s : Fin 16) (m : StateMatrix) : StateMatrix :=
  match quarterRound (m[p], m[q], m[r], m[s]) with
  | (a, b, c, d) => (((m.set p a).set q b).set r c).set s d

/-- COLROUND: the four columns (R125). -/
def colRound (m : StateMatrix) : StateMatrix :=
  qrx 3 7 11 15 (qrx 2 6 10 14 (qrx 1 5 9 13 (qrx 0 4 8 12 m)))

/-- DIAGROUND: the four diagonals (R126). -/
def diagRound (m : StateMatrix) : StateMatrix :=
  qrx 3 4 9 14 (qrx 2 7 8 13 (qrx 1 6 11 12 (qrx 0 5 10 15 m)))

/-- DROUND: COLROUND, then DIAGROUND (R128). -/
def doubleRound (m : StateMatrix) : StateMatrix := diagRound (colRound m)

/-- PERMUTE: DROUND 10 times (R128). -/
def permute (m : StateMatrix) : StateMatrix := (List.range 10).foldl (fun m _ => doubleRound m) m

/-- FEEDFWD: the original matrix added word for word (R129). -/
def feedForward (x s0 : StateMatrix) : StateMatrix := Vector.ofFn fun i => add32 x[i] s0[i]

/-- SERIALIZE: the sixteen words, each little-endian (R130). -/
def serialize (x : StateMatrix) : List Byte := x.toList.flatMap serWord

/-- `ChaCha20Block(key, nonce, ctr)` (R131). -/
def chaCha20Block (key nonce : List Byte) (ctr : Word) : List Byte :=
  serialize (feedForward (permute (initMatrix key nonce ctr)) (initMatrix key nonce ctr))

/-! ### Micro-operations on the registers -/

/-- INIT on the registers: `X` and its copy `S0` (R121), and the counter of this invocation (10_state.md rule R23). -/
def WordMatrixCore.init (w : WordMatrixCore) (key nonce : List Byte) (ctr : Word) : WordMatrixCore :=
  { w with x := initMatrix key nonce ctr, s0 := initMatrix key nonce ctr, bctr := ctr }

/-- PERMUTE on the registers, the round index running from 0 to 9 (R128). -/
def WordMatrixCore.permute (w : WordMatrixCore) : WordMatrixCore :=
  (List.range 10).foldl (fun w i => { w with x := doubleRound w.x, round := BitVec.ofNat 4 i }) w

/-- FEEDFWD on the registers (R129). -/
def WordMatrixCore.feedForward (w : WordMatrixCore) : WordMatrixCore :=
  { w with x := Machine.feedForward w.x w.s0 }

/-- SERIALIZE on the registers (R130). -/
def WordMatrixCore.serialize (w : WordMatrixCore) : WordMatrixCore :=
  { w with ks := registerFile 64 (Machine.serialize w.x) }

/-- One block-function invocation on the registers (R131); its keystream block is left in `KS`. -/
def WordMatrixCore.runBlock (w : WordMatrixCore) (key nonce : List Byte) (ctr : Word) : WordMatrixCore :=
  (w.init key nonce ctr).permute.feedForward.serialize

/-- One block-function invocation, on the internal register files. -/
def Hidden.runBlock (g : Hidden) (key nonce : List Byte) (ctr : Word) : Hidden :=
  { g with wmc := g.wmc.runBlock key nonce ctr }

/-! ### The command -/

/-- What BLOCK does when no error applies: the keystream block to `OUT_ADDR` (R131). -/
def State.blockBody (s : State) : State :=
  let g := s.hidden.runBlock s.key s.nonce s.ctr
  { s with hidden := g }.succeed s.outAddr g.wmc.ks.toList 64

/-- BLOCK (40_block_function.md rule R131). -/
def execBlock (s : State) : Host.Outcome State Fault Refusal := s.runCommand s.blockCauses State.blockBody

end Sys2Proof.Machine
end

