-- ==== Sys2Proof/Machine/Stream.lean ====
section
/-!
DEFINITION. The ChaCha20 Stream Engine (41_stream_engine.md): chunks, the function XorStream, its run on the registers, and the
command XOR.
-/

namespace Sys2Proof.Machine

/-- Chunk `j`: the bytes at offsets `64 j` up to but not including `min(64 j + 64, n)` (R150). -/
def chunkAt (buf : List Byte) (j : Nat) : List Byte := slice buf (64 * j) (64 * j + 64)

/-- `XorStream(key, nonce, ctr, buf)`: chunk `j` xor the keystream block for counter `ctr + j`, the unused keystream tail of a
partial last chunk discarded (R152). The caller has checked that no counter overflows (R151). -/
def xorStream (key nonce : List Byte) (ctr : Word) (buf : List Byte) : List Byte :=
  (List.range (chunkCount buf.length)).flatMap fun j =>
    xorBytes (chunkAt buf j) (chaCha20Block key nonce (ctr + BitVec.ofNat 32 j))

/-- One chunk on the registers: the block counter, the chunk index, the keystream block, and the output so far (R151, R152). -/
def Hidden.streamChunk (key nonce : List Byte) (ctr : Word) (buf : List Byte) (acc : Hidden × List Byte) (j : Nat) :
    Hidden × List Byte :=
  let g := acc.1.runBlock key nonce (ctr + BitVec.ofNat 32 j)
  ({ g with se := { chunk := BitVec.ofNat 33 j } }, acc.2 ++ xorBytes (chunkAt buf j) g.wmc.ks.toList)

/-- The stream engine's run over a buffer, chunk after chunk (R152): the registers it leaves, and the transformed bytes. -/
def Hidden.runStream (g : Hidden) (key nonce : List Byte) (ctr : Word) (buf : List Byte) : Hidden × List Byte :=
  (List.range (chunkCount buf.length)).foldl (Hidden.streamChunk key nonce ctr buf) ({ g with se := { chunk := 0 } }, [])

/-- What XOR does when no error applies: the buffer transformed in place (R153). -/
def State.xorBody (s : State) : State :=
  let r := s.hidden.runStream s.key s.nonce s.ctr s.buf
  { s with hidden := r.1 }.succeed s.bufAddr r.2 s.bufLen.toNat

/-- XOR (41_stream_engine.md rule R153). -/
def execXor (s : State) : Host.Outcome State Fault Refusal := s.runCommand s.xorCauses State.xorBody

end Sys2Proof.Machine
end

