-- ==== Sys2Proof/Machine/XChaCha.lean ====
section
/-!
DEFINITION. The XChaCha20 Extension (42_xchacha.md): HChaCha20, the subkey and subnonce derivation, and the commands DERIVE and
XXOR.
-/

namespace Sys2Proof.Machine

/-- The matrix HINIT builds: constants and key as INIT, the 16 input bytes in words 12 to 15 (R170). -/
def hInitMatrix (key n16 : List Byte) : StateMatrix :=
  #v[constK0, constK1, constK2, constK3,
     wordAt key 0, wordAt key 1, wordAt key 2, wordAt key 3,
     wordAt key 4, wordAt key 5, wordAt key 6, wordAt key 7,
     wordAt n16 0, wordAt n16 1, wordAt n16 2, wordAt n16 3]

/-- HOUT: words 0 to 3 and 12 to 15, each little-endian (R171). -/
def hOut (x : StateMatrix) : List Byte := ((x.toList.take 4) ++ (x.toList.drop 12)).flatMap serWord

/-- `HChaCha20(key, n16)`: the permuted matrix without feed-forward (R171). -/
def hChaCha20 (key n16 : List Byte) : List Byte := hOut (permute (hInitMatrix key n16))

/-- `SubNonce(nonce24) = zeros(4) ‖ nonce24[16..24)` (R172). -/
def subNonce (nonce24 : List Byte) : List Byte := zeros 4 ++ slice nonce24 16 24

/-- `Derive(key, nonce24)`: the subkey and the subnonce (R173). -/
def derive (key nonce24 : List Byte) : List Byte × List Byte :=
  (hChaCha20 key (slice nonce24 0 16), subNonce nonce24)

/-- HINIT on the registers: `X` only, `S0` is not written (R170). -/
def WordMatrixCore.hInit (w : WordMatrixCore) (key n16 : List Byte) : WordMatrixCore :=
  { w with x := hInitMatrix key n16 }

/-- HChaCha20 on the registers; the permuted matrix is left in `X` (R171). -/
def WordMatrixCore.runHChaCha (w : WordMatrixCore) (key n16 : List Byte) : WordMatrixCore := (w.hInit key n16).permute

/-- The derivation on the registers: the result is written to `SUBKEY` and `SUBNONCE` (R173). -/
def Hidden.runDerive (g : Hidden) (key nonce24 : List Byte) : Hidden :=
  let w := g.wmc.runHChaCha key (slice nonce24 0 16)
  { g with
    wmc := w, xe := { subkey := registerFile 32 (hOut w.x), subnonce := registerFile 12 (subNonce nonce24) } }

/-- What DERIVE does when no error applies: the subkey and the subnonce to `OUT_ADDR` (R174). -/
def State.deriveBody (s : State) : State :=
  let g := s.hidden.runDerive s.key s.nonce24
  { s with hidden := g }.succeed s.outAddr (g.xe.subkey.toList ++ g.xe.subnonce.toList) 44

/-- DERIVE (42_xchacha.md rule R174). -/
def execDerive (s : State) : Host.Outcome State Fault Refusal := s.runCommand s.deriveCauses State.deriveBody

/-- What XXOR does when no error applies: the derivation, then the stream engine under the subkey and subnonce (R175). -/
def State.xxorBody (s : State) : State :=
  let g := s.hidden.runDerive s.key s.nonce24
  let r := g.runStream g.xe.subkey.toList g.xe.subnonce.toList s.ctr s.buf
  { s with hidden := r.1 }.succeed s.bufAddr r.2 s.bufLen.toNat

/-- XXOR (42_xchacha.md rule R175). -/
def execXxor (s : State) : Host.Outcome State Fault Refusal := s.runCommand s.xxorCauses State.xxorBody

end Sys2Proof.Machine
end

