-- ==== Sys2Proof/Machine/Aead.lean ====
section
/-!
DEFINITION. The AEAD Composer (44_aead.md): the tag key, the MAC input, Seal and Open as pure functions on values, their run on
the registers, and the commands SEAL, OPEN, XSEAL and XOPEN.
-/

namespace Sys2Proof.Machine

/-! ### Functions on values -/

/-- `TagKey(key, nonce)`: the first 32 bytes of keystream block 0 (R231). -/
def tagKey (key nonce : List Byte) : List Byte := (xorStream key nonce 0 (zeros 64)).take 32

/-- `Pad16(n)`: the zero bytes that reach the next multiple of 16 (R232). -/
def pad16 (n : Nat) : List Byte := zeros ((16 - n % 16) % 16)

/-- The MAC input (R233). -/
def macInput (aad ct : List Byte) : List Byte :=
  aad ++ pad16 aad.length ++ ct ++ pad16 ct.length ++ ser aad.length 8 ++ ser ct.length 8

/-- `Seal(key, nonce, aad, pt)`: ciphertext ‖ tag (R234). -/
def sealBytes (key nonce aad pt : List Byte) : List Byte :=
  xorStream key nonce 1 pt ++ poly1305Mac (tagKey key nonce) (macInput aad (xorStream key nonce 1 pt))

/-- The ciphertext of a sealed input: all but the last 16 bytes (R235). -/
def sealedText (sealed : List Byte) : List Byte := sealed.take (sealed.length - 16)

/-- The supplied tag of a sealed input: its last 16 bytes (R235). -/
def sealedTag (sealed : List Byte) : List Byte := sealed.drop (sealed.length - 16)

/-- The tag comparison's accumulator: every byte pair's difference or-ed together (R236). -/
def tagDiff (a b : List Byte) : Byte := (xorBytes a b).foldl (fun acc x => acc ||| x) 0

/-- `TagEqual(a, b)`: one decision on the accumulated difference (R236). -/
def tagEqual (a b : List Byte) : Bool := tagDiff a b == 0

/-- `Open(key, nonce, aad, sealed)`: the plaintext, or AuthenticationFailed (R235). -/
def openBytes (key nonce aad sealed : List Byte) : Except ErrorKind (List Byte) :=
  if tagEqual (poly1305Mac (tagKey key nonce) (macInput aad (sealedText sealed))) (sealedTag sealed) then
    .ok (xorStream key nonce 1 (sealedText sealed))
  else .error .authenticationFailed

/-! ### Micro-operations on the registers -/

/-- The AEAD state machine enters a phase (R230). -/
def Hidden.enterPhase (g : Hidden) (p : AeadPhase) : Hidden := { g with ac := { g.ac with phase := p } }

/-- TagKeyDerivation on the registers: the stream engine on 64 zero bytes with counter 0, the first 32 bytes to `OTK` (R231). -/
def Hidden.runTagKey (g : Hidden) (key nonce : List Byte) : Hidden :=
  let r := (g.enterPhase .tagKeyDerivation).runStream key nonce 0 (zeros 64)
  { r.1 with ac := { r.1.ac with otk := registerFile 32 (r.2.take 32) } }

/-- MacAssembly on the registers: the MAC under `OTK`, its tag left in `TAGX` (R233, R234). -/
def Hidden.runAssembly (g : Hidden) (aad ct : List Byte) : Hidden :=
  (g.enterPhase .macAssembly).runMac g.ac.otk.toList (macInput aad ct)

/-- Seal on the registers, phase after phase (R230, R234): the registers it leaves, and ciphertext ‖ tag. -/
def Hidden.runSeal (g : Hidden) (key nonce aad pt : List Byte) : Hidden × List Byte :=
  let r := ((g.runTagKey key nonce).enterPhase .bulkTransform).runStream key nonce 1 pt
  let g' := (r.1.runAssembly aad r.2).enterPhase .finalize
  (g', r.2 ++ g'.pa.tagx.toList)

/-- The comparison on the registers: `DIFF` accumulated over all 16 byte pairs of `TAGX` and the supplied tag (R236). -/
def Hidden.runCompare (g : Hidden) (tag : List Byte) : Hidden :=
  { g with ac := { g.ac with diff := tagDiff g.pa.tagx.toList tag } }

/-- Verify on the registers: the MAC of the supplied ciphertext and the comparison, before any byte is decrypted (R230, R235). -/
def Hidden.runVerify (g : Hidden) (key nonce aad sealed : List Byte) : Hidden :=
  (((g.runTagKey key nonce).runAssembly aad (sealedText sealed)).enterPhase .verify).runCompare (sealedTag sealed)

/-! ### The commands -/

/-- The state in which an AEAD command begins: phase KeySetup (R230). -/
def State.beginAead (s : State) : State := { s with hidden := s.hidden.enterPhase .keySetup }

/-- SEAL and XSEAL once the key and nonce are set up: ciphertext ‖ tag over the plaintext and the 16 bytes after it (R238). -/
def State.sealWith (s : State) (g : Hidden) (key nonce : List Byte) : State :=
  let r := g.runSeal key nonce s.aad s.buf
  { s with hidden := r.1 }.succeed s.bufAddr r.2 (s.bufLen.toNat + 16)

/-- OPEN and XOPEN once the key and nonce are set up: the comparison first, and only on success the plaintext in place; the tag
bytes stay as they were (R239). -/
def State.openWith (s : State) (g : Hidden) (key nonce : List Byte) : State :=
  let v := g.runVerify key nonce s.aad s.buf
  if v.ac.diff == 0 then
    let r := v.runStream key nonce 1 (sealedText s.buf)
    { s with hidden := r.1 }.succeed s.bufAddr r.2 (s.bufLen.toNat - 16)
  else { s with hidden := v }.raiseError .authenticationFailed

/-- What SEAL does when no error applies (R238). -/
def State.sealBody (s : State) : State := s.sealWith s.hidden s.key s.nonce

/-- What OPEN does when the checks before it pass (R239). -/
def State.openBody (s : State) : State := s.openWith s.hidden s.key s.nonce

/-- What XSEAL does when no error applies: SEAL under the derived subkey and subnonce (R240). -/
def State.xsealBody (s : State) : State :=
  let g := s.hidden.runDerive s.key s.nonce24
  s.sealWith g g.xe.subkey.toList g.xe.subnonce.toList

/-- What XOPEN does when the checks before it pass: OPEN under the derived subkey and subnonce (R241). -/
def State.xopenBody (s : State) : State :=
  let g := s.hidden.runDerive s.key s.nonce24
  s.openWith g g.xe.subkey.toList g.xe.subnonce.toList

/-- SEAL (44_aead.md rule R238). -/
def execSeal (s : State) : Host.Outcome State Fault Refusal := s.beginAead.runCommand s.sealCauses State.sealBody

/-- OPEN (44_aead.md rule R239). -/
def execOpen (s : State) : Host.Outcome State Fault Refusal := s.beginAead.runCommand s.openCauses State.openBody

/-- XSEAL (44_aead.md rule R240). -/
def execXseal (s : State) : Host.Outcome State Fault Refusal := s.beginAead.runCommand s.xsealCauses State.xsealBody

/-- XOPEN (44_aead.md rule R241). -/
def execXopen (s : State) : Host.Outcome State Fault Refusal := s.beginAead.runCommand s.xopenCauses State.xopenBody

end Sys2Proof.Machine
end

