-- ==== Sys2Proof/Machine/Dispatch.lean ====
section
/-!
DEFINITION. The dispatch of a command to its meaning (30_encoding.md rule R91).
-/

namespace Sys2Proof.Machine

/-- The completion of a command: the body of the selected command rule (R98). -/
def exec (i : Instr) (s : State) : Host.Outcome State Fault Refusal :=
  match i with
  | .block => Sys2Proof.Machine.execBlock s
  | .xor => Sys2Proof.Machine.execXor s
  | .derive => Sys2Proof.Machine.execDerive s
  | .xxor => Sys2Proof.Machine.execXxor s
  | .mac => Sys2Proof.Machine.execMac s
  | .sealCmd => Sys2Proof.Machine.execSeal s
  | .openCmd => Sys2Proof.Machine.execOpen s
  | .xseal => Sys2Proof.Machine.execXseal s
  | .xopen => Sys2Proof.Machine.execXopen s

end Sys2Proof.Machine
end

