-- ==== Sys2Proof/Machine/Engine.lean ====
section
/-!
DEFINITION. One turn of the ENGINE: the completion step of 30_encoding.md rule R98.
-/

namespace Sys2Proof.Machine

/-- The completion of a command word: the selected command, or IllegalCommand for a word that is none of the nine, which reads
no operand register and no DATA byte (R93, R98, 60_exceptions.md rule R266). -/
def completeWord (w : Word) (s : State) : Host.Outcome State Fault Refusal :=
  match decode w with
  | .ok i => exec i s
  | .error _ => .next (s.raiseError .illegalCommand)

/-- One turn of the ENGINE: while PEND holds a word it has one step, the completion; while PEND is empty it has no step and
nothing changes (R98, R279). -/
def engineTurn (s : State) : Host.Outcome State Fault Refusal :=
  match s.pend with
  | some w => completeWord w s
  | none => .next s

end Sys2Proof.Machine
end

