-- ==== Sys2Proof/Machine/HostPort.lean ====
section
/-!
DEFINITION. The HOST's side of the engine: one access performed (10_state.md rules R31 and R32, 20_memory.md rule R65), and one
turn of the HOST under the HOST/ENGINE exclusion (R69).
-/

namespace Sys2Proof.Machine

/-- A read of STATUS, the one access that is not held while BUSY is 1 (R69). -/
def isStatusRead : HostAccess → Bool
  | .regRead offset width => offset == 8 && width == 8
  | .regWrite _ _ _ => false
  | .dataWrite _ _ _ => false
  | .dataRead _ _ => false
  | .bytesWrite _ _ => false
  | .bytesRead _ _ => false

/-- The reply a HOST read returns, recorded. -/
def State.reply (s : State) (r : Reply) : State := { s with replies := r :: s.replies }

/-- `MemWrite(addr, n, B)` by the HOST: refused where a byte of the range is unpopulated (R65). -/
def State.hostStore (s : State) (addr : DWord) (bytes : List Byte) : Host.Outcome State Fault Refusal :=
  if s.validRange addr bytes.length then .next { s with mem := s.mem.writeBytes addr.toNat bytes }
  else .refused .dataAddressNotPopulated

/-- One HOST access, performed (R65 for the DATA space, R31 and R32 for the REG space). -/
def hostPerform (a : HostAccess) (s : State) : Host.Outcome State Fault Refusal :=
  match a with
  | .regWrite offset width v =>
    if regAccessOk offset width then .next (s.regWrite (offset / Config.regSlotBytes) v) else .refused .regAccessWithoutMeaning
  | .regRead offset width =>
    if regAccessOk offset width then .next (s.reply (.reg offset (s.regRead (offset / Config.regSlotBytes))))
    else .refused .regAccessWithoutMeaning
  | .dataWrite addr size v =>
    if dataValueOk size v then s.hostStore addr (ser v.toNat size.bytes) else .refused .dataValueTooWide
  | .dataRead addr size =>
    if s.validRange addr size.bytes then
      .next (s.reply (.data addr (BitVec.ofNat 64 (le (s.mem.readBytes addr.toNat size.bytes)))))
    else .refused .dataAddressNotPopulated
  | .bytesWrite addr bytes => s.hostStore addr bytes
  | .bytesRead addr count =>
    if s.validRange addr count then .next (s.reply (.bytes addr (s.mem.readBytes addr.toNat count)))
    else .refused .dataAddressNotPopulated

/-- The HOST's turn while BUSY is 1: the access it issues next is performed at once if it reads STATUS, and held otherwise
(R69). -/
def hostTurnBusy (s : State) : Host.Outcome State Fault Refusal :=
  match s.script with
  | [] => .next s
  | a :: rest =>
    if isStatusRead a then hostPerform a { s with script := rest }
    else .next { s with script := rest, held := s.held ++ [a] }

/-- The HOST's turn while BUSY is 0: the oldest held access, or else the next one it issues, is performed (R69, R73 (a)). -/
def hostTurnIdle (s : State) : Host.Outcome State Fault Refusal :=
  match s.held with
  | a :: rest => hostPerform a { s with held := rest }
  | [] =>
    match s.script with
    | [] => .next s
    | a :: rest => hostPerform a { s with script := rest }

/-- One turn of the HOST (R69). -/
def hostTurn (s : State) : Host.Outcome State Fault Refusal :=
  if s.status.busy then hostTurnBusy s else hostTurnIdle s

end Sys2Proof.Machine
end

