-- ==== Sys2Proof/Machine/Step.lean ====
section
/-!
DEFINITION. One step of the machine: one turn of one agent (00_scope.md rule R7), and the word a step runs next.
-/

namespace Sys2Proof.Machine

/-- One step: the turn the schedule gives. Where the schedule is used up, the ENGINE moves while a command is pending and the
HOST moves otherwise, so that every command completes and every access is performed (log entry 5). -/
def step (s : State) : Host.Outcome State Fault Refusal :=
  match s.schedule with
  | .engine :: rest => engineTurn { s with schedule := rest }
  | .host :: rest => hostTurn { s with schedule := rest }
  | .reset left :: rest => .next ({ s with schedule := rest }.resetEvent left)
  | [] =>
    match s.pend with
    | some _ => engineTurn s
    | none => hostTurn s

/-- The state in which the next step runs the command word `w`: the word issued as a HOST write to CMD issues it (R97), and the
next turn the ENGINE's (log entry 9). -/
def State.withFetchWord (s : State) (nbits w : Nat) : State :=
  { s.issue (BitVec.ofNat 32 (w % 2 ^ nbits)) with schedule := .engine :: s.schedule }

end Sys2Proof.Machine
end

