-- ==== Sys2Proof/Safety.lean ====
section
/-!
DEFINITION. What counts as a good state and a good outcome, in the terms the claims use: the invariant every step keeps, what a
command's completion leaves as it was, its two ways to end, and what the HOST can see of a state.
-/

namespace Sys2Proof.Machine

/-- The values the fields of STATUS take together: after reset, while a command is pending, after a normal completion, after a
completion with an error kind (10_state.md rule R29, 60_exceptions.md rule R281). -/
inductive LegalStatus : Status → Prop where
  | cleared : LegalStatus .cleared
  | pending : LegalStatus .pending
  | ok : LegalStatus .ok
  | failed (e : ErrorKind) : LegalStatus (.failed e)

/-- The invariant of the machine. -/
structure State.Inv (s : State) : Prop where
  /-- The DATA space is in its canonical form. -/
  memWf : s.mem.wf
  /-- `DATA_POP` is in its canonical form. -/
  popWf : popWf s.pop
  /-- Only populated addresses hold a byte (R61). -/
  cellsPopulated : ∀ c ∈ s.mem.cells, populated s.pop c.1 = true
  /-- PEND holds a word exactly while `STATUS.BUSY = 1` (R33). -/
  busyIffPending : s.status.busy = s.pend.isSome
  /-- STATUS is one of the values rule R281 lists. -/
  statusLegal : LegalStatus s.status
  /-- RES_LEN is 0 unless the latest command completed normally (R30, R37). -/
  resLenZero : s.status ≠ .ok → s.resLen = 0
  /-- A STATUS read is never held (R69). -/
  heldNotStatus : ∀ a ∈ s.held, isStatusRead a = false

/-- Everything but STATUS, RES_LEN, PEND, the DATA space and the internal register files is as it was: CTR and the nine
descriptor registers (R38: "No command writes CTR or a descriptor register"), the populated set, and the HOST's side. -/
structure SameOperands (s t : State) : Prop where
  ctr : t.ctr = s.ctr
  keyAddr : t.keyAddr = s.keyAddr
  keyLen : t.keyLen = s.keyLen
  nonceAddr : t.nonceAddr = s.nonceAddr
  nonceLen : t.nonceLen = s.nonceLen
  aadAddr : t.aadAddr = s.aadAddr
  aadLen : t.aadLen = s.aadLen
  bufAddr : t.bufAddr = s.bufAddr
  bufLen : t.bufLen = s.bufLen
  outAddr : t.outAddr = s.outAddr
  pop : t.pop = s.pop
  held : t.held = s.held
  script : t.script = s.script
  replies : t.replies = s.replies
  schedule : t.schedule = s.schedule

/-- Every DATA byte outside the `n` bytes from `a` reads as before. -/
def SameOutside (s t : State) (a n : Nat) : Prop := ∀ x, (x < a ∨ a + n ≤ x) → t.mem.read x = s.mem.read x

/-- Two DATA ranges with no byte in common: one is empty, or one ends before the other begins. -/
def DisjointRanges (a n b m : Nat) : Prop := n = 0 ∨ m = 0 ∨ a + n ≤ b ∨ b + m ≤ a

/-- A command ended normally from `s`: the bytes at the address and no other DATA byte written, the result length in RES_LEN,
STATUS 0x0002, PEND empty, everything else the HOST can read as it was (30_encoding.md rule R98). -/
def CompletesWith (o : Host.Outcome State Fault Refusal) (s : State) (addr : DWord) (bytes : List Byte) (len : Nat) : Prop :=
  ∃ t, o = .next t ∧ t.mem.readBytes addr.toNat bytes.length = bytes ∧ SameOutside s t addr.toNat bytes.length ∧
    t.resLen.toNat = len ∧ t.status = ⟨false, true, false, 0⟩ ∧ t.pend = none ∧ SameOperands s t

/-- A command ended from `s` with an error kind of the given code: no DATA byte written, RES_LEN 0, STATUS with DONE, ERR and the
code, PEND empty, everything else the HOST can read as it was (R98, R269). -/
def FailsWith (o : Host.Outcome State Fault Refusal) (s : State) (code : Byte) : Prop :=
  ∃ t, o = .next t ∧ t.mem = s.mem ∧ t.resLen = 0 ∧ t.status = ⟨false, true, true, code⟩ ∧ t.pend = none ∧ SameOperands s t

/-- What of a state is not hidden from the HOST: all of it but the internal register files (R35). -/
def State.visible (s : State) : State := { s with hidden := Hidden.zero }

/-- Two outcomes the HOST cannot tell apart. -/
inductive SameToHost : Host.Outcome State Fault Refusal → Host.Outcome State Fault Refusal → Prop where
  | next (s t : State) (h : s.visible = t.visible) : SameToHost (.next s) (.next t)
  | fault (r : Fault) : SameToHost (.fault r) (.fault r)
  | refused (r : Refusal) : SameToHost (.refused r) (.refused r)

/-- The range a command writes when it ends normally (R38). -/
def writtenRange (i : Instr) (s : State) : DWord × Nat :=
  match i with
  | .block => (s.outAddr, 64)
  | .xor => (s.bufAddr, s.bufLen.toNat)
  | .derive => (s.outAddr, 44)
  | .xxor => (s.bufAddr, s.bufLen.toNat)
  | .mac => (s.outAddr, 16)
  | .sealCmd => (s.bufAddr, s.bufLen.toNat + 16)
  | .openCmd => (s.bufAddr, s.bufLen.toNat - 16)
  | .xseal => (s.bufAddr, s.bufLen.toNat + 16)
  | .xopen => (s.bufAddr, s.bufLen.toNat - 16)

end Sys2Proof.Machine
end

