-- ==== Sys2Proof/Certificates/Slice0/Obligations.lean ====
section
/-!
DEFINITION. The statements for the provers, in the order of spec/: encoding, issue and completion, the HOST's side, reset, the
DATA space, the Word-Matrix Core, the stream engine, the XChaCha20 extension, the Poly1305 unit, the AEAD composer, errors, and
the rules about the whole machine. Each docstring names the rule its statement formalises.
-/

open Sys2Proof Sys2Proof.Machine

/-! ### Encoding (30_encoding.md) -/

/-- R91, R93: a word decodes to a command exactly when it equals the command's row of the opcode map, so the words that decode are
exactly 0x00000001 to 0x00000009, and encoding a command and decoding it gives it back. -/
def Obligations.ExactlyNineWordsAreCommands : Prop :=
  encode .block = 0x00000001 ∧ encode .xor = 0x00000002 ∧ encode .derive = 0x00000003 ∧ encode .xxor = 0x00000004 ∧
  encode .mac = 0x00000005 ∧ encode .sealCmd = 0x00000006 ∧ encode .openCmd = 0x00000007 ∧ encode .xseal = 0x00000008 ∧
  encode .xopen = 0x00000009 ∧
  (∀ (w : Word) (i : Instr), decode w = .ok i ↔ w = encode i) ∧
  (∀ w : Word, (∃ i, decode w = .ok i) ↔ 1 ≤ w.toNat ∧ w.toNat ≤ 9)

/-- R91: the words of the opcode map, written out bit by bit from format C, decode to the commands they stand for. -/
def Obligations.WordsOfTheOpcodeMapDecode : Prop :=
  decode 0b00000000000000000000000000000001 = .ok .block ∧
  decode 0b00000000000000000000000000000010 = .ok .xor ∧
  decode 0b00000000000000000000000000000011 = .ok .derive ∧
  decode 0b00000000000000000000000000000100 = .ok .xxor ∧
  decode 0b00000000000000000000000000000101 = .ok .mac ∧
  decode 0b00000000000000000000000000000110 = .ok .sealCmd ∧
  decode 0b00000000000000000000000000000111 = .ok .openCmd ∧
  decode 0b00000000000000000000000000001000 = .ok .xseal ∧
  decode 0b00000000000000000000000000001001 = .ok .xopen

/-! ### Issue and completion -/

/-- R98: while PEND holds a legal command word, the ENGINE's step is that command, evaluated on the state as it is now. The
schedule's turn is used up by the step (log entry 5). -/
def Obligations.StepRunsThePendingCommand : Prop :=
  ∀ (s : State) (w : Word) (i : Instr), s.pend = some w → decode w = .ok i →
    (s.schedule = [] → step s = exec i s) ∧
    (∀ rest, s.schedule = .engine :: rest → step s = exec i { s with schedule := rest })

/-- R93, R266: an illegal word completes with IllegalCommand, code 6, whatever the operand registers and the DATA space hold, and
changes nothing but STATUS, RES_LEN and PEND. -/
def Obligations.IllegalWordCompletesWithIllegalCommand : Prop :=
  ∀ (s : State) (w : Word), s.pend = some w → (w.toNat = 0 ∨ 10 ≤ w.toNat) →
    engineTurn s = .next { s with resLen := 0, status := ⟨false, true, true, 6⟩, pend := none }

/-- R97: a HOST write to CMD while BUSY is 0 issues the low 32 bits of the value; nothing else changes. -/
def Obligations.WriteToCmdIssues : Prop :=
  ∀ (s : State) (v : DWord) (rest : List HostAccess), s.status.busy = false → s.held = [] →
    s.script = .regWrite 0x00 8 v :: rest →
    hostTurn s =
      .next { s with script := rest, pend := some (v.setWidth 32), status := ⟨true, false, false, 0⟩, resLen := 0 }

/-- R98, R272: every command completes from every state: PEND empty, BUSY 0, DONE 1, and either no error or one of the seven
kinds with RES_LEN 0. -/
def Obligations.EveryCommandCompletes : Prop :=
  ∀ (i : Instr) (s : State), ∃ t, exec i s = .next t ∧ t.pend = none ∧
    (t.status = ⟨false, true, false, 0⟩ ∨
      (∃ e : ErrorKind, t.status = ⟨false, true, true, e.code⟩ ∧ t.resLen = 0))

/-- R99, R34: what a command writes to the DATA space, STATUS and RES_LEN is a function of the operand registers and the DATA
bytes alone (the populated set included): not of the internal register files, of the last command's STATUS or RES_LEN, or of
anything else. -/
def Obligations.ResultDependsOnOperandsAndDataOnly : Prop :=
  ∀ (i : Instr) (s u : State),
    s.ctr = u.ctr → s.keyAddr = u.keyAddr → s.keyLen = u.keyLen → s.nonceAddr = u.nonceAddr → s.nonceLen = u.nonceLen →
    s.aadAddr = u.aadAddr → s.aadLen = u.aadLen → s.bufAddr = u.bufAddr → s.bufLen = u.bufLen → s.outAddr = u.outAddr →
    s.mem = u.mem → s.pop = u.pop →
    ∃ t v, exec i s = .next t ∧ exec i u = .next v ∧ t.mem = v.mem ∧ t.status = v.status ∧ t.resLen = v.resLen

/-! ### The HOST's side (10_state.md, 20_memory.md) -/

/-- R69: while BUSY is 1 an access that is not a read of STATUS is held: it moves to the held accesses and has no other effect.
(That the held accesses form a queue is the model's, log entry 7.) -/
def Obligations.BusyHoldsEveryOtherAccess : Prop :=
  ∀ (s : State) (a : HostAccess) (rest : List HostAccess), s.status.busy = true → s.script = a :: rest →
    a ≠ .regRead 0x08 8 → hostTurn s = .next { s with script := rest, held := s.held ++ [a] }

/-- R69: a read of STATUS while BUSY is 1 is performed at once and returns 0x0001, whatever is held. -/
def Obligations.StatusReadWhileBusyReturnsBusy : Prop :=
  ∀ (s : State) (rest : List HostAccess), s.Inv → s.status.busy = true → s.script = .regRead 0x08 8 :: rest →
    hostTurn s = .next { s with script := rest, replies := .reg 0x08 0x0001 :: s.replies }

/-- R69, R73 (a): once BUSY is 0 the oldest held access is performed, as if issued at that moment, before anything else the HOST
issues. (The order among held accesses is the model's, log entry 7.) -/
def Obligations.HeldAccessIsPerformedFirst : Prop :=
  ∀ (s : State) (a : HostAccess) (rest : List HostAccess), s.status.busy = false → s.held = a :: rest →
    hostTurn s = hostPerform a { s with held := rest }

/-- R306: a register write issued while a command is pending applies to the next command: the HOST's turn, the ENGINE's and the
HOST's again run the pending command on the old registers and only then write the register. -/
def Obligations.RegisterWriteWhileBusyAppliesAfterCompletion : Prop :=
  ∀ (s : State) (i : Instr) (w : Word) (slot : Nat) (v : DWord) (rest : List HostAccess) (turns : List Turn),
    s.status.busy = true → s.pend = some w → decode w = .ok i → s.held = [] → 1 ≤ slot → slot < 16 →
    s.script = .regWrite (8 * slot) 8 v :: rest → s.schedule = .host :: .engine :: .host :: turns →
    ∃ t, exec i { s with script := rest, held := [.regWrite (8 * slot) 8 v], schedule := .host :: turns } = .next t ∧
      Sys2Proof.core.run 3 s = .next ({ t with held := [], schedule := turns }.regWrite slot v)

/-- R28, R31: what a read of slot `n` returns after a write to it: the value for the nine descriptor registers, its low 32 bits
for CTR, 0 for CMD and the reserved slots, the old value for STATUS and RES_LEN; a write to any slot but CMD leaves what every
other slot reads as. -/
def Obligations.RegisterSlotsReadBack : Prop :=
  ∀ (s : State) (slot : Nat) (v : DWord), slot < 16 →
    (4 ≤ slot → slot ≤ 12 → (s.regWrite slot v).regRead slot = v) ∧
    ((s.regWrite 3 v).regRead 3 = v &&& 0xFFFFFFFF) ∧
    (slot = 0 ∨ 13 ≤ slot → (s.regWrite slot v).regRead slot = 0) ∧
    (slot = 1 ∨ slot = 2 ∨ 13 ≤ slot → s.regWrite slot v = s) ∧
    (slot ≠ 0 → ∀ other, other < 16 → other ≠ slot → (s.regWrite slot v).regRead other = s.regRead other)

/-- R32: a REG access that is not an aligned 8-byte access below offset 128 has no meaning and is refused; every other one is
performed on the slot at its offset. -/
def Obligations.RegAccessesAreAlignedEightByteOnly : Prop :=
  ∀ (s : State) (offset width : Nat) (v : DWord),
    (¬ (offset % 8 = 0 ∧ offset < 128 ∧ width = 8) →
      hostPerform (.regWrite offset width v) s = .refused .regAccessWithoutMeaning ∧
      hostPerform (.regRead offset width) s = .refused .regAccessWithoutMeaning) ∧
    (offset % 8 = 0 → offset < 128 → width = 8 →
      hostPerform (.regWrite offset width v) s = .next (s.regWrite (offset / 8) v) ∧
      hostPerform (.regRead offset width) s =
        .next { s with replies := .reg offset (s.regRead (offset / 8)) :: s.replies })

/-- R65: a HOST write of `n` bytes is exactly `MemWrite(a, n, ser(v, n))`, at any address, and reading the same bytes back returns
the value. -/
def Obligations.HostWriteThenReadReturnsTheValue : Prop :=
  ∀ (s : State) (addr : DWord) (size : DataSize) (v : DWord), s.mem.wf → v.toNat < 2 ^ (8 * size.bytes) →
    s.validRange addr size.bytes = true →
    hostPerform (.dataWrite addr size v) s = hostPerform (.bytesWrite addr (ser v.toNat size.bytes)) s ∧
    ∃ t, hostPerform (.dataWrite addr size v) s = .next t ∧ t.mem.readBytes addr.toNat size.bytes = ser v.toNat size.bytes ∧
      SameOutside s t addr.toNat size.bytes ∧
      hostPerform (.dataRead addr size) t = .next { t with replies := .data addr v :: t.replies }

/-- R65, 93_implementation_defined.md U7: a HOST access that touches an unpopulated byte, or runs past the top of the DATA space,
is refused. -/
def Obligations.HostAccessToUnpopulatedByteIsRefused : Prop :=
  ∀ (s : State) (addr : DWord) (size : DataSize) (v : DWord), popWf s.pop → v.toNat < 2 ^ (8 * size.bytes) →
    (∃ k, k < size.bytes ∧ populated s.pop (addr.toNat + k) = false) →
    hostPerform (.dataRead addr size) s = .refused .dataAddressNotPopulated ∧
    hostPerform (.dataWrite addr size v) s = .refused .dataAddressNotPopulated

/-! ### Reset (70_reset_and_hazards.md) -/

/-- R37: the values the spec gives the registers after reset. (The internal register files, the DATA bytes and the populated set
have the values of log entries 1, 2 and 3, and are not part of this statement.) -/
def Obligations.ResetGivesTheStatedValues : Prop :=
  State.reset.status.word = 0 ∧ State.reset.resLen = 0 ∧ State.reset.ctr = 0 ∧ State.reset.keyAddr = 0 ∧
  State.reset.keyLen = 0 ∧ State.reset.nonceAddr = 0 ∧ State.reset.nonceLen = 0 ∧ State.reset.aadAddr = 0 ∧
  State.reset.aadLen = 0 ∧ State.reset.bufAddr = 0 ∧ State.reset.bufLen = 0 ∧ State.reset.outAddr = 0 ∧
  State.reset.pend = none

/-- R300: the reset event, at any time: a pending command is abandoned, every register is 0, every held access is dropped, the
DATA space is not changed; the internal register files hold whatever the event leaves. (The model's own: the HOST's accesses not yet
issued stay, log entry 7; an access whose hold has lifted but whose turn has not come is dropped, log entry 22.) -/
def Obligations.ResetEventAbandonsThePendingCommand : Prop :=
  ∀ (s : State) (left : Hidden) (turns : List Turn), s.schedule = .reset left :: turns →
    ∃ t, step s = .next t ∧ t.pend = none ∧ t.status.word = 0 ∧ t.resLen = 0 ∧ t.ctr = 0 ∧ t.keyAddr = 0 ∧ t.keyLen = 0 ∧
      t.nonceAddr = 0 ∧ t.nonceLen = 0 ∧ t.aadAddr = 0 ∧ t.aadLen = 0 ∧ t.bufAddr = 0 ∧ t.bufLen = 0 ∧ t.outAddr = 0 ∧
      t.held = [] ∧ t.mem = s.mem ∧ t.pop = s.pop ∧ t.hidden = left ∧ t.script = s.script ∧ t.replies = s.replies ∧
      t.schedule = turns ∧ (engineTurn t = .next t)

/-- R301: a command issued with nothing set up fails cleanly: after reset each of the nine reports InvalidKeyLength. -/
def Obligations.EveryCommandFromResetReportsInvalidKeyLength : Prop :=
  ∀ (i : Instr) (w : Word), decode w = .ok i →
    ∃ t, step (State.reset.withFetchWord 32 w.toNat) = .next t ∧ t.status.word = 0x0106 ∧ t.resLen = 0 ∧
      t.mem = State.reset.mem

/-! ### The DATA space (20_memory.md) -/

/-- R62: a range is valid when it is empty, or when it does not run past 2^64 and every address of it is populated. -/
def Obligations.RangeCheckMeansEveryAddressIsPopulated : Prop :=
  ∀ (s : State) (a : DWord) (n : Nat), popWf s.pop →
    (s.validRange a n = true ↔
      n = 0 ∨ (a.toNat + n ≤ 2 ^ 64 ∧ ∀ k, k < n → populated s.pop (a.toNat + k) = true))

/-! ### The Word-Matrix Core (40_block_function.md) -/

/-- R122: the quarter-round is the twelve operations, in order, each reading what the ones before it wrote; in place on four
distinct words of the matrix it changes those four and no other. -/
def Obligations.QuarterRoundIsTheTwelveOperations : Prop :=
  (∀ a b c d : Word,
    quarterRound (a, b, c, d) =
      (let a1 := a + b
       let d1 := (d ^^^ a1).rotateLeft 16
       let c1 := c + d1
       let b1 := (b ^^^ c1).rotateLeft 12
       let a2 := a1 + b1
       let d2 := (d1 ^^^ a2).rotateLeft 8
       let c2 := c1 + d2
       let b2 := (b1 ^^^ c2).rotateLeft 7
       (a2, b2, c2, d2))) ∧
  (∀ (p q r t : Fin 16) (m : StateMatrix), [p, q, r, t].Nodup →
    ((qrx p q r t m)[p], (qrx p q r t m)[q], (qrx p q r t m)[r], (qrx p q r t m)[t]) =
      quarterRound (m[p], m[q], m[r], m[t]) ∧
    ∀ i : Fin 16, i ∉ [p, q, r, t] → (qrx p q r t m)[i] = m[i])

/-- R124: QR is a bijection on four-word tuples, and COLROUND, DIAGROUND, DROUND and PERMUTE are bijections on the matrix. -/
def Obligations.RoundsAreBijections : Prop :=
  Function.Bijective quarterRound ∧ Function.Bijective colRound ∧ Function.Bijective diagRound ∧
  Function.Bijective doubleRound ∧ Function.Bijective permute

/-- R127: the four QRX of a round may be performed in any order. -/
def Obligations.LanesMayRunInAnyOrder : Prop :=
  (∀ lanes : List (StateMatrix → StateMatrix),
    lanes.Perm [qrx 0 4 8 12, qrx 1 5 9 13, qrx 2 6 10 14, qrx 3 7 11 15] →
    ∀ m, lanes.foldl (fun x lane => lane x) m = colRound m) ∧
  (∀ lanes : List (StateMatrix → StateMatrix),
    lanes.Perm [qrx 0 5 10 15, qrx 1 6 11 12, qrx 2 7 8 13, qrx 3 4 9 14] →
    ∀ m, lanes.foldl (fun x lane => lane x) m = diagRound m)

/-- R130: the serialised block has 64 bytes, and its byte `4i + k` is bits `8k + 7` to `8k` of word `i`. -/
def Obligations.SerializedByteIsAByteOfItsWord : Prop :=
  ∀ x : StateMatrix, (serialize x).length = 64 ∧
    ∀ (i : Fin 16) (k : Nat), k < 4 → (serialize x)[4 * i.val + k]? = some (x[i].extractLsb' (8 * k) 8)

/-- R131: the command BLOCK: its errors in order, and the keystream block at OUT_ADDR from the key and nonce bytes as they are at
the start, overlap or not. -/
def Obligations.BlockWritesTheKeystreamBlock : Prop :=
  ∀ s : State, s.mem.wf →
    (s.keyLen ≠ 32 → FailsWith (exec .block s) s 1) ∧
    (s.keyLen = 32 → s.nonceLen ≠ 12 → FailsWith (exec .block s) s 2) ∧
    (s.keyLen = 32 → s.nonceLen = 12 →
      ¬ (s.validRange s.keyAddr 32 = true ∧ s.validRange s.nonceAddr 12 = true ∧ s.validRange s.outAddr 64 = true) →
      FailsWith (exec .block s) s 7) ∧
    (s.keyLen = 32 → s.nonceLen = 12 →
      s.validRange s.keyAddr 32 = true → s.validRange s.nonceAddr 12 = true → s.validRange s.outAddr 64 = true →
      CompletesWith (exec .block s) s s.outAddr
        (chaCha20Block (s.mem.readBytes s.keyAddr.toNat 32) (s.mem.readBytes s.nonceAddr.toNat 12) s.ctr) 64)

/-! ### The ChaCha20 Stream Engine (41_stream_engine.md) -/

/-- R151: when the overflow condition does not hold, no chunk's counter wraps: chunk `j` uses `initial_counter + j` exactly. -/
def Obligations.ChunkCountersDoNotWrap : Prop :=
  ∀ (ctr : Word) (n : Nat),
    (counterOverflow ctr n = true ↔ 1 ≤ (n + 63) / 64 ∧ ctr.toNat + (n + 63) / 64 - 1 > 2 ^ 32 - 1) ∧
    (counterOverflow ctr n = false → ∀ j, j < (n + 63) / 64 → (ctr + BitVec.ofNat 32 j).toNat = ctr.toNat + j)

/-- R152: byte `p` of `XorStream` is `buf[p] xor KS_(p div 64)[p mod 64]`, and the output is as long as the buffer. -/
def Obligations.StreamByteUsesItsOwnKeystreamByte : Prop :=
  ∀ (key nonce : List Byte) (ctr : Word) (buf : List Byte),
    (xorStream key nonce ctr buf).length = buf.length ∧
    ∀ p, p < buf.length →
      (xorStream key nonce ctr buf)[p]? =
        some (buf.getD p 0 ^^^ (chaCha20Block key nonce (ctr + BitVec.ofNat 32 (p / 64))).getD (p % 64) 0)

/-- R154: XorStream is its own inverse, gives the keystream on zeros, and on 64 zeros the block BLOCK gives. -/
def Obligations.StreamIsItsOwnInverse : Prop :=
  ∀ (key nonce : List Byte) (ctr : Word),
    (∀ buf, xorStream key nonce ctr (xorStream key nonce ctr buf) = buf) ∧
    (∀ n p, p < n → (xorStream key nonce ctr (zeros n))[p]? =
      (chaCha20Block key nonce (ctr + BitVec.ofNat 32 (p / 64)))[p % 64]?) ∧
    xorStream key nonce ctr (zeros 64) = chaCha20Block key nonce ctr

/-- R153: the command XOR: its errors in order, and the buffer transformed in place. -/
def Obligations.XorTransformsTheBufferInPlace : Prop :=
  ∀ s : State, s.mem.wf →
    (s.keyLen ≠ 32 → FailsWith (exec .xor s) s 1) ∧
    (s.keyLen = 32 → s.nonceLen ≠ 12 → FailsWith (exec .xor s) s 2) ∧
    (s.keyLen = 32 → s.nonceLen = 12 →
      1 ≤ (s.bufLen.toNat + 63) / 64 ∧ s.ctr.toNat + (s.bufLen.toNat + 63) / 64 - 1 > 2 ^ 32 - 1 →
      FailsWith (exec .xor s) s 4) ∧
    (s.keyLen = 32 → s.nonceLen = 12 →
      ¬ (1 ≤ (s.bufLen.toNat + 63) / 64 ∧ s.ctr.toNat + (s.bufLen.toNat + 63) / 64 - 1 > 2 ^ 32 - 1) →
      ¬ (s.validRange s.keyAddr 32 = true ∧ s.validRange s.nonceAddr 12 = true ∧
          s.validRange s.bufAddr s.bufLen.toNat = true) →
      FailsWith (exec .xor s) s 7) ∧
    (s.keyLen = 32 → s.nonceLen = 12 →
      ¬ (1 ≤ (s.bufLen.toNat + 63) / 64 ∧ s.ctr.toNat + (s.bufLen.toNat + 63) / 64 - 1 > 2 ^ 32 - 1) →
      s.validRange s.keyAddr 32 = true → s.validRange s.nonceAddr 12 = true →
      s.validRange s.bufAddr s.bufLen.toNat = true →
      CompletesWith (exec .xor s) s s.bufAddr
        (xorStream (s.mem.readBytes s.keyAddr.toNat 32) (s.mem.readBytes s.nonceAddr.toNat 12) s.ctr
          (s.mem.readBytes s.bufAddr.toNat s.bufLen.toNat)) s.bufLen.toNat)

/-! ### The XChaCha20 Extension (42_xchacha.md) -/

/-- R172: the subnonce is four zero bytes and the last 8 nonce bytes, and in the matrix of the stream that follows it gives
`X[13] = 0`, `X[14] = le(nonce24[16..20))`, `X[15] = le(nonce24[20..24))`. -/
def Obligations.SubnonceWordsInTheMatrix : Prop :=
  ∀ (key nonce24 : List Byte) (ctr : Word), nonce24.length = 24 →
    subNonce nonce24 = [0, 0, 0, 0] ++ nonce24.drop 16 ∧ (subNonce nonce24).length = 12 ∧
    (initMatrix key (subNonce nonce24) ctr)[13] = 0 ∧
    (initMatrix key (subNonce nonce24) ctr)[14].toNat = le (slice nonce24 16 20) ∧
    (initMatrix key (subNonce nonce24) ctr)[15].toNat = le (slice nonce24 20 24)

/-- R171, its corner case: with an all-zero input the last 16 subkey bytes are the last 16 bytes of the block for nonce and
counter 0, whose feed-forward adds 0 to those words. -/
def Obligations.ZeroInputSubkeyEndsAsTheBlockDoes : Prop :=
  ∀ key : List Byte, (hChaCha20 key (zeros 16)).drop 16 = (chaCha20Block key (zeros 12) 0).drop 48

/-- R174: the command DERIVE: its errors in order, and the subkey and subnonce at OUT_ADDR. -/
def Obligations.DeriveWritesSubkeyAndSubnonce : Prop :=
  ∀ s : State, s.mem.wf →
    (s.keyLen ≠ 32 → FailsWith (exec .derive s) s 1) ∧
    (s.keyLen = 32 → s.nonceLen ≠ 24 → FailsWith (exec .derive s) s 2) ∧
    (s.keyLen = 32 → s.nonceLen = 24 →
      ¬ (s.validRange s.keyAddr 32 = true ∧ s.validRange s.nonceAddr 24 = true ∧ s.validRange s.outAddr 44 = true) →
      FailsWith (exec .derive s) s 7) ∧
    (s.keyLen = 32 → s.nonceLen = 24 →
      s.validRange s.keyAddr 32 = true → s.validRange s.nonceAddr 24 = true → s.validRange s.outAddr 44 = true →
      CompletesWith (exec .derive s) s s.outAddr
        ((derive (s.mem.readBytes s.keyAddr.toNat 32) (s.mem.readBytes s.nonceAddr.toNat 24)).1 ++
         (derive (s.mem.readBytes s.keyAddr.toNat 32) (s.mem.readBytes s.nonceAddr.toNat 24)).2) 44)

/-- R175: the command XXOR: its errors in order, and the buffer transformed in place under the derived subkey and subnonce. -/
def Obligations.XxorTransformsTheBufferUnderTheSubkey : Prop :=
  ∀ s : State, s.mem.wf →
    (s.keyLen ≠ 32 → FailsWith (exec .xxor s) s 1) ∧
    (s.keyLen = 32 → s.nonceLen ≠ 24 → FailsWith (exec .xxor s) s 2) ∧
    (s.keyLen = 32 → s.nonceLen = 24 →
      1 ≤ (s.bufLen.toNat + 63) / 64 ∧ s.ctr.toNat + (s.bufLen.toNat + 63) / 64 - 1 > 2 ^ 32 - 1 →
      FailsWith (exec .xxor s) s 4) ∧
    (s.keyLen = 32 → s.nonceLen = 24 →
      ¬ (1 ≤ (s.bufLen.toNat + 63) / 64 ∧ s.ctr.toNat + (s.bufLen.toNat + 63) / 64 - 1 > 2 ^ 32 - 1) →
      ¬ (s.validRange s.keyAddr 32 = true ∧ s.validRange s.nonceAddr 24 = true ∧
          s.validRange s.bufAddr s.bufLen.toNat = true) →
      FailsWith (exec .xxor s) s 7) ∧
    (s.keyLen = 32 → s.nonceLen = 24 →
      ¬ (1 ≤ (s.bufLen.toNat + 63) / 64 ∧ s.ctr.toNat + (s.bufLen.toNat + 63) / 64 - 1 > 2 ^ 32 - 1) →
      s.validRange s.keyAddr 32 = true → s.validRange s.nonceAddr 24 = true →
      s.validRange s.bufAddr s.bufLen.toNat = true →
      CompletesWith (exec .xxor s) s s.bufAddr
        (xorStream (derive (s.mem.readBytes s.keyAddr.toNat 32) (s.mem.readBytes s.nonceAddr.toNat 24)).1
          (derive (s.mem.readBytes s.keyAddr.toNat 32) (s.mem.readBytes s.nonceAddr.toNat 24)).2 s.ctr
          (s.mem.readBytes s.bufAddr.toNat s.bufLen.toNat)) s.bufLen.toNat)

/-- R175, its equivalence: the buffer after XXOR equals the buffer after DERIVE followed by XOR with KEY pointing at the 32 derived
subkey bytes and NONCE at the 12 derived subnonce bytes, where the 44 derived bytes lie outside the buffer. -/
def Obligations.XxorEqualsDeriveThenXor : Prop :=
  ∀ s t u v : State, s.mem.wf → s.outAddr.toNat + 44 ≤ 2 ^ 64 →
    DisjointRanges s.outAddr.toNat 44 s.bufAddr.toNat s.bufLen.toNat →
    exec .xxor s = .next t → t.status = ⟨false, true, false, 0⟩ →
    exec .derive s = .next u → u.status = ⟨false, true, false, 0⟩ →
    exec .xor { u with keyAddr := s.outAddr, keyLen := 32, nonceAddr := s.outAddr + 32, nonceLen := 12 } = .next v →
    v.status = ⟨false, true, false, 0⟩ ∧
    v.mem.readBytes s.bufAddr.toNat s.bufLen.toNat = t.mem.readBytes s.bufAddr.toNat s.bufLen.toNat

/-! ### The Poly1305 Accumulator (43_poly1305.md) -/

/-- R191: clamping byte by byte and masking the integer are the same, the clamped `r` is below 2^124, and `s` is not clamped. -/
def Obligations.ClampOnBytesIsTheMask : Prop :=
  ∀ otk : List Byte, otk.length = 32 →
    clampedR otk = le (otk.take 16) &&& 0x0ffffffc0ffffffc0ffffffc0fffffff ∧
    clampedR otk =
      le ((otk.take 16).mapIdx fun i b =>
        if i = 3 ∨ i = 7 ∨ i = 11 ∨ i = 15 then b &&& 0x0f
        else if i = 4 ∨ i = 8 ∨ i = 12 then b &&& 0xfc else b) ∧
    clampedR otk < 2 ^ 124 ∧ padS otk = le (otk.drop 16)

/-- R192: a block's integer is the 17-byte little-endian integer with the set bit directly after its last byte. -/
def Obligations.BlockIntegerHasOneBitAfterItsBytes : Prop :=
  ∀ blk : List Byte, 1 ≤ blk.length → blk.length ≤ 16 →
    blockInt blk = le blk + 2 ^ (8 * blk.length) ∧ blockInt blk = le (blk ++ [1] ++ zeros (16 - blk.length)) ∧
    2 ^ (8 * blk.length) ≤ blockInt blk ∧ blockInt blk < 2 ^ (8 * blk.length + 1)

/-- R195, its corner cases: an empty message, and an `r` that clamps to 0, give the key half `s` as the tag. -/
def Obligations.TagIsPadWhenNothingIsAccumulated : Prop :=
  ∀ otk msg : List Byte, otk.length = 32 → (msg = [] ∨ clampedR otk = 0) → poly1305Mac otk msg = otk.drop 16

/-- R197: the loaded limbs are the five 26-bit digits of the clamped `r`, within the bounds the rule gives. -/
def Obligations.LoadedLimbsAreTheDigitsOfR : Prop :=
  ∀ otk : List Byte, otk.length = 32 →
    (loadR otk).l0.toNat = clampedR otk % 2 ^ 26 ∧
    (loadR otk).l1.toNat = clampedR otk / 2 ^ 26 % 2 ^ 26 ∧
    (loadR otk).l2.toNat = clampedR otk / 2 ^ 52 % 2 ^ 26 ∧
    (loadR otk).l3.toNat = clampedR otk / 2 ^ 78 % 2 ^ 26 ∧
    (loadR otk).l4.toNat = clampedR otk / 2 ^ 104 ∧
    (loadR otk).l0.toNat ≤ 0x3ffffff ∧ (loadR otk).l1.toNat ≤ 0x3ffff03 ∧ (loadR otk).l2.toNat ≤ 0x3ffc0ff ∧
    (loadR otk).l3.toNat ≤ 0x3f03fff ∧ (loadR otk).l4.toNat ≤ 0x00fffff

/-- R202, with the invariant of R203: from limbs within the bounds between blocks, a block step of the limb datapath is
`((h + n) × r) mod P1305` up to congruence, and its limbs are within the bounds again. -/
def Obligations.LimbBlockStepAbsorbsModuloP : Prop :=
  ∀ (p : Poly1305Accumulator) (blk : List Byte),
    p.h.l0.toNat ≤ 2 ^ 26 - 1 → p.h.l1.toNat ≤ 0x4000025 → p.h.l2.toNat ≤ 2 ^ 26 - 1 → p.h.l3.toNat ≤ 2 ^ 26 - 1 →
    p.h.l4.toNat ≤ 2 ^ 26 - 1 →
    p.r.l0.toNat ≤ 0x3ffffff → p.r.l1.toNat ≤ 0x3ffff03 → p.r.l2.toNat ≤ 0x3ffc0ff → p.r.l3.toNat ≤ 0x3f03fff →
    p.r.l4.toNat ≤ 0x00fffff → p.s5 = scaleR p.r → 1 ≤ blk.length → blk.length ≤ 16 →
    (p.blockStep blk).h.val % p1305 = ((p.h.val + blockInt blk) * p.r.val) % p1305 ∧
    (p.blockStep blk).h.l0.toNat ≤ 2 ^ 26 - 1 ∧ (p.blockStep blk).h.l1.toNat ≤ 0x4000025 ∧
    (p.blockStep blk).h.l2.toNat ≤ 2 ^ 26 - 1 ∧ (p.blockStep blk).h.l3.toNat ≤ 2 ^ 26 - 1 ∧
    (p.blockStep blk).h.l4.toNat ≤ 2 ^ 26 - 1

/-- R204, R205: from limbs within the bounds between blocks, the final carry leaves digits below 2^26, and the masked conditional
subtraction leaves the canonical residue. -/
def Obligations.FinalLimbsAreTheCanonicalResidue : Prop :=
  ∀ h : Limbs 32,
    h.l0.toNat ≤ 2 ^ 26 - 1 → h.l1.toNat ≤ 0x4000025 → h.l2.toNat ≤ 2 ^ 26 - 1 → h.l3.toNat ≤ 2 ^ 26 - 1 →
    h.l4.toNat ≤ 2 ^ 26 - 1 →
    (finalCarry h).l0.toNat ≤ 2 ^ 26 - 1 ∧ (finalCarry h).l1.toNat ≤ 2 ^ 26 - 1 ∧ (finalCarry h).l2.toNat ≤ 2 ^ 26 - 1 ∧
    (finalCarry h).l3.toNat ≤ 2 ^ 26 - 1 ∧ (finalCarry h).l4.toNat ≤ 2 ^ 26 - 1 ∧
    (conditionalSubtract (finalCarry h)).val = h.val % p1305

/-- R206, R207: repacking digits below 2^26 and adding `s` gives `(val(H) + s) mod 2^128`, serialised little-endian. -/
def Obligations.RepackedLimbsPlusPadGiveTheTag : Prop :=
  ∀ (h : Limbs 32) (pad : FourWords),
    h.l0.toNat < 2 ^ 26 → h.l1.toNat < 2 ^ 26 → h.l2.toNat < 2 ^ 26 → h.l3.toNat < 2 ^ 26 → h.l4.toNat < 2 ^ 26 →
    (addPad (repack h) pad).serialize =
      ser ((h.val + (pad.p0.toNat + pad.p1.toNat * 2 ^ 32 + pad.p2.toNat * 2 ^ 64 + pad.p3.toNat * 2 ^ 96)) % 2 ^ 128) 16

/-- R209: the limb datapath and the value level give the same tag for every key of 32 bytes and every message, whatever the
registers held before. -/
def Obligations.LimbDatapathComputesPoly1305 : Prop :=
  ∀ (p : Poly1305Accumulator) (otk msg : List Byte), otk.length = 32 →
    (p.runMac otk msg).tagx.toList = poly1305Mac otk msg

/-- R210: the command MAC: its errors in order, and the tag at OUT_ADDR. -/
def Obligations.MacWritesTheTag : Prop :=
  ∀ s : State, s.mem.wf →
    (s.keyLen ≠ 32 → FailsWith (exec .mac s) s 1) ∧
    (s.keyLen = 32 →
      ¬ (s.validRange s.keyAddr 32 = true ∧ s.validRange s.bufAddr s.bufLen.toNat = true ∧
          s.validRange s.outAddr 16 = true) → FailsWith (exec .mac s) s 7) ∧
    (s.keyLen = 32 → s.validRange s.keyAddr 32 = true → s.validRange s.bufAddr s.bufLen.toNat = true →
      s.validRange s.outAddr 16 = true →
      CompletesWith (exec .mac s) s s.outAddr
        (poly1305Mac (s.mem.readBytes s.keyAddr.toNat 32) (s.mem.readBytes s.bufAddr.toNat s.bufLen.toNat)) 16)

/-! ### The AEAD Composer (44_aead.md) -/

/-- R233: the MAC input is a whole number of 16-byte blocks and ends in the length block; with nothing to authenticate it is the
16 zero bytes of the two length fields. -/
def Obligations.MacInputIsWholeBlocks : Prop :=
  (∀ aad ct : List Byte, (macInput aad ct).length % 16 = 0 ∧
    (macInput aad ct).drop ((macInput aad ct).length - 16) = ser aad.length 8 ++ ser ct.length 8) ∧
  macInput [] [] = zeros 16

/-- R236: the tag comparison is true exactly when the two sequences of 16 bytes are equal. -/
def Obligations.TagComparisonIsEquality : Prop :=
  ∀ a b : List Byte, a.length = 16 → b.length = 16 → (tagEqual a b = true ↔ a = b)

/-- R237: within the AEAD length limit the stream engine's own overflow check never fires from counter 1. -/
def Obligations.AeadLimitKeepsTheCounterInRange : Prop :=
  aeadMaxBytes = 274877906816 ∧ ∀ n, n ≤ 274877906816 → counterOverflow 1 n = false

/-- R242 (a): opening what was sealed gives back the plaintext, for every key, nonce, associated data and plaintext. -/
def Obligations.OpenOfSealIsThePlaintext : Prop :=
  ∀ key nonce aad pt : List Byte, openBytes key nonce aad (sealBytes key nonce aad pt) = .ok pt

/-- R238: the command SEAL: its errors in order, and ciphertext ‖ tag over the buffer and the 16 bytes after it. -/
def Obligations.SealWritesCiphertextAndTag : Prop :=
  ∀ s : State, s.mem.wf →
    (s.keyLen ≠ 32 → FailsWith (exec .sealCmd s) s 1) ∧
    (s.keyLen = 32 → s.nonceLen ≠ 12 → FailsWith (exec .sealCmd s) s 2) ∧
    (s.keyLen = 32 → s.nonceLen = 12 → s.bufLen.toNat > 274877906816 → FailsWith (exec .sealCmd s) s 4) ∧
    (s.keyLen = 32 → s.nonceLen = 12 → s.bufLen.toNat ≤ 274877906816 →
      ¬ (s.validRange s.keyAddr 32 = true ∧ s.validRange s.nonceAddr 12 = true ∧
          s.validRange s.aadAddr s.aadLen.toNat = true ∧ s.validRange s.bufAddr (s.bufLen.toNat + 16) = true) →
      FailsWith (exec .sealCmd s) s 7) ∧
    (s.keyLen = 32 → s.nonceLen = 12 → s.bufLen.toNat ≤ 274877906816 →
      s.validRange s.keyAddr 32 = true → s.validRange s.nonceAddr 12 = true →
      s.validRange s.aadAddr s.aadLen.toNat = true → s.validRange s.bufAddr (s.bufLen.toNat + 16) = true →
      CompletesWith (exec .sealCmd s) s s.bufAddr
        (sealBytes (s.mem.readBytes s.keyAddr.toNat 32) (s.mem.readBytes s.nonceAddr.toNat 12)
          (s.mem.readBytes s.aadAddr.toNat s.aadLen.toNat) (s.mem.readBytes s.bufAddr.toNat s.bufLen.toNat))
        (s.bufLen.toNat + 16))

/-- R239: the command OPEN: its errors in order; the plaintext in place when the tags agree, and AuthenticationFailed with the
buffer unchanged when they differ. -/
def Obligations.OpenVerifiesBeforeItWrites : Prop :=
  ∀ s : State, s.mem.wf →
    (s.keyLen ≠ 32 → FailsWith (exec .openCmd s) s 1) ∧
    (s.keyLen = 32 → s.nonceLen ≠ 12 → FailsWith (exec .openCmd s) s 2) ∧
    (s.keyLen = 32 → s.nonceLen = 12 → s.bufLen.toNat < 16 → FailsWith (exec .openCmd s) s 3) ∧
    (s.keyLen = 32 → s.nonceLen = 12 → 16 ≤ s.bufLen.toNat → s.bufLen.toNat - 16 > 274877906816 →
      FailsWith (exec .openCmd s) s 4) ∧
    (s.keyLen = 32 → s.nonceLen = 12 → 16 ≤ s.bufLen.toNat → s.bufLen.toNat - 16 ≤ 274877906816 →
      ¬ (s.validRange s.keyAddr 32 = true ∧ s.validRange s.nonceAddr 12 = true ∧
          s.validRange s.aadAddr s.aadLen.toNat = true ∧ s.validRange s.bufAddr s.bufLen.toNat = true) →
      FailsWith (exec .openCmd s) s 7) ∧
    (s.keyLen = 32 → s.nonceLen = 12 → 16 ≤ s.bufLen.toNat → s.bufLen.toNat - 16 ≤ 274877906816 →
      s.validRange s.keyAddr 32 = true → s.validRange s.nonceAddr 12 = true →
      s.validRange s.aadAddr s.aadLen.toNat = true → s.validRange s.bufAddr s.bufLen.toNat = true →
      (∀ pt, openBytes (s.mem.readBytes s.keyAddr.toNat 32) (s.mem.readBytes s.nonceAddr.toNat 12)
          (s.mem.readBytes s.aadAddr.toNat s.aadLen.toNat) (s.mem.readBytes s.bufAddr.toNat s.bufLen.toNat) = .ok pt →
        CompletesWith (exec .openCmd s) s s.bufAddr pt (s.bufLen.toNat - 16)) ∧
      (∀ e, openBytes (s.mem.readBytes s.keyAddr.toNat 32) (s.mem.readBytes s.nonceAddr.toNat 12)
          (s.mem.readBytes s.aadAddr.toNat s.aadLen.toNat) (s.mem.readBytes s.bufAddr.toNat s.bufLen.toNat) = .error e →
        FailsWith (exec .openCmd s) s 5))

/-- R240: the command XSEAL: as SEAL, with a 24-byte nonce and the derived subkey and subnonce. -/
def Obligations.XsealWritesCiphertextAndTag : Prop :=
  ∀ s : State, s.mem.wf →
    (s.keyLen ≠ 32 → FailsWith (exec .xseal s) s 1) ∧
    (s.keyLen = 32 → s.nonceLen ≠ 24 → FailsWith (exec .xseal s) s 2) ∧
    (s.keyLen = 32 → s.nonceLen = 24 → s.bufLen.toNat > 274877906816 → FailsWith (exec .xseal s) s 4) ∧
    (s.keyLen = 32 → s.nonceLen = 24 → s.bufLen.toNat ≤ 274877906816 →
      ¬ (s.validRange s.keyAddr 32 = true ∧ s.validRange s.nonceAddr 24 = true ∧
          s.validRange s.aadAddr s.aadLen.toNat = true ∧ s.validRange s.bufAddr (s.bufLen.toNat + 16) = true) →
      FailsWith (exec .xseal s) s 7) ∧
    (s.keyLen = 32 → s.nonceLen = 24 → s.bufLen.toNat ≤ 274877906816 →
      s.validRange s.keyAddr 32 = true → s.validRange s.nonceAddr 24 = true →
      s.validRange s.aadAddr s.aadLen.toNat = true → s.validRange s.bufAddr (s.bufLen.toNat + 16) = true →
      CompletesWith (exec .xseal s) s s.bufAddr
        (sealBytes (derive (s.mem.readBytes s.keyAddr.toNat 32) (s.mem.readBytes s.nonceAddr.toNat 24)).1
          (derive (s.mem.readBytes s.keyAddr.toNat 32) (s.mem.readBytes s.nonceAddr.toNat 24)).2
          (s.mem.readBytes s.aadAddr.toNat s.aadLen.toNat) (s.mem.readBytes s.bufAddr.toNat s.bufLen.toNat))
        (s.bufLen.toNat + 16))

/-- R241: the command XOPEN: as OPEN, with a 24-byte nonce and the derived subkey and subnonce. -/
def Obligations.XopenVerifiesBeforeItWrites : Prop :=
  ∀ s : State, s.mem.wf →
    (s.keyLen ≠ 32 → FailsWith (exec .xopen s) s 1) ∧
    (s.keyLen = 32 → s.nonceLen ≠ 24 → FailsWith (exec .xopen s) s 2) ∧
    (s.keyLen = 32 → s.nonceLen = 24 → s.bufLen.toNat < 16 → FailsWith (exec .xopen s) s 3) ∧
    (s.keyLen = 32 → s.nonceLen = 24 → 16 ≤ s.bufLen.toNat → s.bufLen.toNat - 16 > 274877906816 →
      FailsWith (exec .xopen s) s 4) ∧
    (s.keyLen = 32 → s.nonceLen = 24 → 16 ≤ s.bufLen.toNat → s.bufLen.toNat - 16 ≤ 274877906816 →
      ¬ (s.validRange s.keyAddr 32 = true ∧ s.validRange s.nonceAddr 24 = true ∧
          s.validRange s.aadAddr s.aadLen.toNat = true ∧ s.validRange s.bufAddr s.bufLen.toNat = true) →
      FailsWith (exec .xopen s) s 7) ∧
    (s.keyLen = 32 → s.nonceLen = 24 → 16 ≤ s.bufLen.toNat → s.bufLen.toNat - 16 ≤ 274877906816 →
      s.validRange s.keyAddr 32 = true → s.validRange s.nonceAddr 24 = true →
      s.validRange s.aadAddr s.aadLen.toNat = true → s.validRange s.bufAddr s.bufLen.toNat = true →
      (∀ pt, openBytes (derive (s.mem.readBytes s.keyAddr.toNat 32) (s.mem.readBytes s.nonceAddr.toNat 24)).1
          (derive (s.mem.readBytes s.keyAddr.toNat 32) (s.mem.readBytes s.nonceAddr.toNat 24)).2
          (s.mem.readBytes s.aadAddr.toNat s.aadLen.toNat) (s.mem.readBytes s.bufAddr.toNat s.bufLen.toNat) = .ok pt →
        CompletesWith (exec .xopen s) s s.bufAddr pt (s.bufLen.toNat - 16)) ∧
      (∀ e, openBytes (derive (s.mem.readBytes s.keyAddr.toNat 32) (s.mem.readBytes s.nonceAddr.toNat 24)).1
          (derive (s.mem.readBytes s.keyAddr.toNat 32) (s.mem.readBytes s.nonceAddr.toNat 24)).2
          (s.mem.readBytes s.aadAddr.toNat s.aadLen.toNat) (s.mem.readBytes s.bufAddr.toNat s.bufLen.toNat) = .error e →
        FailsWith (exec .xopen s) s 5))

/-- R242 (a) and R239 at the level of the machine: after a SEAL that ended normally and did not write over its own key, nonce or
associated data, OPEN on the sealed length ends normally and the buffer holds the plaintext again. -/
def Obligations.OpenAfterSealRestoresTheBuffer : Prop :=
  ∀ s t : State, s.mem.wf → exec .sealCmd s = .next t → t.status = ⟨false, true, false, 0⟩ →
    DisjointRanges s.keyAddr.toNat 32 s.bufAddr.toNat (s.bufLen.toNat + 16) →
    DisjointRanges s.nonceAddr.toNat 12 s.bufAddr.toNat (s.bufLen.toNat + 16) →
    DisjointRanges s.aadAddr.toNat s.aadLen.toNat s.bufAddr.toNat (s.bufLen.toNat + 16) →
    ∃ u, exec .openCmd { t with bufLen := t.resLen } = .next u ∧ u.status = ⟨false, true, false, 0⟩ ∧
      u.resLen = s.bufLen ∧
      u.mem.readBytes s.bufAddr.toNat s.bufLen.toNat = s.mem.readBytes s.bufAddr.toNat s.bufLen.toNat

/-! ### Errors (60_exceptions.md) -/

/-- R260: the seven codes, and with them the STATUS words of R281: 0x0006 + 0x0100 × code. -/
def Obligations.ErrorCodesAndStatusWords : Prop :=
  ErrorKind.invalidKeyLength.code = 1 ∧ ErrorKind.invalidNonceLength.code = 2 ∧ ErrorKind.invalidTagLength.code = 3 ∧
  ErrorKind.messageTooLarge.code = 4 ∧ ErrorKind.authenticationFailed.code = 5 ∧ ErrorKind.illegalCommand.code = 6 ∧
  ErrorKind.bufferFault.code = 7 ∧
  ∀ (e : ErrorKind) (s : State), (s.raiseError e).regRead 1 = 0x0006 + 0x0100 * e.code.setWidth 64

/-- R269, R272: a command that ends with an error writes no DATA byte and no register but STATUS and RES_LEN. -/
def Obligations.FailedCommandWritesNoData : Prop :=
  ∀ (i : Instr) (s t : State), exec i s = .next t → t.status.err = true →
    t.mem = s.mem ∧ t.resLen = 0 ∧ t.pend = none ∧ SameOperands s t

/-! ### Rules about the whole machine -/

/-- R38: the frame of every command in one: the DATA bytes outside the range the command's row names are unchanged, and when it
ends with an error all of them are. -/
def Obligations.CommandsWriteOnlyTheirOwnRange : Prop :=
  ∀ (i : Instr) (s t : State), exec i s = .next t →
    SameOperands s t ∧
    ∀ x, (x < (writtenRange i s).1.toNat ∨ (writtenRange i s).1.toNat + (writtenRange i s).2 ≤ x) →
      t.mem.read x = s.mem.read x

/-- R38, its column "uses internally", with R35 (the internal registers persist between commands): every command leaves the
internal registers it does not use as they were, whether it ends normally or with an error. Three parts are the model's own and
no part of the column: the round index, which MAC leaves and which runs with `X` elsewhere, and the AEAD phase, which the other
commands leave (log entry 13); and that the registers a command does not use stay on an error too (log entry 14). -/
def Obligations.CommandsLeaveTheRegistersTheyDoNotUse : Prop :=
  ∀ s t : State,
    (exec .block s = .next t →
      t.hidden.se = s.hidden.se ∧ t.hidden.xe = s.hidden.xe ∧ t.hidden.pa = s.hidden.pa ∧ t.hidden.ac = s.hidden.ac) ∧
    (exec .xor s = .next t → t.hidden.xe = s.hidden.xe ∧ t.hidden.pa = s.hidden.pa ∧ t.hidden.ac = s.hidden.ac) ∧
    (exec .derive s = .next t →
      t.hidden.wmc.s0 = s.hidden.wmc.s0 ∧ t.hidden.wmc.ks = s.hidden.wmc.ks ∧ t.hidden.wmc.bctr = s.hidden.wmc.bctr ∧
      t.hidden.se = s.hidden.se ∧ t.hidden.pa = s.hidden.pa ∧ t.hidden.ac = s.hidden.ac) ∧
    (exec .xxor s = .next t → t.hidden.pa = s.hidden.pa ∧ t.hidden.ac = s.hidden.ac) ∧
    (exec .mac s = .next t →
      t.hidden.wmc = s.hidden.wmc ∧ t.hidden.se = s.hidden.se ∧ t.hidden.xe = s.hidden.xe ∧ t.hidden.ac = s.hidden.ac) ∧
    (exec .sealCmd s = .next t → t.hidden.xe = s.hidden.xe ∧ t.hidden.ac.diff = s.hidden.ac.diff) ∧
    (exec .openCmd s = .next t → t.hidden.xe = s.hidden.xe) ∧
    (exec .xseal s = .next t → t.hidden.ac.diff = s.hidden.ac.diff)

/-- R281: the values a read of STATUS can return in a state that meets the invariant, and each of them is the value of some such
state. -/
def Obligations.StatusReadsOneOfTenValues : Prop :=
  (∀ s : State, s.Inv → s.regRead 1 ∈ ([0x0000, 0x0001, 0x0002, 0x0106, 0x0206, 0x0306, 0x0406, 0x0506, 0x0606, 0x0706] :
    List DWord)) ∧
  (∀ v ∈ ([0x0000, 0x0001, 0x0002, 0x0106, 0x0206, 0x0306, 0x0406, 0x0506, 0x0606, 0x0706] : List DWord),
    ∃ s : State, s.Inv ∧ s.regRead 1 = v)

/-- The invariant of the model holds right after reset (the reset values of log entries 1, 2 and 3 included). -/
def Obligations.ResetMeetsTheInvariant : Prop := State.reset.Inv

/-- R33, R29, R30, R61: every step of the machine, whichever agent moves, keeps the invariant: the DATA space in canonical form
with bytes at populated addresses only, BUSY exactly while PEND holds a word, STATUS one of its legal values, RES_LEN 0 unless
the last command ended normally. -/
def Obligations.StepKeepsTheInvariant : Prop :=
  ∀ s t : State, s.Inv → step s = .next t → t.Inv ∧ t.pop = s.pop

/-- R310, R98: a pending command completes under every schedule without a reset: within one step more than the schedule has turns
left, PEND is empty and STATUS says DONE. (The schedule, and that the ENGINE moves where it is used up, are the model's own, log
entry 5.) -/
def Obligations.PendingCommandCompletesUnderEverySchedule : Prop :=
  ∀ (s : State) (w : Word), s.Inv → s.pend = some w → (∀ turn ∈ s.schedule, ∀ left, turn ≠ .reset left) →
    ∃ n t, n ≤ s.schedule.length + 1 ∧ Sys2Proof.core.run n s = .next t ∧ t.pend = none ∧ t.status.busy = false ∧
      t.status.done = true

/-- R35: the internal register files cannot be observed: two runs of any length from states that differ only in them stay the
same in everything else, the values the HOST reads among it. -/
def Obligations.HiddenRegistersAreUnobservable : Prop :=
  ∀ (n : Nat) (s : State) (g : Hidden), SameToHost (Sys2Proof.core.run n s) (Sys2Proof.core.run n { s with hidden := g })
end

