-- ==== Sys2Proof/Laws/Bytes.lean ====
section
/-!
SUPPORT. The laws of byte sequences: lengths, the round trips of `le` and `ser`, register files.
-/

namespace Sys2Proof.Machine

@[simp] theorem le_nil : le [] = 0 := rfl
@[simp] theorem le_cons (b : Byte) (bs : List Byte) : le (b :: bs) = b.toNat + 256 * le bs := rfl

theorem le_append (a b : List Byte) : le (a ++ b) = le a + 2 ^ (8 * a.length) * le b := by
  induction a with
  | nil => simp
  | cons x xs ih =>
    have h : 2 ^ (8 * (xs.length + 1)) = 256 * 2 ^ (8 * xs.length) := by
      rw [Nat.mul_add, Nat.pow_add]; omega
    simp only [List.cons_append, le_cons, ih, List.length_cons, h]
    ring

theorem le_lt (bytes : List Byte) : le bytes < 2 ^ (8 * bytes.length) := by
  induction bytes with
  | nil => simp
  | cons x xs ih =>
    have h : 2 ^ (8 * (xs.length + 1)) = 256 * 2 ^ (8 * xs.length) := by
      rw [Nat.mul_add, Nat.pow_add]; omega
    have hx := x.isLt
    simp only [le_cons, List.length_cons, h]
    omega

@[simp] theorem ser_length (v n : Nat) : (ser v n).length = n := by
  induction n generalizing v with
  | zero => rfl
  | succ n ih => simp [ser, ih]

/-- `le(ser(v, n)) = v` for `v < 2^(8n)`; in general `ser` keeps the low `n` bytes (R11). -/
theorem le_ser (v n : Nat) : le (ser v n) = v % 2 ^ (8 * n) := by
  induction n generalizing v with
  | zero => simp [ser, Nat.mod_one]
  | succ n ih =>
    have h : 2 ^ (8 * (n + 1)) = 256 * 2 ^ (8 * n) := by rw [Nat.mul_add, Nat.pow_add]; omega
    simp only [ser, le_cons, ih, h, BitVec.toNat_ofNat, Nat.mod_mul]

theorem ser_le (bytes : List Byte) : ser (le bytes) bytes.length = bytes := by
  induction bytes with
  | nil => rfl
  | cons x xs ih =>
    have hx := x.isLt
    have h1 : (x.toNat + 256 * le xs) / 256 = le xs := by omega
    have h2 : BitVec.ofNat 8 (x.toNat + 256 * le xs) = x := by
      apply BitVec.eq_of_toNat_eq
      simp only [BitVec.toNat_ofNat]
      omega
    simp only [List.length_cons, ser, le_cons, h1, h2, ih]

/-- Two byte sequences of one length with one value are equal. -/
theorem le_inj {a b : List Byte} (hl : a.length = b.length) (h : le a = le b) : a = b := by
  rw [← ser_le a, ← ser_le b, hl, h]

@[simp] theorem zeros_length (n : Nat) : (zeros n).length = n := by simp [zeros]

@[simp] theorem slice_length (bytes : List Byte) (i j : Nat) :
    (slice bytes i j).length = min (j - i) (bytes.length - i) := by simp [slice]

@[simp] theorem serWord_length (w : Word) : (serWord w).length = 4 := by simp [serWord]

@[simp] theorem xorBytes_length (a b : List Byte) : (xorBytes a b).length = min a.length b.length := by simp [xorBytes]

theorem leWord_serWord (w : Word) : leWord (serWord w) = w := by
  apply BitVec.eq_of_toNat_eq
  have := w.isLt
  simp only [leWord, serWord, le_ser, BitVec.toNat_ofNat]
  omega

/-- A register file loaded from as many bytes as it has registers holds those bytes. -/
theorem registerFile_toList {n : Nat} {bytes : List Byte} (h : bytes.length = n) : (registerFile n bytes).toList = bytes := by
  apply List.ext_getElem
  · simp [h]
  · intro i h1 h2
    simp [registerFile, h2]

/-- The exclusive-or with one sequence, done twice, is the identity on sequences no longer than it. -/
theorem xorBytes_xorBytes (a k : List Byte) (h : a.length ≤ k.length) : xorBytes (xorBytes a k) k = a := by
  apply List.ext_getElem
  · simp [h]
  · intro i h1 h2
    simp [xorBytes]

/-- A byte sequence cut into a head of `i` bytes, the four bytes after it, and the rest, has the value of those four bytes at
`2^(8i)`. -/
theorem le_four_at {bytes mid : List Byte} {i : Nat} (hm : mid = slice bytes i (i + 4)) (hi : i + 4 ≤ bytes.length) :
    le mid = le bytes / 2 ^ (8 * i) % 2 ^ 32 := by
  have e : bytes = bytes.take i ++ (mid ++ bytes.drop (i + 4)) := by
    rw [hm, slice, show i + 4 - i = 4 by omega, ← List.drop_drop, List.take_append_drop, List.take_append_drop]
  have l1 : (bytes.take i).length = i := by simp; omega
  have l2 : mid.length = 4 := by rw [hm]; simp; omega
  have b1 := le_lt (bytes.take i)
  have b2 := le_lt mid
  have v : le bytes = le (bytes.take i) + 2 ^ (8 * i) * (le mid + 2 ^ 32 * le (bytes.drop (i + 4))) := by
    conv_lhs => rw [e, le_append, le_append, l1, l2]
  rw [l1] at b1
  rw [l2] at b2
  rw [v, Nat.add_mul_div_left _ _ (Nat.two_pow_pos _), Nat.div_eq_of_lt b1, Nat.zero_add, Nat.add_mul_mod_self_left,
    Nat.mod_eq_of_lt b2]

end Sys2Proof.Machine
end

