-- ==== Sys2Proof/Laws/State.lean ====
section
/-!
SUPPORT. One lemma for each field of the state after each operation on it, all true by rfl, so that no proof unfolds a record
update.
-/

namespace Sys2Proof.Machine

/-! ### State.issue -/

@[simp] theorem State.issue_status (s : State) (w : Word) : (s.issue w).status = .pending := rfl
@[simp] theorem State.issue_resLen (s : State) (w : Word) : (s.issue w).resLen = 0 := rfl
@[simp] theorem State.issue_ctr (s : State) (w : Word) : (s.issue w).ctr = s.ctr := rfl
@[simp] theorem State.issue_keyAddr (s : State) (w : Word) : (s.issue w).keyAddr = s.keyAddr := rfl
@[simp] theorem State.issue_keyLen (s : State) (w : Word) : (s.issue w).keyLen = s.keyLen := rfl
@[simp] theorem State.issue_nonceAddr (s : State) (w : Word) : (s.issue w).nonceAddr = s.nonceAddr := rfl
@[simp] theorem State.issue_nonceLen (s : State) (w : Word) : (s.issue w).nonceLen = s.nonceLen := rfl
@[simp] theorem State.issue_aadAddr (s : State) (w : Word) : (s.issue w).aadAddr = s.aadAddr := rfl
@[simp] theorem State.issue_aadLen (s : State) (w : Word) : (s.issue w).aadLen = s.aadLen := rfl
@[simp] theorem State.issue_bufAddr (s : State) (w : Word) : (s.issue w).bufAddr = s.bufAddr := rfl
@[simp] theorem State.issue_bufLen (s : State) (w : Word) : (s.issue w).bufLen = s.bufLen := rfl
@[simp] theorem State.issue_outAddr (s : State) (w : Word) : (s.issue w).outAddr = s.outAddr := rfl
@[simp] theorem State.issue_pend (s : State) (w : Word) : (s.issue w).pend = some w := rfl
@[simp] theorem State.issue_mem (s : State) (w : Word) : (s.issue w).mem = s.mem := rfl
@[simp] theorem State.issue_pop (s : State) (w : Word) : (s.issue w).pop = s.pop := rfl
@[simp] theorem State.issue_hidden (s : State) (w : Word) : (s.issue w).hidden = s.hidden := rfl
@[simp] theorem State.issue_held (s : State) (w : Word) : (s.issue w).held = s.held := rfl
@[simp] theorem State.issue_script (s : State) (w : Word) : (s.issue w).script = s.script := rfl
@[simp] theorem State.issue_replies (s : State) (w : Word) : (s.issue w).replies = s.replies := rfl
@[simp] theorem State.issue_schedule (s : State) (w : Word) : (s.issue w).schedule = s.schedule := rfl

/-! ### State.succeed -/

@[simp] theorem State.succeed_status (s : State) (addr : DWord) (bytes : List Byte) (len : Nat) : (s.succeed addr bytes len).status = .ok := rfl
@[simp] theorem State.succeed_resLen (s : State) (addr : DWord) (bytes : List Byte) (len : Nat) : (s.succeed addr bytes len).resLen = BitVec.ofNat 64 len := rfl
@[simp] theorem State.succeed_ctr (s : State) (addr : DWord) (bytes : List Byte) (len : Nat) : (s.succeed addr bytes len).ctr = s.ctr := rfl
@[simp] theorem State.succeed_keyAddr (s : State) (addr : DWord) (bytes : List Byte) (len : Nat) : (s.succeed addr bytes len).keyAddr = s.keyAddr := rfl
@[simp] theorem State.succeed_keyLen (s : State) (addr : DWord) (bytes : List Byte) (len : Nat) : (s.succeed addr bytes len).keyLen = s.keyLen := rfl
@[simp] theorem State.succeed_nonceAddr (s : State) (addr : DWord) (bytes : List Byte) (len : Nat) : (s.succeed addr bytes len).nonceAddr = s.nonceAddr := rfl
@[simp] theorem State.succeed_nonceLen (s : State) (addr : DWord) (bytes : List Byte) (len : Nat) : (s.succeed addr bytes len).nonceLen = s.nonceLen := rfl
@[simp] theorem State.succeed_aadAddr (s : State) (addr : DWord) (bytes : List Byte) (len : Nat) : (s.succeed addr bytes len).aadAddr = s.aadAddr := rfl
@[simp] theorem State.succeed_aadLen (s : State) (addr : DWord) (bytes : List Byte) (len : Nat) : (s.succeed addr bytes len).aadLen = s.aadLen := rfl
@[simp] theorem State.succeed_bufAddr (s : State) (addr : DWord) (bytes : List Byte) (len : Nat) : (s.succeed addr bytes len).bufAddr = s.bufAddr := rfl
@[simp] theorem State.succeed_bufLen (s : State) (addr : DWord) (bytes : List Byte) (len : Nat) : (s.succeed addr bytes len).bufLen = s.bufLen := rfl
@[simp] theorem State.succeed_outAddr (s : State) (addr : DWord) (bytes : List Byte) (len : Nat) : (s.succeed addr bytes len).outAddr = s.outAddr := rfl
@[simp] theorem State.succeed_pend (s : State) (addr : DWord) (bytes : List Byte) (len : Nat) : (s.succeed addr bytes len).pend = none := rfl
@[simp] theorem State.succeed_mem (s : State) (addr : DWord) (bytes : List Byte) (len : Nat) : (s.succeed addr bytes len).mem = s.mem.writeBytes addr.toNat bytes := rfl
@[simp] theorem State.succeed_pop (s : State) (addr : DWord) (bytes : List Byte) (len : Nat) : (s.succeed addr bytes len).pop = s.pop := rfl
@[simp] theorem State.succeed_hidden (s : State) (addr : DWord) (bytes : List Byte) (len : Nat) : (s.succeed addr bytes len).hidden = s.hidden := rfl
@[simp] theorem State.succeed_held (s : State) (addr : DWord) (bytes : List Byte) (len : Nat) : (s.succeed addr bytes len).held = s.held := rfl
@[simp] theorem State.succeed_script (s : State) (addr : DWord) (bytes : List Byte) (len : Nat) : (s.succeed addr bytes len).script = s.script := rfl
@[simp] theorem State.succeed_replies (s : State) (addr : DWord) (bytes : List Byte) (len : Nat) : (s.succeed addr bytes len).replies = s.replies := rfl
@[simp] theorem State.succeed_schedule (s : State) (addr : DWord) (bytes : List Byte) (len : Nat) : (s.succeed addr bytes len).schedule = s.schedule := rfl

/-! ### State.raiseError -/

@[simp] theorem State.raiseError_status (s : State) (e : ErrorKind) : (s.raiseError e).status = .failed e := rfl
@[simp] theorem State.raiseError_resLen (s : State) (e : ErrorKind) : (s.raiseError e).resLen = 0 := rfl
@[simp] theorem State.raiseError_ctr (s : State) (e : ErrorKind) : (s.raiseError e).ctr = s.ctr := rfl
@[simp] theorem State.raiseError_keyAddr (s : State) (e : ErrorKind) : (s.raiseError e).keyAddr = s.keyAddr := rfl
@[simp] theorem State.raiseError_keyLen (s : State) (e : ErrorKind) : (s.raiseError e).keyLen = s.keyLen := rfl
@[simp] theorem State.raiseError_nonceAddr (s : State) (e : ErrorKind) : (s.raiseError e).nonceAddr = s.nonceAddr := rfl
@[simp] theorem State.raiseError_nonceLen (s : State) (e : ErrorKind) : (s.raiseError e).nonceLen = s.nonceLen := rfl
@[simp] theorem State.raiseError_aadAddr (s : State) (e : ErrorKind) : (s.raiseError e).aadAddr = s.aadAddr := rfl
@[simp] theorem State.raiseError_aadLen (s : State) (e : ErrorKind) : (s.raiseError e).aadLen = s.aadLen := rfl
@[simp] theorem State.raiseError_bufAddr (s : State) (e : ErrorKind) : (s.raiseError e).bufAddr = s.bufAddr := rfl
@[simp] theorem State.raiseError_bufLen (s : State) (e : ErrorKind) : (s.raiseError e).bufLen = s.bufLen := rfl
@[simp] theorem State.raiseError_outAddr (s : State) (e : ErrorKind) : (s.raiseError e).outAddr = s.outAddr := rfl
@[simp] theorem State.raiseError_pend (s : State) (e : ErrorKind) : (s.raiseError e).pend = none := rfl
@[simp] theorem State.raiseError_mem (s : State) (e : ErrorKind) : (s.raiseError e).mem = s.mem := rfl
@[simp] theorem State.raiseError_pop (s : State) (e : ErrorKind) : (s.raiseError e).pop = s.pop := rfl
@[simp] theorem State.raiseError_hidden (s : State) (e : ErrorKind) : (s.raiseError e).hidden = s.hidden := rfl
@[simp] theorem State.raiseError_held (s : State) (e : ErrorKind) : (s.raiseError e).held = s.held := rfl
@[simp] theorem State.raiseError_script (s : State) (e : ErrorKind) : (s.raiseError e).script = s.script := rfl
@[simp] theorem State.raiseError_replies (s : State) (e : ErrorKind) : (s.raiseError e).replies = s.replies := rfl
@[simp] theorem State.raiseError_schedule (s : State) (e : ErrorKind) : (s.raiseError e).schedule = s.schedule := rfl

/-! ### State.resetEvent -/

@[simp] theorem State.resetEvent_status (s : State) (left : Hidden) : (s.resetEvent left).status = .cleared := rfl
@[simp] theorem State.resetEvent_resLen (s : State) (left : Hidden) : (s.resetEvent left).resLen = 0 := rfl
@[simp] theorem State.resetEvent_ctr (s : State) (left : Hidden) : (s.resetEvent left).ctr = 0 := rfl
@[simp] theorem State.resetEvent_keyAddr (s : State) (left : Hidden) : (s.resetEvent left).keyAddr = 0 := rfl
@[simp] theorem State.resetEvent_keyLen (s : State) (left : Hidden) : (s.resetEvent left).keyLen = 0 := rfl
@[simp] theorem State.resetEvent_nonceAddr (s : State) (left : Hidden) : (s.resetEvent left).nonceAddr = 0 := rfl
@[simp] theorem State.resetEvent_nonceLen (s : State) (left : Hidden) : (s.resetEvent left).nonceLen = 0 := rfl
@[simp] theorem State.resetEvent_aadAddr (s : State) (left : Hidden) : (s.resetEvent left).aadAddr = 0 := rfl
@[simp] theorem State.resetEvent_aadLen (s : State) (left : Hidden) : (s.resetEvent left).aadLen = 0 := rfl
@[simp] theorem State.resetEvent_bufAddr (s : State) (left : Hidden) : (s.resetEvent left).bufAddr = 0 := rfl
@[simp] theorem State.resetEvent_bufLen (s : State) (left : Hidden) : (s.resetEvent left).bufLen = 0 := rfl
@[simp] theorem State.resetEvent_outAddr (s : State) (left : Hidden) : (s.resetEvent left).outAddr = 0 := rfl
@[simp] theorem State.resetEvent_pend (s : State) (left : Hidden) : (s.resetEvent left).pend = none := rfl
@[simp] theorem State.resetEvent_mem (s : State) (left : Hidden) : (s.resetEvent left).mem = s.mem := rfl
@[simp] theorem State.resetEvent_pop (s : State) (left : Hidden) : (s.resetEvent left).pop = s.pop := rfl
@[simp] theorem State.resetEvent_hidden (s : State) (left : Hidden) : (s.resetEvent left).hidden = left := rfl
@[simp] theorem State.resetEvent_held (s : State) (left : Hidden) : (s.resetEvent left).held = [] := rfl
@[simp] theorem State.resetEvent_script (s : State) (left : Hidden) : (s.resetEvent left).script = s.script := rfl
@[simp] theorem State.resetEvent_replies (s : State) (left : Hidden) : (s.resetEvent left).replies = s.replies := rfl
@[simp] theorem State.resetEvent_schedule (s : State) (left : Hidden) : (s.resetEvent left).schedule = s.schedule := rfl

/-! ### State.reply -/

@[simp] theorem State.reply_status (s : State) (r : Reply) : (s.reply r).status = s.status := rfl
@[simp] theorem State.reply_resLen (s : State) (r : Reply) : (s.reply r).resLen = s.resLen := rfl
@[simp] theorem State.reply_ctr (s : State) (r : Reply) : (s.reply r).ctr = s.ctr := rfl
@[simp] theorem State.reply_keyAddr (s : State) (r : Reply) : (s.reply r).keyAddr = s.keyAddr := rfl
@[simp] theorem State.reply_keyLen (s : State) (r : Reply) : (s.reply r).keyLen = s.keyLen := rfl
@[simp] theorem State.reply_nonceAddr (s : State) (r : Reply) : (s.reply r).nonceAddr = s.nonceAddr := rfl
@[simp] theorem State.reply_nonceLen (s : State) (r : Reply) : (s.reply r).nonceLen = s.nonceLen := rfl
@[simp] theorem State.reply_aadAddr (s : State) (r : Reply) : (s.reply r).aadAddr = s.aadAddr := rfl
@[simp] theorem State.reply_aadLen (s : State) (r : Reply) : (s.reply r).aadLen = s.aadLen := rfl
@[simp] theorem State.reply_bufAddr (s : State) (r : Reply) : (s.reply r).bufAddr = s.bufAddr := rfl
@[simp] theorem State.reply_bufLen (s : State) (r : Reply) : (s.reply r).bufLen = s.bufLen := rfl
@[simp] theorem State.reply_outAddr (s : State) (r : Reply) : (s.reply r).outAddr = s.outAddr := rfl
@[simp] theorem State.reply_pend (s : State) (r : Reply) : (s.reply r).pend = s.pend := rfl
@[simp] theorem State.reply_mem (s : State) (r : Reply) : (s.reply r).mem = s.mem := rfl
@[simp] theorem State.reply_pop (s : State) (r : Reply) : (s.reply r).pop = s.pop := rfl
@[simp] theorem State.reply_hidden (s : State) (r : Reply) : (s.reply r).hidden = s.hidden := rfl
@[simp] theorem State.reply_held (s : State) (r : Reply) : (s.reply r).held = s.held := rfl
@[simp] theorem State.reply_script (s : State) (r : Reply) : (s.reply r).script = s.script := rfl
@[simp] theorem State.reply_replies (s : State) (r : Reply) : (s.reply r).replies = r :: s.replies := rfl
@[simp] theorem State.reply_schedule (s : State) (r : Reply) : (s.reply r).schedule = s.schedule := rfl

/-! ### State.beginAead -/

@[simp] theorem State.beginAead_status (s : State) : (s.beginAead).status = s.status := rfl
@[simp] theorem State.beginAead_resLen (s : State) : (s.beginAead).resLen = s.resLen := rfl
@[simp] theorem State.beginAead_ctr (s : State) : (s.beginAead).ctr = s.ctr := rfl
@[simp] theorem State.beginAead_keyAddr (s : State) : (s.beginAead).keyAddr = s.keyAddr := rfl
@[simp] theorem State.beginAead_keyLen (s : State) : (s.beginAead).keyLen = s.keyLen := rfl
@[simp] theorem State.beginAead_nonceAddr (s : State) : (s.beginAead).nonceAddr = s.nonceAddr := rfl
@[simp] theorem State.beginAead_nonceLen (s : State) : (s.beginAead).nonceLen = s.nonceLen := rfl
@[simp] theorem State.beginAead_aadAddr (s : State) : (s.beginAead).aadAddr = s.aadAddr := rfl
@[simp] theorem State.beginAead_aadLen (s : State) : (s.beginAead).aadLen = s.aadLen := rfl
@[simp] theorem State.beginAead_bufAddr (s : State) : (s.beginAead).bufAddr = s.bufAddr := rfl
@[simp] theorem State.beginAead_bufLen (s : State) : (s.beginAead).bufLen = s.bufLen := rfl
@[simp] theorem State.beginAead_outAddr (s : State) : (s.beginAead).outAddr = s.outAddr := rfl
@[simp] theorem State.beginAead_pend (s : State) : (s.beginAead).pend = s.pend := rfl
@[simp] theorem State.beginAead_mem (s : State) : (s.beginAead).mem = s.mem := rfl
@[simp] theorem State.beginAead_pop (s : State) : (s.beginAead).pop = s.pop := rfl
@[simp] theorem State.beginAead_hidden (s : State) : (s.beginAead).hidden = s.hidden.enterPhase .keySetup := rfl
@[simp] theorem State.beginAead_held (s : State) : (s.beginAead).held = s.held := rfl
@[simp] theorem State.beginAead_script (s : State) : (s.beginAead).script = s.script := rfl
@[simp] theorem State.beginAead_replies (s : State) : (s.beginAead).replies = s.replies := rfl
@[simp] theorem State.beginAead_schedule (s : State) : (s.beginAead).schedule = s.schedule := rfl

/-! ### State.visible -/

@[simp] theorem State.visible_status (s : State) : (s.visible).status = s.status := rfl
@[simp] theorem State.visible_resLen (s : State) : (s.visible).resLen = s.resLen := rfl
@[simp] theorem State.visible_ctr (s : State) : (s.visible).ctr = s.ctr := rfl
@[simp] theorem State.visible_keyAddr (s : State) : (s.visible).keyAddr = s.keyAddr := rfl
@[simp] theorem State.visible_keyLen (s : State) : (s.visible).keyLen = s.keyLen := rfl
@[simp] theorem State.visible_nonceAddr (s : State) : (s.visible).nonceAddr = s.nonceAddr := rfl
@[simp] theorem State.visible_nonceLen (s : State) : (s.visible).nonceLen = s.nonceLen := rfl
@[simp] theorem State.visible_aadAddr (s : State) : (s.visible).aadAddr = s.aadAddr := rfl
@[simp] theorem State.visible_aadLen (s : State) : (s.visible).aadLen = s.aadLen := rfl
@[simp] theorem State.visible_bufAddr (s : State) : (s.visible).bufAddr = s.bufAddr := rfl
@[simp] theorem State.visible_bufLen (s : State) : (s.visible).bufLen = s.bufLen := rfl
@[simp] theorem State.visible_outAddr (s : State) : (s.visible).outAddr = s.outAddr := rfl
@[simp] theorem State.visible_pend (s : State) : (s.visible).pend = s.pend := rfl
@[simp] theorem State.visible_mem (s : State) : (s.visible).mem = s.mem := rfl
@[simp] theorem State.visible_pop (s : State) : (s.visible).pop = s.pop := rfl
@[simp] theorem State.visible_hidden (s : State) : (s.visible).hidden = Hidden.zero := rfl
@[simp] theorem State.visible_held (s : State) : (s.visible).held = s.held := rfl
@[simp] theorem State.visible_script (s : State) : (s.visible).script = s.script := rfl
@[simp] theorem State.visible_replies (s : State) : (s.visible).replies = s.replies := rfl
@[simp] theorem State.visible_schedule (s : State) : (s.visible).schedule = s.schedule := rfl

/-! ### The internal register files -/

@[simp] theorem Hidden.runBlock_wmc (g : Hidden) (key nonce : List Byte) (ctr : Word) :
    (g.runBlock key nonce ctr).wmc = g.wmc.runBlock key nonce ctr := rfl
@[simp] theorem Hidden.runBlock_se (g : Hidden) (key nonce : List Byte) (ctr : Word) :
    (g.runBlock key nonce ctr).se = g.se := rfl
@[simp] theorem Hidden.runBlock_xe (g : Hidden) (key nonce : List Byte) (ctr : Word) :
    (g.runBlock key nonce ctr).xe = g.xe := rfl
@[simp] theorem Hidden.runBlock_pa (g : Hidden) (key nonce : List Byte) (ctr : Word) :
    (g.runBlock key nonce ctr).pa = g.pa := rfl
@[simp] theorem Hidden.runBlock_ac (g : Hidden) (key nonce : List Byte) (ctr : Word) :
    (g.runBlock key nonce ctr).ac = g.ac := rfl
@[simp] theorem Hidden.enterPhase_wmc (g : Hidden) (p : AeadPhase) : (g.enterPhase p).wmc = g.wmc := rfl
@[simp] theorem Hidden.enterPhase_se (g : Hidden) (p : AeadPhase) : (g.enterPhase p).se = g.se := rfl
@[simp] theorem Hidden.enterPhase_xe (g : Hidden) (p : AeadPhase) : (g.enterPhase p).xe = g.xe := rfl
@[simp] theorem Hidden.enterPhase_pa (g : Hidden) (p : AeadPhase) : (g.enterPhase p).pa = g.pa := rfl
@[simp] theorem Hidden.enterPhase_otk (g : Hidden) (p : AeadPhase) : (g.enterPhase p).ac.otk = g.ac.otk := rfl
@[simp] theorem Hidden.enterPhase_diff (g : Hidden) (p : AeadPhase) : (g.enterPhase p).ac.diff = g.ac.diff := rfl
@[simp] theorem Hidden.enterPhase_phase (g : Hidden) (p : AeadPhase) : (g.enterPhase p).ac.phase = p := rfl
@[simp] theorem Hidden.runMac_pa (g : Hidden) (otk msg : List Byte) : (g.runMac otk msg).pa = g.pa.runMac otk msg := rfl
@[simp] theorem Hidden.runMac_ac (g : Hidden) (otk msg : List Byte) : (g.runMac otk msg).ac = g.ac := rfl
@[simp] theorem Hidden.runMac_wmc (g : Hidden) (otk msg : List Byte) : (g.runMac otk msg).wmc = g.wmc := rfl
@[simp] theorem Hidden.runMac_se (g : Hidden) (otk msg : List Byte) : (g.runMac otk msg).se = g.se := rfl
@[simp] theorem Hidden.runMac_xe (g : Hidden) (otk msg : List Byte) : (g.runMac otk msg).xe = g.xe := rfl
@[simp] theorem Hidden.runDerive_ac (g : Hidden) (key n : List Byte) : (g.runDerive key n).ac = g.ac := by simp only [Hidden.runDerive]
@[simp] theorem Hidden.runDerive_pa (g : Hidden) (key n : List Byte) : (g.runDerive key n).pa = g.pa := by simp only [Hidden.runDerive]
@[simp] theorem Hidden.runDerive_se (g : Hidden) (key n : List Byte) : (g.runDerive key n).se = g.se := by simp only [Hidden.runDerive]

end Sys2Proof.Machine
end

