-- ==== Sys2Proof/Laws/Poly1305.lean ====
section
/-!
SUPPORT. The Poly1305 unit: a MAC computation depends on no register it has not written itself, and its tag has 16 bytes.
-/

namespace Sys2Proof.Machine

@[simp] theorem FourWords.serialize_length (t : FourWords) : t.serialize.length = 16 := by
  simp [FourWords.serialize]

@[simp] theorem poly1305Mac_length (otk msg : List Byte) : (poly1305Mac otk msg).length = 16 := by simp [poly1305Mac]

/-- The value-level accumulator is a fold over the block indices. -/
theorem absorbAll_eq (r : Nat) (msg : List Byte) :
    absorbAll r msg = (List.range (blockCount msg.length)).foldl (fun h k => absorb r h (blockAt msg k)) 0 := rfl

/-- One block step with its index. -/
def Poly1305Accumulator.stepAt (msg : List Byte) (p : Poly1305Accumulator) (k : Nat) : Poly1305Accumulator :=
  { p.blockStep (blockAt msg k) with block := BitVec.ofNat 60 k }

theorem Poly1305Accumulator.absorbBlocks_eq (p : Poly1305Accumulator) (msg : List Byte) :
    p.absorbBlocks msg = (List.range (blockCount msg.length)).foldl (Poly1305Accumulator.stepAt msg) p := rfl

@[simp] theorem Poly1305Accumulator.stepAt_r (msg : List Byte) (p : Poly1305Accumulator) (k : Nat) : (p.stepAt msg k).r = p.r := rfl
@[simp] theorem Poly1305Accumulator.stepAt_s5 (msg : List Byte) (p : Poly1305Accumulator) (k : Nat) : (p.stepAt msg k).s5 = p.s5 := rfl
@[simp] theorem Poly1305Accumulator.stepAt_pad (msg : List Byte) (p : Poly1305Accumulator) (k : Nat) : (p.stepAt msg k).pad = p.pad := rfl
@[simp] theorem Poly1305Accumulator.stepAt_h (msg : List Byte) (p : Poly1305Accumulator) (k : Nat) :
    (p.stepAt msg k).h =
      foldColumns (rippleColumns (mulColumns (addBlock p.h (blockInt (blockAt msg k))) p.r p.s5)) := rfl

/-- The registers the block steps read and do not write. -/
theorem Poly1305Accumulator.foldl_stepAt_frame (msg : List Byte) (l : List Nat) (p : Poly1305Accumulator) :
    (l.foldl (Poly1305Accumulator.stepAt msg) p).r = p.r ∧ (l.foldl (Poly1305Accumulator.stepAt msg) p).s5 = p.s5 ∧
    (l.foldl (Poly1305Accumulator.stepAt msg) p).pad = p.pad := by
  induction l generalizing p with
  | nil => exact ⟨rfl, rfl, rfl⟩
  | cons k l ih => exact ih _

/-- Two units that agree on `H`, `R` and `S5` agree on `H` after the same blocks. -/
theorem Poly1305Accumulator.foldl_stepAt_h (msg : List Byte) (l : List Nat) (p q : Poly1305Accumulator) (hh : p.h = q.h)
    (hr : p.r = q.r) (hs : p.s5 = q.s5) :
    (l.foldl (Poly1305Accumulator.stepAt msg) p).h = (l.foldl (Poly1305Accumulator.stepAt msg) q).h := by
  induction l generalizing p q with
  | nil => exact hh
  | cons k l ih => exact ih _ _ (by simp [hh, hr, hs]) (by simp [hr]) (by simp [hs])

/-- `TAGX` after the finalisation. -/
theorem Poly1305Accumulator.finish_tagx (p : Poly1305Accumulator) :
    p.finish.tagx.toList = (addPad (repack (conditionalSubtract (finalCarry p.h))) p.pad).serialize :=
  registerFile_toList (FourWords.serialize_length _)

/-- The tag of a MAC computation does not depend on what the registers held before it (R35). -/
theorem Poly1305Accumulator.runMac_tagx_overwrites (p q : Poly1305Accumulator) (otk msg : List Byte) :
    (p.runMac otk msg).tagx.toList = (q.runMac otk msg).tagx.toList := by
  simp only [Poly1305Accumulator.runMac, Poly1305Accumulator.finish_tagx, Poly1305Accumulator.absorbBlocks_eq,
    (Poly1305Accumulator.foldl_stepAt_frame msg _ _).2.2]
  rw [Poly1305Accumulator.foldl_stepAt_h msg _ (p.start otk) (q.start otk) rfl rfl rfl]
  rfl

@[simp] theorem Poly1305Accumulator.runMac_tagx_length (p : Poly1305Accumulator) (otk msg : List Byte) :
    (p.runMac otk msg).tagx.toList.length = 16 := by simp

/-! ### The word operations on natural numbers, where nothing wraps -/

theorem mul64_toNat (a b : Word) : (mul64 a b).toNat = a.toNat * b.toNat := by
  have ha := a.isLt
  have hb := b.isLt
  have h : a.toNat * b.toNat < 2 ^ 64 := by
    calc a.toNat * b.toNat < 2 ^ 32 * 2 ^ 32 := Nat.mul_lt_mul'' ha hb
      _ = 2 ^ 64 := by norm_num
  simp only [mul64, BitVec.toNat_mul, BitVec.toNat_setWidth]
  rw [Nat.mod_eq_of_lt (show a.toNat < 2 ^ 64 by omega), Nat.mod_eq_of_lt (show b.toNat < 2 ^ 64 by omega),
    Nat.mod_eq_of_lt h]

theorem mask26_toNat (a : Word) : (a &&& mask26).toNat = a.toNat % 2 ^ 26 := by
  rw [BitVec.toNat_and]
  exact Nat.and_two_pow_sub_one_eq_mod a.toNat 26

theorem lowDigit_toNat (d : DWord) : (lowDigit d).toNat = d.toNat % 2 ^ 26 := by
  have h : (d &&& mask26D).toNat = d.toNat % 2 ^ 26 := by
    rw [BitVec.toNat_and]
    exact Nat.and_two_pow_sub_one_eq_mod d.toNat 26
  rw [lowDigit, BitVec.toNat_setWidth, h]
  exact Nat.mod_eq_of_lt (by omega)

theorem digit26_toNat (n i : Nat) : (digit26 n i).toNat = n / 2 ^ (26 * i) % 2 ^ 26 := by
  rw [digit26, BitVec.toNat_ofNat, Nat.shiftRight_eq_div_pow]
  exact Nat.mod_eq_of_lt (by omega)

/-! ### The two identities behind the limb multiplication, on natural numbers -/

theorem p1305_eq : p1305 = 1361129467683753853853498429727072845819 := by decide

/-- The product of two five-digit numbers is the five column sums of R200, up to a multiple of `P1305`: a term of weight
`2^(26 (i + j))` with `i + j ≥ 5` moves down by `2^130` and takes the factor 5. -/
theorem columns_identity (h0 h1 h2 h3 h4 r0 r1 r2 r3 r4 : Nat) :
    (h0 + h1 * 2 ^ 26 + h2 * 2 ^ 52 + h3 * 2 ^ 78 + h4 * 2 ^ 104) *
        (r0 + r1 * 2 ^ 26 + r2 * 2 ^ 52 + r3 * 2 ^ 78 + r4 * 2 ^ 104) =
      ((h0 * r0 + h1 * (5 * r4) + h2 * (5 * r3) + h3 * (5 * r2) + h4 * (5 * r1)) +
        (h0 * r1 + h1 * r0 + h2 * (5 * r4) + h3 * (5 * r3) + h4 * (5 * r2)) * 2 ^ 26 +
        (h0 * r2 + h1 * r1 + h2 * r0 + h3 * (5 * r4) + h4 * (5 * r3)) * 2 ^ 52 +
        (h0 * r3 + h1 * r2 + h2 * r1 + h3 * r0 + h4 * (5 * r4)) * 2 ^ 78 +
        (h0 * r4 + h1 * r3 + h2 * r2 + h3 * r1 + h4 * r0) * 2 ^ 104) +
      p1305 * (h1 * r4 + h2 * r3 + h3 * r2 + h4 * r1 + (h2 * r4 + h3 * r3 + h4 * r2) * 2 ^ 26 +
        (h3 * r4 + h4 * r3) * 2 ^ 52 + h4 * r4 * 2 ^ 78) := by
  rw [p1305_eq]; ring

/-- The carry pass of R201 keeps the value, up to a multiple of `P1305`. -/
theorem carry_identity {d0 d1 d2 d3 d4 e1 e2 e3 e4 h0 : Nat} (h1 : e1 = d1 + d0 / 2 ^ 26) (h2 : e2 = d2 + e1 / 2 ^ 26)
    (h3 : e3 = d3 + e2 / 2 ^ 26) (h4 : e4 = d4 + e3 / 2 ^ 26) (h5 : h0 = d0 % 2 ^ 26 + 5 * (e4 / 2 ^ 26)) :
    (h0 % 2 ^ 26 + (e1 % 2 ^ 26 + h0 / 2 ^ 26) * 2 ^ 26 + e2 % 2 ^ 26 * 2 ^ 52 + e3 % 2 ^ 26 * 2 ^ 78 +
        e4 % 2 ^ 26 * 2 ^ 104) + p1305 * (e4 / 2 ^ 26) =
      d0 + d1 * 2 ^ 26 + d2 * 2 ^ 52 + d3 * 2 ^ 78 + d4 * 2 ^ 104 := by
  rw [p1305_eq]
  omega

end Sys2Proof.Machine
end

