-- ==== Sys2Proof/Laws/Block.lean ====
section
/-!
SUPPORT. What one block-function invocation leaves in the registers of the Word-Matrix Core: the value `ChaCha20Block` gives, and
nothing of what the registers held before.
-/

namespace Sys2Proof.Machine

@[simp] theorem serialize_length (x : StateMatrix) : (serialize x).length = 64 := by
  simp [serialize, List.length_flatMap]

@[simp] theorem chaCha20Block_length (key nonce : List Byte) (ctr : Word) : (chaCha20Block key nonce ctr).length = 64 :=
  serialize_length _

/-- The double rounds on the registers change only `X` and the round index. -/
theorem foldl_doubleRound (l : List Nat) (w : WordMatrixCore) :
    (l.foldl (fun w i => { w with x := doubleRound w.x, round := BitVec.ofNat 4 i }) w) =
      { w with x := l.foldl (fun m _ => doubleRound m) w.x,
               round := (l.map (BitVec.ofNat 4)).getLast?.getD w.round } := by
  induction l generalizing w with
  | nil => rfl
  | cons i l ih =>
    rw [List.foldl_cons, ih]
    cases l <;> simp [List.getLast?_cons]

/-- PERMUTE on the registers is PERMUTE on the matrix, and leaves the round index at 9. -/
theorem WordMatrixCore.permute_eq (w : WordMatrixCore) :
    w.permute = { w with x := Machine.permute w.x, round := 9 } := by
  rw [WordMatrixCore.permute, foldl_doubleRound]
  rfl

@[simp] theorem WordMatrixCore.permute_x (w : WordMatrixCore) : w.permute.x = Machine.permute w.x := by
  rw [WordMatrixCore.permute_eq]

/-- The keystream block an invocation leaves in `KS` is `ChaCha20Block` of its inputs (R131). -/
theorem WordMatrixCore.runBlock_ks (w : WordMatrixCore) (key nonce : List Byte) (ctr : Word) :
    (w.runBlock key nonce ctr).ks.toList = chaCha20Block key nonce ctr := by
  simp only [WordMatrixCore.runBlock, WordMatrixCore.serialize, WordMatrixCore.feedForward, WordMatrixCore.permute_eq,
    WordMatrixCore.init, chaCha20Block]
  exact registerFile_toList (serialize_length _)

/-- An invocation writes every register of the unit it uses before it reads it (R35). -/
theorem WordMatrixCore.runBlock_overwrites (w v : WordMatrixCore) (key nonce : List Byte) (ctr : Word) :
    w.runBlock key nonce ctr = v.runBlock key nonce ctr := by
  simp only [WordMatrixCore.runBlock, WordMatrixCore.serialize, WordMatrixCore.feedForward, WordMatrixCore.permute_eq,
    WordMatrixCore.init]

end Sys2Proof.Machine
end

