-- ==== Sys2Proof/Laws/Stream.lean ====
section
/-!
SUPPORT. What the stream engine's run on the registers gives: the value `XorStream`, and which registers it leaves alone.
-/

namespace Sys2Proof.Machine

/-- The value of one chunk. -/
def chunkValue (key nonce : List Byte) (ctr : Word) (buf : List Byte) (j : Nat) : List Byte :=
  xorBytes (chunkAt buf j) (chaCha20Block key nonce (ctr + BitVec.ofNat 32 j))

theorem xorStream_eq (key nonce : List Byte) (ctr : Word) (buf : List Byte) :
    xorStream key nonce ctr buf = (List.range (chunkCount buf.length)).flatMap (chunkValue key nonce ctr buf) := rfl

@[simp] theorem Hidden.streamChunk_snd (key nonce : List Byte) (ctr : Word) (buf : List Byte) (acc : Hidden × List Byte)
    (j : Nat) : (Hidden.streamChunk key nonce ctr buf acc j).2 = acc.2 ++ chunkValue key nonce ctr buf j := by
  simp [Hidden.streamChunk, chunkValue, WordMatrixCore.runBlock_ks]

theorem Hidden.foldl_streamChunk_snd (key nonce : List Byte) (ctr : Word) (buf : List Byte) (l : List Nat)
    (acc : Hidden × List Byte) :
    (l.foldl (Hidden.streamChunk key nonce ctr buf) acc).2 = acc.2 ++ l.flatMap (chunkValue key nonce ctr buf) := by
  induction l generalizing acc with
  | nil => simp
  | cons j l ih => simp [ih, List.append_assoc]

/-- The run's bytes are `XorStream` of its inputs (R152). -/
@[simp] theorem Hidden.runStream_snd (g : Hidden) (key nonce : List Byte) (ctr : Word) (buf : List Byte) :
    (g.runStream key nonce ctr buf).2 = xorStream key nonce ctr buf := by
  rw [Hidden.runStream, Hidden.foldl_streamChunk_snd, xorStream_eq]
  simp

theorem Hidden.foldl_streamChunk_frame (key nonce : List Byte) (ctr : Word) (buf : List Byte) (l : List Nat)
    (acc : Hidden × List Byte) :
    (l.foldl (Hidden.streamChunk key nonce ctr buf) acc).1.xe = acc.1.xe ∧
    (l.foldl (Hidden.streamChunk key nonce ctr buf) acc).1.pa = acc.1.pa ∧
    (l.foldl (Hidden.streamChunk key nonce ctr buf) acc).1.ac = acc.1.ac := by
  induction l generalizing acc with
  | nil => exact ⟨rfl, rfl, rfl⟩
  | cons j l ih => exact ih _

@[simp] theorem Hidden.runStream_xe (g : Hidden) (key nonce : List Byte) (ctr : Word) (buf : List Byte) :
    (g.runStream key nonce ctr buf).1.xe = g.xe := (Hidden.foldl_streamChunk_frame key nonce ctr buf _ _).1

@[simp] theorem Hidden.runStream_pa (g : Hidden) (key nonce : List Byte) (ctr : Word) (buf : List Byte) :
    (g.runStream key nonce ctr buf).1.pa = g.pa := (Hidden.foldl_streamChunk_frame key nonce ctr buf _ _).2.1

@[simp] theorem Hidden.runStream_ac (g : Hidden) (key nonce : List Byte) (ctr : Word) (buf : List Byte) :
    (g.runStream key nonce ctr buf).1.ac = g.ac := (Hidden.foldl_streamChunk_frame key nonce ctr buf _ _).2.2

/-! ### Lengths -/

/-- The chunks of a buffer, in order, hold as many bytes as the buffer. -/
theorem chunkLengths_sum (n k : Nat) :
    ((List.range k).map fun j => min 64 (n - 64 * j)).sum = min (64 * k) n := by
  induction k with
  | zero => simp
  | succ k ih =>
    rw [List.range_succ, List.map_append, List.sum_append, ih]
    simp only [List.map_cons, List.map_nil, List.sum_cons, List.sum_nil]
    omega

theorem chunkValue_length (key nonce : List Byte) (ctr : Word) (buf : List Byte) (j : Nat) :
    (chunkValue key nonce ctr buf j).length = min 64 (buf.length - 64 * j) := by
  simp only [chunkValue, xorBytes_length, chunkAt, slice_length, chaCha20Block_length]
  omega

@[simp] theorem xorStream_length (key nonce : List Byte) (ctr : Word) (buf : List Byte) :
    (xorStream key nonce ctr buf).length = buf.length := by
  rw [xorStream_eq, List.length_flatMap]
  simp only [chunkValue_length]
  rw [chunkLengths_sum]
  simp only [chunkCount]
  omega

end Sys2Proof.Machine
end

