-- ==== Sys2Proof/Laws/XChaCha.lean ====
section
/-!
SUPPORT. What the derivation on the registers gives: `SUBKEY` and `SUBNONCE` hold the value `Derive`.
-/

namespace Sys2Proof.Machine

@[simp] theorem hOut_length (x : StateMatrix) : (hOut x).length = 32 := by
  simp [hOut, List.length_flatMap]

@[simp] theorem hChaCha20_length (key n16 : List Byte) : (hChaCha20 key n16).length = 32 := hOut_length _

theorem subNonce_length {nonce24 : List Byte} (h : nonce24.length = 24) : (subNonce nonce24).length = 12 := by
  simp [subNonce, h]

/-- `SUBKEY` after the derivation (R173). -/
theorem Hidden.runDerive_subkey (g : Hidden) (key nonce24 : List Byte) :
    (g.runDerive key nonce24).xe.subkey.toList = (derive key nonce24).1 := by
  simp only [Hidden.runDerive, WordMatrixCore.runHChaCha, WordMatrixCore.permute_x, WordMatrixCore.hInit, derive, hChaCha20]
  exact registerFile_toList (hOut_length _)

/-- `SUBNONCE` after the derivation from a 24-byte nonce (R173). -/
theorem Hidden.runDerive_subnonce (g : Hidden) (key : List Byte) {nonce24 : List Byte} (h : nonce24.length = 24) :
    (g.runDerive key nonce24).xe.subnonce.toList = (derive key nonce24).2 := by
  simp only [Hidden.runDerive, derive]
  exact registerFile_toList (subNonce_length h)

end Sys2Proof.Machine
end

