-- ==== Sys2Proof/Laws/Aead.lean ====
section
/-!
SUPPORT. What the AEAD runs on the registers give, in terms of the values `TagKey`, `XorStream` and the unit's own tag.
-/

namespace Sys2Proof.Machine

@[simp] theorem tagKey_length (key nonce : List Byte) : (tagKey key nonce).length = 32 := by simp [tagKey]

/-- `OTK` after the tag-key derivation (R231). -/
theorem Hidden.runTagKey_otk (g : Hidden) (key nonce : List Byte) :
    (g.runTagKey key nonce).ac.otk.toList = tagKey key nonce := by
  simp only [Hidden.runTagKey, Hidden.runStream_snd]
  exact registerFile_toList (tagKey_length key nonce)

/-- The tag the limb datapath computes, on whatever registers it starts from (R208). -/
def limbTag (otk msg : List Byte) : List Byte := (Hidden.zero.pa.runMac otk msg).tagx.toList

theorem Hidden.runMac_tagx (g : Hidden) (otk msg : List Byte) : (g.runMac otk msg).pa.tagx.toList = limbTag otk msg :=
  Poly1305Accumulator.runMac_tagx_overwrites _ _ _ _

@[simp] theorem limbTag_length (otk msg : List Byte) : (limbTag otk msg).length = 16 := by simp [limbTag]

/-- `TAGX` after MacAssembly (R233). -/
theorem Hidden.runAssembly_tagx (g : Hidden) (aad ct : List Byte) :
    (g.runAssembly aad ct).pa.tagx.toList = limbTag g.ac.otk.toList (macInput aad ct) :=
  Hidden.runMac_tagx _ _ _

/-- The bytes SEAL writes: the ciphertext and the tag over it (R234). -/
theorem Hidden.runSeal_snd (g : Hidden) (key nonce aad pt : List Byte) :
    (g.runSeal key nonce aad pt).2 =
      xorStream key nonce 1 pt ++ limbTag (tagKey key nonce) (macInput aad (xorStream key nonce 1 pt)) := by
  simp only [Hidden.runSeal, Hidden.enterPhase_pa, Hidden.runAssembly_tagx, Hidden.runStream_snd, Hidden.runStream_ac,
    Hidden.enterPhase_otk, Hidden.runTagKey_otk]

/-- `DIFF` after Verify (R235, R236). -/
theorem Hidden.runVerify_diff (g : Hidden) (key nonce aad sealed : List Byte) :
    (g.runVerify key nonce aad sealed).ac.diff =
      tagDiff (limbTag (tagKey key nonce) (macInput aad (sealedText sealed))) (sealedTag sealed) := by
  simp only [Hidden.runVerify, Hidden.runCompare, Hidden.enterPhase_pa, Hidden.runAssembly_tagx, Hidden.runTagKey_otk]

end Sys2Proof.Machine
end

