-- ==== Sys2Proof/Laws/Memory.lean ====
section
/-!
SUPPORT. The laws of the DATA space: every operation keeps the canonical form, a read after a write to the same place gives the
value written, a write leaves every other place alone; and what the range check says of the populated set.
-/

namespace Sys2Proof.Machine

/-! ### One byte -/

theorem cellsRead_write_other (cells : List Host.Cell) (a x : Nat) (b : Byte) (h : x ≠ a) :
    cellsRead (cellsWrite cells a b) x = cellsRead cells x := by
  induction cells with
  | nil =>
    simp only [cellsWrite]
    split <;> simp [cellsRead, Ne.symm h]
  | cons c rest ih =>
    obtain ⟨k, v⟩ := c
    simp only [cellsWrite]
    split
    · simp only [cellsRead, ih]
    · split
      · rename_i hk
        subst hk
        split <;> simp [cellsRead, Ne.symm h]
      · split <;> simp [cellsRead, Ne.symm h]

/-- Where every listed address lies above `a`, `a` is not listed. -/
theorem cellsRead_of_lt {cells : List Host.Cell} {a : Nat} (h : ∀ c ∈ cells, a < c.1) :
    cellsRead cells a = Config.unlistedByte := by
  induction cells with
  | nil => rfl
  | cons c rest ih =>
    obtain ⟨k, v⟩ := c
    have hk : a < k := h (k, v) (by simp)
    simp only [cellsRead, Nat.ne_of_gt hk, if_false]
    exact ih fun c hc => h c (by simp [hc])

theorem cellsRead_write_same (cells : List Host.Cell) (a : Nat) (b : Byte)
    (hs : cells.Pairwise (fun c d => c.1 < d.1)) : cellsRead (cellsWrite cells a b) a = b := by
  induction cells with
  | nil =>
    simp only [cellsWrite]
    split
    · rename_i h; simp [cellsRead, h]
    · simp [cellsRead]
  | cons c rest ih =>
    obtain ⟨k, v⟩ := c
    obtain ⟨hc, hr⟩ := List.pairwise_cons.mp hs
    simp only [cellsWrite]
    split
    · rename_i h
      simp only [cellsRead, Nat.ne_of_lt h, if_false, ih hr]
    · split
      · rename_i hk
        subst hk
        split
        · rename_i hb
          rw [hb]
          exact cellsRead_of_lt fun d hd => hc d hd
        · simp [cellsRead]
      · rename_i h1 h2
        split
        · rename_i hb
          rw [hb]
          apply cellsRead_of_lt
          intro d hd
          rcases List.mem_cons.mp hd with rfl | hd
          · show a < k; omega
          · have := hc d hd; simp only at this; omega
        · simp [cellsRead]

/-- Every cell after a write is the written one or one from before at another address. -/
theorem mem_cellsWrite {cells : List Host.Cell} {a : Nat} {b : Byte} {c : Host.Cell} (h : c ∈ cellsWrite cells a b) :
    (c = (a, b) ∧ b ≠ Config.unlistedByte) ∨ c ∈ cells := by
  induction cells with
  | nil =>
    simp only [cellsWrite] at h
    split at h
    · simp at h
    · rename_i hb
      simp only [List.mem_singleton] at h
      exact .inl ⟨h, hb⟩
  | cons d rest ih =>
    obtain ⟨k, v⟩ := d
    simp only [cellsWrite] at h
    split at h
    · rcases List.mem_cons.mp h with rfl | h
      · simp
      · rcases ih h with h | h
        · exact .inl h
        · exact .inr (by simp [h])
    · split at h
      · split at h
        · exact .inr (by simp [h])
        · rename_i hb
          rcases List.mem_cons.mp h with rfl | h
          · exact .inl ⟨rfl, hb⟩
          · exact .inr (by simp [h])
      · split at h
        · exact .inr h
        · rename_i hb
          rcases List.mem_cons.mp h with rfl | h
          · exact .inl ⟨rfl, hb⟩
          · exact .inr h

theorem cellsWrite_pairwise (cells : List Host.Cell) (a : Nat) (b : Byte) (hs : cells.Pairwise (fun c d => c.1 < d.1)) :
    (cellsWrite cells a b).Pairwise (fun c d => c.1 < d.1) := by
  induction cells with
  | nil =>
    simp only [cellsWrite]
    split <;> simp
  | cons c rest ih =>
    obtain ⟨k, v⟩ := c
    obtain ⟨hc, hr⟩ := List.pairwise_cons.mp hs
    simp only [cellsWrite]
    split
    · rename_i h
      refine List.pairwise_cons.mpr ⟨?_, ih hr⟩
      intro d hd
      rcases mem_cellsWrite hd with ⟨rfl, -⟩ | hd
      · exact h
      · exact hc d hd
    · split
      · rename_i hk
        subst hk
        split
        · exact hr
        · exact List.pairwise_cons.mpr ⟨hc, hr⟩
      · rename_i h1 h2
        split
        · exact hs
        · refine List.pairwise_cons.mpr ⟨?_, hs⟩
          intro d hd
          rcases List.mem_cons.mp hd with rfl | hd
          · show a < k; omega
          · have := hc d hd; simp only at this ⊢; omega

/-- A byte write keeps the canonical form. -/
theorem Memory.wf_write {m : Memory} (h : m.wf) (a : Nat) (b : Byte) : (m.write a b).wf := by
  refine ⟨cellsWrite_pairwise _ _ _ h.1, ?_⟩
  intro c hc
  rcases mem_cellsWrite hc with ⟨rfl, hb⟩ | hc
  · exact hb
  · exact h.2 c hc

/-- A read after a write to the same address gives the byte written. -/
theorem Memory.read_write_same {m : Memory} (h : m.wf) (a : Nat) (b : Byte) : (m.write a b).read a = b :=
  cellsRead_write_same _ _ _ h.1

/-- A byte write leaves every other address alone. -/
theorem Memory.read_write_other (m : Memory) (a x : Nat) (b : Byte) (h : x ≠ a) : (m.write a b).read x = m.read x :=
  cellsRead_write_other _ _ _ _ h

/-! ### Byte sequences -/

@[simp] theorem Memory.readBytes_length (m : Memory) (a n : Nat) : (m.readBytes a n).length = n := by
  simp [Memory.readBytes]

@[simp] theorem Memory.readBytes_getElem (m : Memory) (a n i : Nat) (h : i < (m.readBytes a n).length) :
    (m.readBytes a n)[i] = m.read (a + i) := by
  simp [Memory.readBytes]

/-- Reads of one range agree in two memories that agree on each of its bytes. -/
theorem Memory.readBytes_congr {m m' : Memory} {a n : Nat} (h : ∀ i, i < n → m'.read (a + i) = m.read (a + i)) :
    m'.readBytes a n = m.readBytes a n := by
  apply List.ext_getElem
  · simp
  · intro i h1 h2
    simpa using h i (by simpa using h1)

@[simp] theorem Memory.writeBytes_nil (m : Memory) (a : Nat) : m.writeBytes a [] = m := rfl

/-- `MemWrite` keeps the canonical form. -/
theorem Memory.wf_writeBytes {m : Memory} (h : m.wf) (a : Nat) (bytes : List Byte) : (m.writeBytes a bytes).wf := by
  induction bytes generalizing m a with
  | nil => exact h
  | cons b bs ih => exact ih (Memory.wf_write h a b) (a + 1)

/-- `MemWrite` leaves every address outside its range alone (R12). -/
theorem Memory.read_writeBytes_outside (m : Memory) (a x : Nat) (bytes : List Byte) (h : x < a ∨ a + bytes.length ≤ x) :
    (m.writeBytes a bytes).read x = m.read x := by
  induction bytes generalizing m a with
  | nil => rfl
  | cons b bs ih =>
    simp only [List.length_cons] at h
    simp only [Memory.writeBytes]
    rw [ih _ _ (by omega), Memory.read_write_other _ _ _ _ (by omega)]

/-- `MemWrite` stores `B[i]` at `addr + i` (R12). -/
theorem Memory.read_writeBytes_inside {m : Memory} (h : m.wf) (a i : Nat) (bytes : List Byte) (hi : i < bytes.length) :
    (m.writeBytes a bytes).read (a + i) = bytes[i] := by
  induction bytes generalizing m a i with
  | nil => simp at hi
  | cons b bs ih =>
    simp only [Memory.writeBytes]
    cases i with
    | zero =>
      rw [Memory.read_writeBytes_outside _ _ _ _ (by omega)]
      simpa using Memory.read_write_same h a b
    | succ i =>
      have := ih (Memory.wf_write h a b) (a + 1) i (by simpa using hi)
      rw [show a + (i + 1) = a + 1 + i by omega]
      simpa using this

/-- Reading a range back gives the bytes written to it. -/
theorem Memory.readBytes_writeBytes {m : Memory} (h : m.wf) (a : Nat) (bytes : List Byte) :
    (m.writeBytes a bytes).readBytes a bytes.length = bytes := by
  apply List.ext_getElem
  · simp
  · intro i h1 h2
    simpa using Memory.read_writeBytes_inside h a i bytes h2

/-- Every cell after `MemWrite` lies in its range or was listed before. -/
theorem Memory.mem_writeBytes {m : Memory} {a : Nat} {bytes : List Byte} {c : Host.Cell}
    (h : c ∈ (m.writeBytes a bytes).cells) : (a ≤ c.1 ∧ c.1 < a + bytes.length) ∨ c ∈ m.cells := by
  induction bytes generalizing m a with
  | nil => exact .inr h
  | cons b bs ih =>
    simp only [List.length_cons]
    rcases ih h with h | h
    · exact .inl (by omega)
    · rcases mem_cellsWrite h with ⟨rfl, -⟩ | h
      · exact .inl ⟨Nat.le_refl _, by simp⟩
      · exact .inr h

/-! ### The range check -/

theorem covers_populated {pop : List Region} {a stop : Nat} (h : covers pop a stop = true) :
    ∀ x, a ≤ x → x < stop → populated pop x = true := by
  induction pop generalizing a with
  | nil =>
    intro x h1 h2
    simp only [covers, decide_eq_true_eq] at h
    omega
  | cons r rest ih =>
    intro x h1 h2
    simp only [covers] at h
    simp only [populated, List.any_cons, Bool.or_eq_true]
    split at h
    · rename_i hr
      by_cases hx : x < r.base + r.size
      · left; simp only [Bool.and_eq_true, decide_eq_true_eq]; omega
      · right; exact ih h x (by omega) h2
    · right; exact ih h x h1 h2

theorem populated_covers {pop : List Region} (hp : pop.Pairwise (fun r q => r.base + r.size < q.base)) {a stop : Nat}
    (h : ∀ x, a ≤ x → x < stop → populated pop x = true) : covers pop a stop = true := by
  induction pop generalizing a with
  | nil =>
    simp only [covers, decide_eq_true_eq]
    by_contra hc
    have := h a (Nat.le_refl a) (by omega)
    simp [populated] at this
  | cons r rest ih =>
    obtain ⟨hr, hrest⟩ := List.pairwise_cons.mp hp
    have above : ∀ x, populated rest x = true → r.base + r.size < x := by
      intro x hx
      simp only [populated, List.any_eq_true, Bool.and_eq_true, decide_eq_true_eq] at hx
      obtain ⟨q, hq, h1, -⟩ := hx
      have := hr q hq
      omega
    have split_cons : ∀ x, populated (r :: rest) x = true →
        (r.base ≤ x ∧ x < r.base + r.size) ∨ populated rest x = true := by
      intro x hx
      simp only [populated, List.any_cons, Bool.or_eq_true, Bool.and_eq_true, decide_eq_true_eq] at hx
      exact hx
    simp only [covers]
    split
    · rename_i hin
      apply ih hrest
      intro x h1 h2
      rcases split_cons x (h x (by omega) h2) with hx | hx
      · omega
      · exact hx
    · rename_i hout
      apply ih hrest
      intro x h1 h2
      rcases split_cons x (h x h1 h2) with hx | hx
      · -- then `a` itself, at or below `x`, lies below the interval, so it is populated by nothing
        exfalso
        rcases split_cons a (h a (Nat.le_refl a) (by omega)) with ha | ha
        · exact hout ha
        · have := above a ha; omega
      · exact hx

/-- A valid range's addresses are all populated. -/
theorem State.validRange_populated {s : State} {a : DWord} {n : Nat} (h : s.validRange a n = true) :
    ∀ i, i < n → populated s.pop (a.toNat + i) = true := by
  intro i hi
  simp only [State.validRange, Bool.or_eq_true, beq_iff_eq, Bool.and_eq_true] at h
  rcases h with h | ⟨-, h⟩
  · omega
  · exact covers_populated h _ (by omega) (by omega)

end Sys2Proof.Machine
end

