-- ==== Sys2Proof/Laws/Ops.lean ====
section
/-!
SUPPORT. What the shared operations of a command can do: the checks in order, the two completions, the register accesses.
-/

namespace Sys2Proof.Machine

@[simp] theorem firstCause_nil : firstCause [] = none := rfl
@[simp] theorem firstCause_true (e : ErrorKind) (rest : List (Bool × ErrorKind)) :
    firstCause ((true, e) :: rest) = some e := rfl
@[simp] theorem firstCause_false (e : ErrorKind) (rest : List (Bool × ErrorKind)) :
    firstCause ((false, e) :: rest) = firstCause rest := rfl

/-- A command ends in one of two ways: with the first error kind whose cause holds, or in its body (R14). -/
theorem State.runCommand_cases (s : State) (causes : List (Bool × ErrorKind)) (body : State → State) :
    (∃ e, firstCause causes = some e ∧ s.runCommand causes body = .next (s.raiseError e)) ∨
    (firstCause causes = none ∧ s.runCommand causes body = .next (body s)) := by
  unfold State.runCommand
  cases h : firstCause causes with
  | none => exact .inr ⟨rfl, rfl⟩
  | some e => exact .inl ⟨e, rfl, rfl⟩

theorem State.runCommand_error {s : State} {causes : List (Bool × ErrorKind)} {e : ErrorKind} (body : State → State)
    (h : firstCause causes = some e) : s.runCommand causes body = .next (s.raiseError e) := by
  simp only [State.runCommand, h]

theorem State.runCommand_body {s : State} {causes : List (Bool × ErrorKind)} (body : State → State)
    (h : firstCause causes = none) : s.runCommand causes body = .next (body s) := by
  simp only [State.runCommand, h]

/-- Error entry satisfies the error contract of a command (R269), whatever the internal register files hold. -/
theorem State.raiseError_fails (s : State) (g : Hidden) (e : ErrorKind) :
    FailsWith (.next ({ s with hidden := g }.raiseError e)) s e.code :=
  ⟨_, rfl, rfl, rfl, rfl, rfl, ⟨rfl, rfl, rfl, rfl, rfl, rfl, rfl, rfl, rfl, rfl, rfl, rfl, rfl, rfl, rfl⟩⟩

/-- The normal end satisfies the completion contract of a command (R98), whatever the internal register files hold. -/
theorem State.succeed_completes {s : State} (h : s.mem.wf) (g : Hidden) (addr : DWord) (bytes : List Byte) {len : Nat}
    (hl : len < 2 ^ 64) : CompletesWith (.next ({ s with hidden := g }.succeed addr bytes len)) s addr bytes len := by
  refine ⟨_, rfl, Memory.readBytes_writeBytes h _ _, ?_, ?_, rfl, rfl,
    ⟨rfl, rfl, rfl, rfl, rfl, rfl, rfl, rfl, rfl, rfl, rfl, rfl, rfl, rfl, rfl⟩⟩
  · intro x hx
    exact Memory.read_writeBytes_outside _ _ _ _ hx
  · simp only [State.succeed_resLen, BitVec.toNat_ofNat]
    exact Nat.mod_eq_of_lt hl

/-- The REG accesses with a meaning (R32). -/
theorem regAccessOk_iff (offset width : Nat) :
    regAccessOk offset width = true ↔ offset % 8 = 0 ∧ offset < 128 ∧ width = 8 := by
  unfold regAccessOk Config.regSlotBytes Config.regSpaceBytes
  simp only [Bool.and_eq_true, decide_eq_true_eq, beq_iff_eq, and_assoc]

/-- The values BUSY, DONE and ERR take in a STATUS word (R29). -/
theorem Status.word_toNat (f : Status) :
    f.word.toNat = f.busy.toNat + 2 * f.done.toNat + 4 * f.err.toNat + 256 * f.ecode.toNat := by
  have hc := f.ecode.isLt
  have h1 := Bool.toNat_lt f.busy
  have h2 := Bool.toNat_lt f.done
  have h3 := Bool.toNat_lt f.err
  rw [Status.word, BitVec.toNat_ofNat]
  exact Nat.mod_eq_of_lt (by omega)

/-- A write to slot `n` changes only the registers of that slot (R31): the DATA space, the populated set, the internal register
files and the HOST's side stay. -/
theorem State.regWrite_frame (s : State) (slot : Nat) (v : DWord) :
    (s.regWrite slot v).mem = s.mem ∧ (s.regWrite slot v).pop = s.pop ∧ (s.regWrite slot v).hidden = s.hidden ∧
    (s.regWrite slot v).held = s.held ∧ (s.regWrite slot v).script = s.script ∧ (s.regWrite slot v).replies = s.replies ∧
    (s.regWrite slot v).schedule = s.schedule := by
  unfold State.regWrite
  split <;> exact ⟨rfl, rfl, rfl, rfl, rfl, rfl, rfl⟩

/-- A write to any slot but CMD leaves STATUS, RES_LEN and PEND alone (R29, R30, R33). -/
theorem State.regWrite_status (s : State) {slot : Nat} (v : DWord) (h : slot ≠ 0) :
    (s.regWrite slot v).status = s.status ∧ (s.regWrite slot v).resLen = s.resLen ∧
    (s.regWrite slot v).pend = s.pend := by
  unfold State.regWrite
  split <;> first | exact absurd rfl h | exact ⟨rfl, rfl, rfl⟩

end Sys2Proof.Machine
end

