-- ==== Sys2Proof/Laws/Commands.lean ====
section
/-!
SUPPORT. What a command can do, said once for all nine: it raises an error kind, or it writes one valid range; either way it
leaves the operands, and the HOST's side, as they were.
-/

namespace Sys2Proof.Machine

/-! ### Ranges -/

/-- The walk over the populated intervals ends no earlier from a later start, and covers every earlier end. -/
theorem covers_mono {pop : List Region} {a a' stop stop' : Nat} (ha : a ≤ a') (hs : stop' ≤ stop)
    (h : covers pop a stop = true) : covers pop a' stop' = true := by
  induction pop generalizing a a' with
  | nil => simp only [covers, decide_eq_true_eq] at h ⊢; omega
  | cons r rest ih =>
    simp only [covers] at h ⊢
    split at h <;> split
    · exact ih (Nat.le_refl _) h
    · exact ih (by omega) h
    · exact ih (by omega) h
    · exact ih ha h

/-- A range inside a valid range is valid. -/
theorem State.validRange_inside {s : State} {a b : DWord} {n m : Nat} (h : s.validRange a n = true)
    (ha : a.toNat ≤ b.toNat) (hb : b.toNat + m ≤ a.toNat + n) : s.validRange b m = true := by
  simp only [State.validRange, Bool.or_eq_true, beq_iff_eq, Bool.and_eq_true, decide_eq_true_eq] at h ⊢
  rcases h with h | ⟨h1, h2⟩
  · left; omega
  · exact .inr ⟨by omega, covers_mono ha hb h2⟩

theorem State.badRange_false {s : State} {ranges : List (DWord × Nat)} (h : s.badRange ranges = false) :
    ∀ r ∈ ranges, s.validRange r.1 r.2 = true := by
  simpa [State.badRange] using h

/-! ### The checks that passed -/

theorem firstCause_none {causes : List (Bool × ErrorKind)} (h : firstCause causes = none) : ∀ c ∈ causes, c.1 = false := by
  simpa [firstCause] using h

/-! ### Each command as its checks and its body -/

theorem exec_block (s : State) : exec .block s = s.runCommand s.blockCauses State.blockBody := rfl
theorem exec_xor (s : State) : exec .xor s = s.runCommand s.xorCauses State.xorBody := rfl
theorem exec_derive (s : State) : exec .derive s = s.runCommand s.deriveCauses State.deriveBody := rfl
theorem exec_xxor (s : State) : exec .xxor s = s.runCommand s.xxorCauses State.xxorBody := rfl
theorem exec_mac (s : State) : exec .mac s = s.runCommand s.macCauses State.macBody := rfl
theorem exec_sealCmd (s : State) : exec .sealCmd s = s.beginAead.runCommand s.sealCauses State.sealBody := rfl
theorem exec_openCmd (s : State) : exec .openCmd s = s.beginAead.runCommand s.openCauses State.openBody := rfl
theorem exec_xseal (s : State) : exec .xseal s = s.beginAead.runCommand s.xsealCauses State.xsealBody := rfl
theorem exec_xopen (s : State) : exec .xopen s = s.beginAead.runCommand s.xopenCauses State.xopenBody := rfl

/-! ### One command -/

/-- The two ways a command ends from `s`: error entry, or `bytes` stored at the head of the range it may write. -/
def EndsWithin (o : Host.Outcome State Fault Refusal) (s : State) (addr : DWord) (n : Nat) : Prop :=
  (∃ e g, o = .next ({ s with hidden := g }.raiseError e)) ∨
  ∃ g bytes, bytes.length = n ∧ s.validRange addr n = true ∧
    ∃ len, o = .next ({ s with hidden := g }.succeed addr bytes len)

theorem State.runCommand_endsWithin {s : State} {causes : List (Bool × ErrorKind)} {body : State → State} {addr : DWord} {n : Nat}
    (h : firstCause causes = none → EndsWithin (.next (body s)) s addr n) : EndsWithin (s.runCommand causes body) s addr n := by
  rcases State.runCommand_cases s causes body with ⟨e, -, he⟩ | ⟨hc, hb⟩
  · exact .inl ⟨e, s.hidden, he⟩
  · rw [hb]; exact h hc

/-- The same of a command that first enters the phase KeySetup. -/
theorem State.beginAead_endsWithin {s : State} {causes : List (Bool × ErrorKind)} {body : State → State} {addr : DWord} {n : Nat}
    (h : firstCause causes = none → EndsWithin (.next (body s.beginAead)) s.beginAead addr n) :
    EndsWithin (s.beginAead.runCommand causes body) s addr n := by
  rcases State.runCommand_endsWithin h with ⟨e, g, he⟩ | ⟨g, bytes, hl, hv, len, hb⟩
  · exact .inl ⟨e, g, he⟩
  · exact .inr ⟨g, bytes, hl, hv, len, hb⟩

theorem State.sealWith_endsWithin (s : State) (g : Hidden) (key nonce : List Byte)
    (hv : s.validRange s.bufAddr (s.bufLen.toNat + 16) = true) :
    EndsWithin (.next (s.sealWith g key nonce)) s s.bufAddr (s.bufLen.toNat + 16) :=
  .inr ⟨_, _, by simp [Hidden.runSeal_snd, State.buf], hv, _, rfl⟩

theorem State.openWith_endsWithin (s : State) (g : Hidden) (key nonce : List Byte)
    (hv : s.validRange s.bufAddr s.bufLen.toNat = true) :
    EndsWithin (.next (s.openWith g key nonce)) s s.bufAddr (s.bufLen.toNat - 16) := by
  simp only [State.openWith]
  split
  · exact .inr ⟨_, _, by simp [sealedText, State.buf], State.validRange_inside hv (Nat.le_refl _) (by omega), _, rfl⟩
  · exact .inl ⟨_, _, rfl⟩

/-- Every command ends in error entry, or stores as many bytes as its row of R38 says at a range that is valid. -/
theorem exec_endsWithin (i : Instr) (s : State) : EndsWithin (exec i s) s (writtenRange i s).1 (writtenRange i s).2 := by
  cases i with
  | block =>
    refine State.runCommand_endsWithin fun h => .inr ⟨_, _, ?_, ?_, _, rfl⟩
    · simp [writtenRange]
    · exact State.badRange_false (firstCause_none h (s.badRange s.blockRanges, .bufferFault) (by simp [State.blockCauses]))
        (s.outAddr, 64) (by simp [State.blockRanges])
  | xor =>
    refine State.runCommand_endsWithin fun h => .inr ⟨_, _, ?_, ?_, _, rfl⟩
    · simp [State.buf, writtenRange]
    · exact State.badRange_false (firstCause_none h (s.badRange s.xorRanges, .bufferFault) (by simp [State.xorCauses]))
        (s.bufAddr, s.bufLen.toNat) (by simp [State.xorRanges])
  | derive =>
    refine State.runCommand_endsWithin fun h => .inr ⟨_, _, ?_, ?_, _, rfl⟩
    · simp [writtenRange]
    · exact State.badRange_false (firstCause_none h (s.badRange s.deriveRanges, .bufferFault) (by simp [State.deriveCauses]))
        (s.outAddr, 44) (by simp [State.deriveRanges])
  | xxor =>
    refine State.runCommand_endsWithin fun h => .inr ⟨_, _, ?_, ?_, _, rfl⟩
    · simp [State.buf, writtenRange]
    · exact State.badRange_false (firstCause_none h (s.badRange s.xxorRanges, .bufferFault) (by simp [State.xxorCauses]))
        (s.bufAddr, s.bufLen.toNat) (by simp [State.xxorRanges])
  | mac =>
    refine State.runCommand_endsWithin fun h => .inr ⟨_, _, ?_, ?_, _, rfl⟩
    · simp [writtenRange]
    · exact State.badRange_false (firstCause_none h (s.badRange s.macRanges, .bufferFault) (by simp [State.macCauses]))
        (s.outAddr, 16) (by simp [State.macRanges])
  | sealCmd =>
    refine State.beginAead_endsWithin fun h => State.sealWith_endsWithin _ _ _ _ ?_
    exact State.badRange_false (firstCause_none h (s.badRange (s.sealRanges 12), .bufferFault) (by simp [State.sealCauses]))
      (s.bufAddr, s.bufLen.toNat + 16) (by simp [State.sealRanges])
  | openCmd =>
    refine State.beginAead_endsWithin fun h => State.openWith_endsWithin _ _ _ _ ?_
    exact State.badRange_false (firstCause_none h (s.badRange (s.openRanges 12), .bufferFault) (by simp [State.openCauses]))
      (s.bufAddr, s.bufLen.toNat) (by simp [State.openRanges])
  | xseal =>
    refine State.beginAead_endsWithin fun h => ?_
    simp only [State.xsealBody]
    refine State.sealWith_endsWithin _ _ _ _ ?_
    exact State.badRange_false (firstCause_none h (s.badRange (s.sealRanges 24), .bufferFault) (by simp [State.xsealCauses]))
      (s.bufAddr, s.bufLen.toNat + 16) (by simp [State.sealRanges])
  | xopen =>
    refine State.beginAead_endsWithin fun h => ?_
    simp only [State.xopenBody]
    refine State.openWith_endsWithin _ _ _ _ ?_
    exact State.badRange_false (firstCause_none h (s.badRange (s.openRanges 24), .bufferFault) (by simp [State.xopenCauses]))
      (s.bufAddr, s.bufLen.toNat) (by simp [State.openRanges])

end Sys2Proof.Machine
end

