-- ==== Sys2Proof/Laws/PerInstr.lean ====
section
/-!
SUPPORT. Statements made of every command one by one: the family RoundTrip, the encoding of a command read back.
-/

namespace Sys2Proof.Laws.RoundTrip

/-- The one word of a well-formed command has the field `zero` 0 and decodes to that command; the opcode map lists it (R90,
R91). -/
def Statement (i : Instr) : Prop :=
  i.wf = true ∧ (CommandWord.ofWord (encode i)).wf = true ∧ decode (encode i) = .ok i ∧
    ⟨i, encode i, 0xFFFFFFFF⟩ ∈ opcodeMap

theorem block : Statement .block := ⟨rfl, by decide, by decide, by decide⟩
theorem xor : Statement .xor := ⟨rfl, by decide, by decide, by decide⟩
theorem derive : Statement .derive := ⟨rfl, by decide, by decide, by decide⟩
theorem xxor : Statement .xxor := ⟨rfl, by decide, by decide, by decide⟩
theorem mac : Statement .mac := ⟨rfl, by decide, by decide, by decide⟩
theorem sealCmd : Statement .sealCmd := ⟨rfl, by decide, by decide, by decide⟩
theorem openCmd : Statement .openCmd := ⟨rfl, by decide, by decide, by decide⟩
theorem xseal : Statement .xseal := ⟨rfl, by decide, by decide, by decide⟩
theorem xopen : Statement .xopen := ⟨rfl, by decide, by decide, by decide⟩

end Sys2Proof.Laws.RoundTrip
end

