-- ==== Sys2Proof/Laws/Step.lean ====
section
/-!
SUPPORT. What a HOST access, a turn and a step can do: one inversion lemma for each.
-/

namespace Sys2Proof.Machine

/-- A HOST access that is performed stores a valid range, writes one register slot, or records a reply; nothing else. -/
theorem hostPerform_next {a : HostAccess} {s t : State} (h : hostPerform a s = .next t) :
    (∃ addr bytes, s.validRange addr bytes.length = true ∧ t = { s with mem := s.mem.writeBytes addr.toNat bytes }) ∨
    (∃ slot v, slot < 16 ∧ t = s.regWrite slot v) ∨ (∃ r, t = s.reply r) := by
  cases a with
  | regWrite offset width v =>
    simp only [hostPerform] at h
    split at h
    · rename_i hok
      refine .inr (.inl ⟨_, v, ?_, (Host.Outcome.next.inj h).symm⟩)
      unfold regAccessOk Config.regSlotBytes Config.regSpaceBytes at hok
      simp only [Bool.and_eq_true, decide_eq_true_eq, beq_iff_eq] at hok
      unfold Config.regSlotBytes
      omega
    · cases h
  | regRead offset width =>
    simp only [hostPerform] at h
    split at h
    · exact .inr (.inr ⟨_, (Host.Outcome.next.inj h).symm⟩)
    · cases h
  | dataWrite addr size v =>
    simp only [hostPerform, State.hostStore] at h
    split at h
    · split at h
      · rename_i hv
        exact .inl ⟨addr, _, hv, (Host.Outcome.next.inj h).symm⟩
      · cases h
    · cases h
  | dataRead addr size =>
    simp only [hostPerform] at h
    split at h
    · exact .inr (.inr ⟨_, (Host.Outcome.next.inj h).symm⟩)
    · cases h
  | bytesWrite addr bytes =>
    simp only [hostPerform, State.hostStore] at h
    split at h
    · rename_i hv
      exact .inl ⟨addr, bytes, hv, (Host.Outcome.next.inj h).symm⟩
    · cases h
  | bytesRead addr count =>
    simp only [hostPerform] at h
    split at h
    · exact .inr (.inr ⟨_, (Host.Outcome.next.inj h).symm⟩)
    · cases h

/-- One turn of the HOST changes nothing, holds an access, or performs one; while BUSY is 1 it performs only a read of STATUS
(R69). -/
theorem hostTurn_cases (s : State) :
    hostTurn s = .next s ∨
    (s.status.busy = true ∧ ∃ a rest, s.script = a :: rest ∧ isStatusRead a = false ∧
      hostTurn s = .next { s with script := rest, held := s.held ++ [a] }) ∨
    (s.status.busy = true ∧ ∃ a rest, s.script = a :: rest ∧ isStatusRead a = true ∧
      hostTurn s = hostPerform a { s with script := rest }) ∨
    (s.status.busy = false ∧ ∃ a rest, s.held = a :: rest ∧ hostTurn s = hostPerform a { s with held := rest }) ∨
    (s.status.busy = false ∧ s.held = [] ∧ ∃ a rest, s.script = a :: rest ∧
      hostTurn s = hostPerform a { s with script := rest }) := by
  unfold hostTurn
  cases hb : s.status.busy with
  | true =>
    simp only [if_true, hostTurnBusy]
    cases hs : s.script with
    | nil => exact .inl rfl
    | cons a rest =>
      cases ha : isStatusRead a with
      | true => exact .inr (.inr (.inl ⟨trivial, a, rest, rfl, ha, by simp [ha]⟩))
      | false => exact .inr (.inl ⟨trivial, a, rest, rfl, ha, by simp [ha]⟩)
  | false =>
    simp only [Bool.false_eq_true, if_false, hostTurnIdle]
    cases hh : s.held with
    | cons a rest => exact .inr (.inr (.inr (.inl ⟨trivial, a, rest, rfl, rfl⟩)))
    | nil =>
      cases hs : s.script with
      | nil => exact .inl rfl
      | cons a rest => exact .inr (.inr (.inr (.inr ⟨trivial, rfl, a, rest, rfl, rfl⟩)))

/-- A command word completes as a command, or with IllegalCommand (R93, R98). -/
theorem completeWord_cases (w : Word) (s : State) :
    (∃ i, decode w = .ok i ∧ completeWord w s = exec i s) ∨
    ((∃ r, decode w = .error r) ∧ completeWord w s = .next (s.raiseError .illegalCommand)) := by
  unfold completeWord
  cases h : decode w with
  | ok i => exact .inl ⟨i, rfl, rfl⟩
  | error r => exact .inr ⟨⟨r, rfl⟩, rfl⟩

theorem engineTurn_pending {s : State} {w : Word} (h : s.pend = some w) : engineTurn s = completeWord w s := by
  simp only [engineTurn, h]

theorem engineTurn_idle {s : State} (h : s.pend = none) : engineTurn s = .next s := by
  simp only [engineTurn, h]

/-- A step is one turn of one agent, or the reset event (R7, R300). -/
theorem step_cases (s : State) :
    (∃ rest, s.schedule = .engine :: rest ∧ step s = engineTurn { s with schedule := rest }) ∨
    (∃ rest, s.schedule = .host :: rest ∧ step s = hostTurn { s with schedule := rest }) ∨
    (∃ left rest, s.schedule = .reset left :: rest ∧ step s = .next ({ s with schedule := rest }.resetEvent left)) ∨
    (s.schedule = [] ∧ s.pend.isSome = true ∧ step s = engineTurn s) ∨
    (s.schedule = [] ∧ s.pend = none ∧ step s = hostTurn s) := by
  unfold step
  cases hs : s.schedule with
  | nil =>
    cases hp : s.pend with
    | none => exact .inr (.inr (.inr (.inr ⟨rfl, rfl, rfl⟩)))
    | some w => exact .inr (.inr (.inr (.inl ⟨rfl, rfl, rfl⟩)))
  | cons turn rest =>
    cases turn with
    | host => exact .inr (.inl ⟨rest, rfl, rfl⟩)
    | engine => exact .inl ⟨rest, rfl, rfl⟩
    | reset left => exact .inr (.inr (.inl ⟨left, rest, rfl, rfl⟩))

@[simp] theorem core_run_zero (s : State) : Sys2Proof.core.run 0 s = .next s := rfl

/-- A run whose first step answers a next state goes on from that state. -/
theorem core_run_succ {s t : State} (h : step s = .next t) (n : Nat) : Sys2Proof.core.run (n + 1) s = Sys2Proof.core.run n t := by
  have : Sys2Proof.core.step s = .next t := h
  simp only [Host.Core.run, this]

end Sys2Proof.Machine
end

