-- ==== Sys2Proof/Tests/Slice0.lean ====
section
/-!
SUPPORT. Tests and witnesses. Every expected value of a test comes from 95_test_vectors.md (its number stands in the test's
comment) or is written out by hand from the rule the comment names. A witness shows that the hypotheses of the obligation it is
named after can be met together, clause by clause at the values where the clauses meet.
-/

namespace Sys2Proof.Tests

open Sys2Proof Sys2Proof.Machine

/- The kernel evaluations below run one after another, not each in a thread of its own. -/
set_option Elab.async false

/-! ### Small states -/

/-- The layout of the test states: key at 0x000, nonce at 0x020, associated data at 0x040, buffer at 0x100, output at 0x200. -/
def ready (key nonce aad buf : List Byte) (ctr : Word) : State :=
  { State.reset with
    ctr := ctr, keyAddr := 0x000, keyLen := BitVec.ofNat 64 key.length, nonceAddr := 0x020,
    nonceLen := BitVec.ofNat 64 nonce.length, aadAddr := 0x040, aadLen := BitVec.ofNat 64 aad.length, bufAddr := 0x100,
    bufLen := BitVec.ofNat 64 buf.length, outAddr := 0x200,
    mem := (((State.reset.mem.writeBytes 0x000 key).writeBytes 0x020 nonce).writeBytes 0x040 aad).writeBytes 0x100 buf }

/-- What a test looks at: `n` bytes from `a`, RES_LEN and the word STATUS reads as. -/
def result (o : Host.Outcome State Fault Refusal) (a n : Nat) : Option (List Byte × DWord × DWord) :=
  match o with
  | .next t => some (t.mem.readBytes a n, t.resLen, t.status.word)
  | .fault _ => none
  | .refused _ => none

/-- `K01`: the bytes 00 to 1f. -/
def k01 : List Byte := (List.range 32).map (BitVec.ofNat 8)

/-- A state of which only the lengths matter: a key, a nonce of `n` bytes and a buffer of `m` bytes, all set up. -/
def setUp (n m : Nat) : State := ready k01 (zeros n) [1] (zeros m) 0

/-! ### Decoding: words written out from format C (R90) -/


theorem test_decode_block : decode 0b00000000000000000000000000000001 = .ok .block := by decide

theorem test_decode_xor : decode 0b00000000000000000000000000000010 = .ok .xor := by decide

theorem test_decode_derive : decode 0b00000000000000000000000000000011 = .ok .derive := by decide

theorem test_decode_xxor : decode 0b00000000000000000000000000000100 = .ok .xxor := by decide

theorem test_decode_mac : decode 0b00000000000000000000000000000101 = .ok .mac := by decide

theorem test_decode_sealCmd : decode 0b00000000000000000000000000000110 = .ok .sealCmd := by decide

theorem test_decode_openCmd : decode 0b00000000000000000000000000000111 = .ok .openCmd := by decide

theorem test_decode_xseal : decode 0b00000000000000000000000000001000 = .ok .xseal := by decide

theorem test_decode_xopen : decode 0b00000000000000000000000000001001 = .ok .xopen := by decide


/-! ### WellFormed refuses each kind of ill-formed term -/

/-- R93: a bit of the field `zero` set, with a legal opcode. -/
theorem test_wf_zero_field : (CommandWord.ofWord 0x00000102).wf = false ∧ (CommandWord.ofWord 0x00000102).opcodeOk = true := by
  decide

/-- R93: the opcodes next to the legal ones. -/
theorem test_wf_opcode : (CommandWord.ofWord 0x00000000).wf = false ∧ (CommandWord.ofWord 0x0000000a).wf = false ∧
    (CommandWord.ofWord 0x00000001).wf = true ∧ (CommandWord.ofWord 0x00000009).wf = true := by decide

/-- R32: an offset that is no multiple of 8, one past the last slot, and a 4-byte access. -/
theorem test_wf_reg_access : (HostAccess.regRead 0x0c 8).wf = false ∧ (HostAccess.regRead 0x80 8).wf = false ∧
    (HostAccess.regWrite 0x18 4 0).wf = false ∧ (HostAccess.regWrite 0x78 8 0).wf = true := by decide

/-- R11, R65: a value of nine bits in a one-byte write. -/
theorem test_wf_data_value : (HostAccess.dataWrite 0 .one 0x100).wf = false ∧ (HostAccess.dataWrite 0 .one 0xff).wf = true := by
  decide

/-- The decoder refuses by name what WellFormed refuses. -/
theorem test_decode_illegal : decode 0x00000102 = .error .zeroFieldNotZero ∧ decode 0x0000000a = .error .opcodeNotAssigned ∧
    decode 0x00000000 = .error .opcodeNotAssigned := by decide

/-! ### The nine commands -/

/-- Vector B1 (RFC 8439 §2.3.2): key K01, nonce N232, counter 1. -/
theorem test_block : result (execBlock (ready k01 [0x00, 0x00, 0x00, 0x09, 0x00, 0x00, 0x00, 0x4a, 0x00, 0x00, 0x00, 0x00] [] [] 1)) 0x200 64 =
    some ([0x10, 0xf1, 0xe7, 0xe4, 0xd1, 0x3b, 0x59, 0x15, 0x50, 0x0f, 0xdd, 0x1f, 0xa3, 0x20, 0x71, 0xc4,
      0xc7, 0xd1, 0xf4, 0xc7, 0x33, 0xc0, 0x68, 0x03, 0x04, 0x22, 0xaa, 0x9a, 0xc3, 0xd4, 0x6c, 0x4e,
      0xd2, 0x82, 0x64, 0x46, 0x07, 0x9f, 0xaa, 0x09, 0x14, 0xc2, 0xd7, 0x05, 0xd9, 0x8b, 0x02, 0xa2,
      0xb5, 0x12, 0x9c, 0xd1, 0xde, 0x16, 0x4e, 0xb9, 0xcb, 0xd0, 0x83, 0xe8, 0xa2, 0x50, 0x3c, 0x4e], 64, 0x0002) := by decide +kernel

/-- Vector S3: 65 zero bytes under the zero key and nonce from counter 0. The last byte comes from the second block. -/
theorem test_xor : result (execXor (ready (zeros 32) (zeros 12) [] (zeros 65) 0)) 0x100 65 =
    some ([0x76, 0xb8, 0xe0, 0xad, 0xa0, 0xf1, 0x3d, 0x90, 0x40, 0x5d, 0x6a, 0xe5, 0x53, 0x86, 0xbd, 0x28,
      0xbd, 0xd2, 0x19, 0xb8, 0xa0, 0x8d, 0xed, 0x1a, 0xa8, 0x36, 0xef, 0xcc, 0x8b, 0x77, 0x0d, 0xc7,
      0xda, 0x41, 0x59, 0x7c, 0x51, 0x57, 0x48, 0x8d, 0x77, 0x24, 0xe0, 0x3f, 0xb8, 0xd8, 0x4a, 0x37,
      0x6a, 0x43, 0xb8, 0xf4, 0x15, 0x18, 0xa1, 0x1c, 0xc3, 0x87, 0xb6, 0x69, 0xb2, 0xee, 0x65, 0x86,
      0x9f], 65, 0x0002) := by decide +kernel

/-- Vector X1: the derivation of key K01. -/
theorem test_derive : result (execDerive (ready k01 [0x00, 0x00, 0x00, 0x09, 0x00, 0x00, 0x00, 0x4a, 0x00, 0x00, 0x00, 0x00, 0x31, 0x41, 0x59, 0x27,
      0x01, 0x02, 0x03, 0x04, 0x05, 0x06, 0x07, 0x08] [] [] 0)) 0x200 44 =
    some ([0x82, 0x41, 0x3b, 0x42, 0x27, 0xb2, 0x7b, 0xfe, 0xd3, 0x0e, 0x42, 0x50, 0x8a, 0x87, 0x7d, 0x73,
      0xa0, 0xf9, 0xe4, 0xd5, 0x8a, 0x74, 0xa8, 0x53, 0xc1, 0x2e, 0xc4, 0x13, 0x26, 0xd3, 0xec, 0xdc,
      0x00, 0x00, 0x00, 0x00, 0x01, 0x02, 0x03, 0x04, 0x05, 0x06, 0x07, 0x08], 44, 0x0002) := by decide +kernel

/-- Vector X2: 20 zero bytes under the same key and nonce. -/
theorem test_xxor : result (execXxor (ready k01 [0x00, 0x00, 0x00, 0x09, 0x00, 0x00, 0x00, 0x4a, 0x00, 0x00, 0x00, 0x00, 0x31, 0x41, 0x59, 0x27,
      0x01, 0x02, 0x03, 0x04, 0x05, 0x06, 0x07, 0x08] [] (zeros 20) 0)) 0x100 20 =
    some ([0x3c, 0x0a, 0xb3, 0x24, 0xeb, 0x30, 0x3e, 0x90, 0x9c, 0x46, 0x1a, 0x0b, 0xcc, 0xde, 0x87, 0x06,
      0xbe, 0x74, 0x0f, 0xef], 20, 0x0002) := by decide +kernel

/-- Vector P1 (RFC 8439 §2.5.2): three blocks, the last of two bytes. -/
theorem test_mac : result (execMac (ready [0x85, 0xd6, 0xbe, 0x78, 0x57, 0x55, 0x6d, 0x33, 0x7f, 0x44, 0x52, 0xfe, 0x42, 0xd5, 0x06, 0xa8,
      0x01, 0x03, 0x80, 0x8a, 0xfb, 0x0d, 0xb2, 0xfd, 0x4a, 0xbf, 0xf6, 0xaf, 0x41, 0x49, 0xf5, 0x1b] [] [] [0x43, 0x72, 0x79, 0x70, 0x74, 0x6f, 0x67, 0x72, 0x61, 0x70, 0x68, 0x69, 0x63, 0x20, 0x46, 0x6f,
      0x72, 0x75, 0x6d, 0x20, 0x52, 0x65, 0x73, 0x65, 0x61, 0x72, 0x63, 0x68, 0x20, 0x47, 0x72, 0x6f,
      0x75, 0x70] 0)) 0x200 16 =
    some ([0xa8, 0x06, 0x1d, 0xc1, 0x30, 0x51, 0x36, 0xc6, 0xc2, 0x2b, 0x8b, 0xaf, 0x0c, 0x01, 0x27, 0xa9], 16, 0x0002) := by decide +kernel

/-- Vector P14: a value at or above `P1305` before the final subtraction. -/
theorem test_mac_reduces : result (execMac (ready (1 :: zeros 31) [] []
      (List.replicate 16 0xff ++ 0xfc :: List.replicate 15 0xff) 0)) 0x200 16 =
    some (zeros 16, 16, 0x0002) := by decide +kernel

/-- Vector A10: key K01, zero nonce, associated data 01, plaintext abc. CTR is ignored. -/
theorem test_seal : result (execSeal (ready k01 (zeros 12) [1] [0x61, 0x62, 0x63] 7)) 0x100 19 =
    some ([0x79, 0xda, 0x21, 0x43, 0x18, 0x7a, 0xc9, 0xaf, 0x30, 0xcf, 0xb0, 0x68, 0xb8, 0x7c, 0xdb, 0x03,
      0x8b, 0x83, 0xf6], 19, 0x0002) := by decide +kernel

/-- Vector A10 read backwards (R242 (a)): OPEN gives abc in place and leaves the tag bytes. -/
theorem test_open : result (execOpen (ready k01 (zeros 12) [1] [0x79, 0xda, 0x21, 0x43, 0x18, 0x7a, 0xc9, 0xaf, 0x30, 0xcf, 0xb0, 0x68, 0xb8, 0x7c, 0xdb, 0x03,
      0x8b, 0x83, 0xf6] 7)) 0x100 19 =
    some ([0x61, 0x62, 0x63, 0x43, 0x18, 0x7a, 0xc9, 0xaf, 0x30, 0xcf, 0xb0, 0x68, 0xb8, 0x7c, 0xdb, 0x03,
      0x8b, 0x83, 0xf6], 3, 0x0002) := by decide +kernel

/-- Vector A11: sixteen zero bytes are not the tag of the empty plaintext. -/
theorem test_open_rejects : result (execOpen (setUp 12 16)) 0x100 16 = some (zeros 16, 0, 0x0506) := by decide +kernel

/-- Vector A8: XSEAL of nothing under the zero key and nonce. -/
theorem test_xseal : result (execXseal (ready (zeros 32) (zeros 24) [] [] 7)) 0x100 16 =
    some ([0x8f, 0x3b, 0x94, 0x5a, 0x51, 0x90, 0x6d, 0xc8, 0x60, 0x0d, 0xe9, 0xf8, 0x96, 0x2d, 0x00, 0xe6], 16, 0x0002) := by decide +kernel

/-- Vector A8 read backwards: XOPEN of it ends normally with nothing written. -/
theorem test_xopen : result (execXopen (ready (zeros 32) (zeros 24) [] [0x8f, 0x3b, 0x94, 0x5a, 0x51, 0x90, 0x6d, 0xc8, 0x60, 0x0d, 0xe9, 0xf8, 0x96, 0x2d, 0x00, 0xe6] 7)) 0x100 16 =
    some ([0x8f, 0x3b, 0x94, 0x5a, 0x51, 0x90, 0x6d, 0xc8, 0x60, 0x0d, 0xe9, 0xf8, 0x96, 0x2d, 0x00, 0xe6], 0, 0x0002) := by decide +kernel

/-! ### Errors (95_test_vectors.md, section 7) -/

/-- E1, E8 and E12: XOR with a key of 31 bytes, with an X nonce, and with a counter that would wrap. -/
theorem test_xor_errors :
    result (execXor { setUp 12 65 with keyLen := 31 }) 0 0 = some ([], 0, 0x0106) ∧
    result (execXor (setUp 24 65)) 0 0 = some ([], 0, 0x0206) ∧
    result (execXor { setUp 12 65 with ctr := 0xffffffff }) 0 0 = some ([], 0, 0x0406) := by decide +kernel

/-- E10, E17: OPEN of 15 bytes, and of one byte more than the limit allows. -/
theorem test_open_errors :
    result (execOpen { setUp 12 0 with bufLen := 15 }) 0 0 = some ([], 0, 0x0306) ∧
    result (execOpen { setUp 12 0 with bufLen := 274877906833 }) 0 0 = some ([], 0, 0x0406) := by decide +kernel

/-- E15, E16: SEAL of one byte more than the limit, and of the limit itself, which then lacks populated bytes. -/
theorem test_seal_errors :
    result (execSeal { setUp 12 0 with bufLen := 274877906817 }) 0 0 = some ([], 0, 0x0406) ∧
    result (execSeal { setUp 12 0 with bufLen := 274877906816 }) 0 0 = some ([], 0, 0x0706) := by decide +kernel

/-- E23: the output range of BLOCK runs one byte past the populated addresses. -/
theorem test_block_buffer_fault : result (execBlock { setUp 12 0 with outAddr := 0xfc1 }) 0 0 = some ([], 0, 0x0706) := by
  decide +kernel

/-- E21, E22: two illegal words, with a key length that would be an error of its own. -/
theorem test_illegal_words :
    result (completeWord 0x00000102 State.reset) 0 0 = some ([], 0, 0x0606) ∧
    result (completeWord 0xffffffff State.reset) 0 0 = some ([], 0, 0x0606) := by decide +kernel

/-- R64: the bytes 01 02 03 04 at four addresses read as one word are 0x04030201. -/
theorem test_host_mixed_width :
    hostPerform (.dataRead 0x10 .four) { State.reset with mem := State.reset.mem.writeBytes 0x10 [1, 2, 3, 4] } =
      .next { State.reset with
        mem := State.reset.mem.writeBytes 0x10 [1, 2, 3, 4], replies := [.data 0x10 0x04030201] } := rfl

/-- R31: CTR takes the low half of its slot, the reserved slot 13 nothing. -/
theorem test_reg_slots : (State.reset.regWrite 3 0xaaaaaaaa55555555).regRead 3 = 0x55555555 ∧
    (State.reset.regWrite 13 1).regRead 13 = 0 := by decide

/-- Vector Q1 (RFC 8439 §2.1.1). -/
theorem test_quarter_round : quarterRound (0x11111111, 0x01020304, 0x9b8d6f43, 0x01234567) =
    (0xea2a92f4, 0xcb1cf8ce, 0x4581472e, 0x5881c4bb) := by decide

/-- The word the host places is the next one that runs: IllegalCommand for 0, InvalidKeyLength for MAC from reset (R301). -/
theorem test_fetch_word :
    result (step (State.reset.withFetchWord 32 0x00000000)) 0 0 = some ([], 0, 0x0606) ∧
    result (step (State.reset.withFetchWord 32 0x00000005)) 0 0 = some ([], 0, 0x0106) ∧
    decodeTableWord 32 0x00000005 = some .mac := by decide +kernel

/-! ### Witnesses: issue, completion, the HOST's side, reset -/

/-- A state in which the word `w` is pending. -/
def pendingOn (w : Word) : State := (setUp 12 4).issue w

theorem pendingOn_inv (w : Word) : (pendingOn w).Inv :=
  ⟨show (setUp 12 4).mem.wf by decide +kernel, show popWf (setUp 12 4).pop by decide,
    show ∀ c ∈ (setUp 12 4).mem.cells, populated (setUp 12 4).pop c.1 = true by decide +kernel, rfl, .pending, fun _ => rfl,
    show ∀ a ∈ (setUp 12 4).held, isStatusRead a = false by decide⟩

/-- The same with other accesses still to come and another schedule. -/
theorem pendingOn_inv_with (w : Word) (script : List HostAccess) (schedule : List Turn) :
    ({ pendingOn w with script := script, schedule := schedule } : State).Inv :=
  have h := pendingOn_inv w
  ⟨h.memWf, h.popWf, h.cellsPopulated, h.busyIffPending, h.statusLegal, h.resLenZero, h.heldNotStatus⟩

theorem witness_StepRunsThePendingCommand :
    (pendingOn 2).pend = some 2 ∧ decode 2 = .ok .xor ∧ (pendingOn 2).schedule = [] ∧
    ({ pendingOn 2 with schedule := [.engine, .host] } : State).schedule = .engine :: [.host] := by decide

theorem witness_IllegalWordCompletesWithIllegalCommand :
    (∃ (s : State) (w : Word), s.pend = some w ∧ w.toNat = 0) ∧ (∃ (s : State) (w : Word), s.pend = some w ∧ w.toNat = 10) ∧
    (∃ (s : State) (w : Word), s.pend = some w ∧ w.toNat = 0x102) :=
  ⟨⟨pendingOn 0, 0, by decide⟩, ⟨pendingOn 10, 10, by decide⟩, ⟨pendingOn 0x102, 0x102, by decide⟩⟩

theorem witness_WriteToCmdIssues : ∃ (s : State) (v : DWord) (rest : List HostAccess),
    s.status.busy = false ∧ s.held = [] ∧ s.script = .regWrite 0x00 8 v :: rest :=
  ⟨{ setUp 12 4 with script := [.regWrite 0x00 8 0xffffffff00000001] }, _, _, by decide, by decide, rfl⟩

theorem witness_ResultDependsOnOperandsAndDataOnly : ∃ s u : State, s ≠ u ∧
    s.ctr = u.ctr ∧ s.keyAddr = u.keyAddr ∧ s.keyLen = u.keyLen ∧ s.nonceAddr = u.nonceAddr ∧ s.nonceLen = u.nonceLen ∧
    s.aadAddr = u.aadAddr ∧ s.aadLen = u.aadLen ∧ s.bufAddr = u.bufAddr ∧ s.bufLen = u.bufLen ∧ s.outAddr = u.outAddr ∧
    s.mem = u.mem ∧ s.pop = u.pop :=
  ⟨setUp 12 4, { pendingOn 1 with hidden := { Hidden.zero with se := ⟨7⟩ } }, by decide⟩

theorem witness_BusyHoldsEveryOtherAccess : ∃ (s : State) (a : HostAccess) (rest : List HostAccess),
    s.status.busy = true ∧ s.script = a :: rest ∧ a ≠ .regRead 0x08 8 :=
  ⟨{ pendingOn 1 with script := [.regRead 0x10 8] }, _, _, by decide, rfl, by decide⟩

theorem witness_StatusReadWhileBusyReturnsBusy : ∃ (s : State) (rest : List HostAccess),
    s.Inv ∧ s.status.busy = true ∧ s.script = .regRead 0x08 8 :: rest :=
  ⟨{ pendingOn 1 with script := [.regRead 0x08 8], schedule := [] }, [], pendingOn_inv_with 1 _ _, rfl, rfl⟩

theorem witness_HeldAccessIsPerformedFirst : ∃ (s : State) (a : HostAccess) (rest : List HostAccess),
    s.status.busy = false ∧ s.held = a :: rest :=
  ⟨{ setUp 12 4 with held := [.dataRead 0x100 .four] }, _, _, by decide, rfl⟩

/-- The lowest and the highest slot the statement speaks of. -/
theorem witness_RegisterWriteWhileBusyAppliesAfterCompletion : ∀ slot ∈ [1, 15], ∃ (s : State) (i : Instr) (w : Word) (v : DWord)
    (rest : List HostAccess) (turns : List Turn),
    s.status.busy = true ∧ s.pend = some w ∧ decode w = .ok i ∧ s.held = [] ∧ 1 ≤ slot ∧ slot < 16 ∧
    s.script = .regWrite (8 * slot) 8 v :: rest ∧ s.schedule = .host :: .engine :: .host :: turns := by
  intro slot hs
  refine ⟨{ pendingOn 2 with script := [.regWrite (8 * slot) 8 5], schedule := [.host, .engine, .host] }, .xor, 2, 5, [], [],
    rfl, rfl, by decide, rfl, ?_, ?_, rfl, rfl⟩ <;>
  · simp only [List.mem_cons, List.not_mem_nil, or_false] at hs
    omega

/-- Each clause at the ends of its range of slots. -/
theorem witness_RegisterSlotsReadBack : (∀ slot ∈ [4, 12], 4 ≤ slot ∧ slot ≤ 12 ∧ slot < 16) ∧
    (∀ slot ∈ [0, 13, 15], (slot = 0 ∨ 13 ≤ slot) ∧ slot < 16) ∧
    (∀ slot ∈ [1, 2, 13, 15], (slot = 1 ∨ slot = 2 ∨ 13 ≤ slot) ∧ slot < 16) ∧
    (∀ slot ∈ [1, 15], slot ≠ 0 ∧ slot < 16 ∧ ∃ other, other < 16 ∧ other ≠ slot) :=
  ⟨by decide, by decide, by decide, by decide⟩

theorem witness_RegAccessesAreAlignedEightByteOnly :
    (∀ p ∈ [(4, 8), (128, 8), (8, 4)], ¬ (p.1 % 8 = 0 ∧ p.1 < 128 ∧ p.2 = 8)) ∧
    (∀ offset ∈ [0, 120], offset % 8 = 0 ∧ offset < 128) := by decide

/-- One byte of the greatest value at the last populated address, and eight bytes ending there. -/
theorem witness_HostWriteThenReadReturnsTheValue :
    (∃ (s : State) (addr v : DWord), s.mem.wf ∧ v.toNat < 2 ^ (8 * DataSize.one.bytes) ∧
      s.validRange addr DataSize.one.bytes = true) ∧
    (∃ (s : State) (addr v : DWord), s.mem.wf ∧ v.toNat < 2 ^ (8 * DataSize.eight.bytes) ∧
      s.validRange addr DataSize.eight.bytes = true) :=
  ⟨⟨setUp 12 4, 0xfff, 0xff, by decide⟩, ⟨setUp 12 4, 0xff8, 0xffffffffffffffff, by decide⟩⟩

/-- A two-byte access whose second byte is the first unpopulated one. -/
theorem witness_HostAccessToUnpopulatedByteIsRefused : ∃ (s : State) (addr v : DWord), popWf s.pop ∧
    v.toNat < 2 ^ (8 * DataSize.two.bytes) ∧
    ∃ k, k < DataSize.two.bytes ∧ populated s.pop (addr.toNat + k) = false :=
  ⟨setUp 12 4, 0xfff, 0xffff, by decide, by decide, 1, by decide, by decide⟩

theorem witness_ResetEventAbandonsThePendingCommand : ∃ (s : State) (left : Hidden) (turns : List Turn),
    s.pend = some 1 ∧ s.schedule = .reset left :: turns :=
  ⟨{ pendingOn 1 with schedule := [.reset { Hidden.zero with se := ⟨7⟩ }] }, _, _, by decide, rfl⟩

theorem witness_EveryCommandFromResetReportsInvalidKeyLength : decode 1 = .ok .block ∧ decode 9 = .ok .xopen := by decide

/-- The range that ends at the last populated address, and the one that runs one byte past it. -/
theorem witness_RangeCheckMeansEveryAddressIsPopulated : popWf State.reset.pop ∧
    State.reset.validRange 0xff0 16 = true ∧ State.reset.validRange 0xff1 16 = false ∧ State.reset.validRange 0x5000 0 = true := by
  decide

/-! ### Witnesses: the Word-Matrix Core, the stream engine, the XChaCha20 extension -/

theorem witness_QuarterRoundIsTheTwelveOperations :
    ([0, 4, 8, 12] : List (Fin 16)).Nodup ∧ (15 : Fin 16) ∉ ([0, 4, 8, 12] : List (Fin 16)) := by decide

theorem witness_SerializedByteIsAByteOfItsWord : (0 : Nat) < 4 ∧ (3 : Nat) < 4 := by decide +kernel

/-- Key lengths and nonce lengths around the right one; output ranges on either side of the last that fits. -/
theorem witness_BlockWritesTheKeystreamBlock :
    (∀ n ∈ [31, 33], ({ setUp 12 4 with keyLen := BitVec.ofNat 64 n } : State).keyLen ≠ 32) ∧
    (∀ n ∈ [11, 13], (setUp n 4).keyLen = 32 ∧ (setUp n 4).nonceLen ≠ 12) ∧
    (∃ s : State, s.mem.wf ∧ s.keyLen = 32 ∧ s.nonceLen = 12 ∧
      ¬ (s.validRange s.keyAddr 32 = true ∧ s.validRange s.nonceAddr 12 = true ∧ s.validRange s.outAddr 64 = true)) ∧
    (∃ s : State, s.mem.wf ∧ s.keyLen = 32 ∧ s.nonceLen = 12 ∧
      s.validRange s.keyAddr 32 = true ∧ s.validRange s.nonceAddr 12 = true ∧ s.validRange s.outAddr 64 = true) :=
  ⟨by decide +kernel, by decide +kernel, ⟨{ setUp 12 4 with outAddr := 0xfc1 }, by decide +kernel⟩, ⟨{ setUp 12 4 with outAddr := 0xfc0 }, by decide +kernel⟩⟩

/-- The last counter that does not overflow with two chunks, and the first that does. -/
theorem witness_ChunkCountersDoNotWrap :
    counterOverflow 0xfffffffe 128 = false ∧ counterOverflow 0xffffffff 128 = true ∧ counterOverflow 0xffffffff 0 = false := by
  decide

theorem witness_StreamByteUsesItsOwnKeystreamByte : ∃ (buf : List Byte) (p : Nat), p < buf.length := ⟨[0], 0, by decide +kernel⟩

theorem witness_StreamIsItsOwnInverse : ∃ n p : Nat, p < n := ⟨65, 64, by decide +kernel⟩

theorem witness_XorTransformsTheBufferInPlace :
    (∀ n ∈ [31, 33], ({ setUp 12 4 with keyLen := BitVec.ofNat 64 n } : State).keyLen ≠ 32) ∧
    (∀ n ∈ [11, 13], (setUp n 4).keyLen = 32 ∧ (setUp n 4).nonceLen ≠ 12) ∧
    (∃ s : State, s.mem.wf ∧ s.keyLen = 32 ∧ s.nonceLen = 12 ∧
      (1 ≤ (s.bufLen.toNat + 63) / 64 ∧ s.ctr.toNat + (s.bufLen.toNat + 63) / 64 - 1 > 2 ^ 32 - 1)) ∧
    (∃ s : State, s.mem.wf ∧ s.keyLen = 32 ∧ s.nonceLen = 12 ∧
      ¬ (1 ≤ (s.bufLen.toNat + 63) / 64 ∧ s.ctr.toNat + (s.bufLen.toNat + 63) / 64 - 1 > 2 ^ 32 - 1) ∧
      ¬ (s.validRange s.keyAddr 32 = true ∧ s.validRange s.nonceAddr 12 = true ∧
          s.validRange s.bufAddr s.bufLen.toNat = true)) ∧
    (∃ s : State, s.mem.wf ∧ s.keyLen = 32 ∧ s.nonceLen = 12 ∧
      ¬ (1 ≤ (s.bufLen.toNat + 63) / 64 ∧ s.ctr.toNat + (s.bufLen.toNat + 63) / 64 - 1 > 2 ^ 32 - 1) ∧
      s.validRange s.keyAddr 32 = true ∧ s.validRange s.nonceAddr 12 = true ∧ s.validRange s.bufAddr s.bufLen.toNat = true) :=
  ⟨by decide +kernel, by decide +kernel, ⟨{ setUp 12 65 with ctr := 0xffffffff }, by decide +kernel⟩,
    ⟨{ setUp 12 65 with ctr := 0xfffffffe, bufAddr := 0xfc0 }, by decide +kernel⟩,
    ⟨{ setUp 12 65 with ctr := 0xfffffffe, bufAddr := 0xfbf }, by decide +kernel⟩⟩

theorem witness_SubnonceWordsInTheMatrix : ∃ nonce24 : List Byte, nonce24.length = 24 := ⟨zeros 24, by decide +kernel⟩

theorem witness_DeriveWritesSubkeyAndSubnonce :
    (∀ n ∈ [31, 33], ({ setUp 24 4 with keyLen := BitVec.ofNat 64 n } : State).keyLen ≠ 32) ∧
    (∀ n ∈ [23, 25], (setUp n 4).keyLen = 32 ∧ (setUp n 4).nonceLen ≠ 24) ∧
    (∃ s : State, s.mem.wf ∧ s.keyLen = 32 ∧ s.nonceLen = 24 ∧
      ¬ (s.validRange s.keyAddr 32 = true ∧ s.validRange s.nonceAddr 24 = true ∧ s.validRange s.outAddr 44 = true)) ∧
    (∃ s : State, s.mem.wf ∧ s.keyLen = 32 ∧ s.nonceLen = 24 ∧
      s.validRange s.keyAddr 32 = true ∧ s.validRange s.nonceAddr 24 = true ∧ s.validRange s.outAddr 44 = true) :=
  ⟨by decide +kernel, by decide +kernel, ⟨{ setUp 24 4 with outAddr := 0xfd5 }, by decide +kernel⟩, ⟨{ setUp 24 4 with outAddr := 0xfd4 }, by decide +kernel⟩⟩

theorem witness_XxorTransformsTheBufferUnderTheSubkey :
    (∀ n ∈ [31, 33], ({ setUp 24 4 with keyLen := BitVec.ofNat 64 n } : State).keyLen ≠ 32) ∧
    (∀ n ∈ [23, 25], (setUp n 4).keyLen = 32 ∧ (setUp n 4).nonceLen ≠ 24) ∧
    (∃ s : State, s.mem.wf ∧ s.keyLen = 32 ∧ s.nonceLen = 24 ∧
      (1 ≤ (s.bufLen.toNat + 63) / 64 ∧ s.ctr.toNat + (s.bufLen.toNat + 63) / 64 - 1 > 2 ^ 32 - 1)) ∧
    (∃ s : State, s.mem.wf ∧ s.keyLen = 32 ∧ s.nonceLen = 24 ∧
      ¬ (1 ≤ (s.bufLen.toNat + 63) / 64 ∧ s.ctr.toNat + (s.bufLen.toNat + 63) / 64 - 1 > 2 ^ 32 - 1) ∧
      ¬ (s.validRange s.keyAddr 32 = true ∧ s.validRange s.nonceAddr 24 = true ∧
          s.validRange s.bufAddr s.bufLen.toNat = true)) ∧
    (∃ s : State, s.mem.wf ∧ s.keyLen = 32 ∧ s.nonceLen = 24 ∧
      ¬ (1 ≤ (s.bufLen.toNat + 63) / 64 ∧ s.ctr.toNat + (s.bufLen.toNat + 63) / 64 - 1 > 2 ^ 32 - 1) ∧
      s.validRange s.keyAddr 32 = true ∧ s.validRange s.nonceAddr 24 = true ∧ s.validRange s.bufAddr s.bufLen.toNat = true) :=
  ⟨by decide +kernel, by decide +kernel, ⟨{ setUp 24 65 with ctr := 0xffffffff }, by decide +kernel⟩,
    ⟨{ setUp 24 65 with ctr := 0xfffffffe, bufAddr := 0xfc0 }, by decide +kernel⟩,
    ⟨{ setUp 24 65 with ctr := 0xfffffffe, bufAddr := 0xfbf }, by decide +kernel⟩⟩

/-- An X nonce, a buffer of four bytes, and the output range directly after the buffer. -/
def outAfterBuf : State := { setUp 24 4 with outAddr := 0x104 }

/-- Both commands of the equivalence end normally from one state, the derived bytes directly after the buffer. -/
theorem witness_XxorEqualsDeriveThenXor : ∃ s t u : State, s.mem.wf ∧ s.outAddr.toNat + 44 ≤ 2 ^ 64 ∧
    DisjointRanges s.outAddr.toNat 44 s.bufAddr.toNat s.bufLen.toNat ∧
    exec .xxor s = .next t ∧ t.status = ⟨false, true, false, 0⟩ ∧ exec .derive s = .next u ∧ u.status = ⟨false, true, false, 0⟩ ∧
    ∃ v, exec .xor { u with keyAddr := s.outAddr, keyLen := 32, nonceAddr := s.outAddr + 32, nonceLen := 12 } = .next v :=
  have ends (i : Instr) (x : State) : ∃ v, exec i x = .next v := by
    rcases exec_endsWithin i x with ⟨e, g, h⟩ | ⟨g, b, -, -, len, h⟩
    · exact ⟨_, h⟩
    · exact ⟨_, h⟩
  ⟨outAfterBuf, outAfterBuf.xxorBody, outAfterBuf.deriveBody, by decide +kernel, by decide +kernel,
    .inr (.inr (.inr (by decide +kernel))),
    (exec_xxor _).trans (State.runCommand_body State.xxorBody (by decide +kernel)), State.succeed_status _ _ _ _,
    (exec_derive _).trans (State.runCommand_body State.deriveBody (by decide +kernel)), State.succeed_status _ _ _ _, ends _ _⟩

/-! ### Witnesses: the Poly1305 accumulator -/

theorem witness_ClampOnBytesIsTheMask : ∃ otk : List Byte, otk.length = 32 := ⟨List.replicate 32 0xff, by decide +kernel⟩

theorem witness_BlockIntegerHasOneBitAfterItsBytes :
    ∀ n ∈ [1, 16], 1 ≤ (zeros n).length ∧ (zeros n).length ≤ 16 := by decide +kernel

/-- The two ways nothing is accumulated, the second with a message that is not empty and an `r` whose clamped bits are set. -/
theorem witness_TagIsPadWhenNothingIsAccumulated :
    (∃ otk msg : List Byte, otk.length = 32 ∧ msg = []) ∧
    (∃ otk msg : List Byte, otk.length = 32 ∧ msg ≠ [] ∧ clampedR otk = 0) :=
  ⟨⟨k01, [], by decide +kernel⟩, ⟨[0, 0, 0, 0xf0, 0x03, 0, 0, 0xf0, 0x03, 0, 0, 0xf0, 0x03, 0, 0, 0xf0] ++ zeros 16, [1], by decide +kernel⟩⟩

theorem witness_LoadedLimbsAreTheDigitsOfR : ∃ otk : List Byte, otk.length = 32 := ⟨List.replicate 32 0xff, by decide +kernel⟩

/-- Limbs at the upper end of every bound. -/
def greatestLimbs : Limbs 32 := ⟨0x3ffffff, 0x4000025, 0x3ffffff, 0x3ffffff, 0x3ffffff⟩

/-- An accumulator with every limb of `H` and of `R` at its bound (R197, R203), `S5` loaded from that `R`. -/
def greatestAccumulator : Poly1305Accumulator :=
  let r : Limbs 32 := ⟨0x3ffffff, 0x3ffff03, 0x3ffc0ff, 0x3f03fff, 0x00fffff⟩
  { Hidden.zero.pa with h := greatestLimbs, r := r, s5 := scaleR r }

/-- Every bound met with equality, on a block of one byte and on one of sixteen. -/
theorem witness_LimbBlockStepAbsorbsModuloP : ∀ n ∈ [1, 16], ∃ (p : Poly1305Accumulator) (blk : List Byte),
    p.h.l0.toNat = 2 ^ 26 - 1 ∧ p.h.l1.toNat = 0x4000025 ∧ p.h.l2.toNat = 2 ^ 26 - 1 ∧ p.h.l3.toNat = 2 ^ 26 - 1 ∧
    p.h.l4.toNat = 2 ^ 26 - 1 ∧ p.r.l0.toNat = 0x3ffffff ∧ p.r.l1.toNat = 0x3ffff03 ∧ p.r.l2.toNat = 0x3ffc0ff ∧
    p.r.l3.toNat = 0x3f03fff ∧ p.r.l4.toNat = 0x00fffff ∧ p.s5 = scaleR p.r ∧ blk.length = n := by
  have bounds : greatestAccumulator.h = greatestLimbs ∧
      greatestAccumulator.r = ⟨0x3ffffff, 0x3ffff03, 0x3ffc0ff, 0x3f03fff, 0x00fffff⟩ ∧
      greatestAccumulator.s5 = scaleR greatestAccumulator.r := by decide +kernel
  obtain ⟨hh, hr, hs⟩ := bounds
  intro n _
  refine ⟨greatestAccumulator, List.replicate n 0xff, ?_⟩
  rw [hs, hh, hr]
  simp [greatestLimbs]

theorem witness_FinalLimbsAreTheCanonicalResidue :
    greatestLimbs.l0.toNat = 2 ^ 26 - 1 ∧ greatestLimbs.l1.toNat = 0x4000025 ∧ greatestLimbs.l2.toNat = 2 ^ 26 - 1 ∧
    greatestLimbs.l3.toNat = 2 ^ 26 - 1 ∧ greatestLimbs.l4.toNat = 2 ^ 26 - 1 := by decide +kernel

theorem witness_RepackedLimbsPlusPadGiveTheTag : ∃ h : Limbs 32,
    h.l0.toNat = 2 ^ 26 - 1 ∧ h.l1.toNat = 2 ^ 26 - 1 ∧ h.l2.toNat = 2 ^ 26 - 1 ∧ h.l3.toNat = 2 ^ 26 - 1 ∧
    h.l4.toNat = 2 ^ 26 - 1 :=
  ⟨⟨0x3ffffff, 0x3ffffff, 0x3ffffff, 0x3ffffff, 0x3ffffff⟩, by decide +kernel⟩

theorem witness_LimbDatapathComputesPoly1305 : k01.length = 32 := by decide +kernel

theorem witness_MacWritesTheTag :
    (∀ n ∈ [31, 33], ({ setUp 12 4 with keyLen := BitVec.ofNat 64 n } : State).keyLen ≠ 32) ∧
    (∃ s : State, s.mem.wf ∧ s.keyLen = 32 ∧
      ¬ (s.validRange s.keyAddr 32 = true ∧ s.validRange s.bufAddr s.bufLen.toNat = true ∧ s.validRange s.outAddr 16 = true)) ∧
    (∃ s : State, s.mem.wf ∧ s.keyLen = 32 ∧ s.validRange s.keyAddr 32 = true ∧
      s.validRange s.bufAddr s.bufLen.toNat = true ∧ s.validRange s.outAddr 16 = true) :=
  ⟨by decide +kernel, ⟨{ setUp 12 4 with outAddr := 0xff1 }, by decide +kernel⟩, ⟨{ setUp 12 4 with outAddr := 0xff0 }, by decide +kernel⟩⟩

/-! ### Witnesses: the AEAD composer -/

theorem witness_TagComparisonIsEquality : ∃ a b : List Byte, a.length = 16 ∧ b.length = 16 ∧ a ≠ b :=
  ⟨zeros 16, zeros 15 ++ [0x80], by decide +kernel⟩

theorem witness_AeadLimitKeepsTheCounterInRange :
    counterOverflow 1 274877906816 = false ∧ counterOverflow 1 274877906880 = false ∧ counterOverflow 1 274877906881 = true := by
  decide

/-- Each clause of the two sealing commands, at the plaintext lengths and the buffer addresses where the clauses meet. -/
theorem witness_SealWritesCiphertextAndTag :
    (∀ n ∈ [31, 33], ({ setUp 12 4 with keyLen := BitVec.ofNat 64 n } : State).keyLen ≠ 32) ∧
    (∀ n ∈ [11, 13], (setUp n 4).keyLen = 32 ∧ (setUp n 4).nonceLen ≠ 12) ∧
    (∃ s : State, s.mem.wf ∧ s.keyLen = 32 ∧ s.nonceLen = 12 ∧ s.bufLen.toNat > 274877906816) ∧
    (∃ s : State, s.mem.wf ∧ s.keyLen = 32 ∧ s.nonceLen = 12 ∧ s.bufLen.toNat = 274877906816 ∧
      ¬ (s.validRange s.keyAddr 32 = true ∧ s.validRange s.nonceAddr 12 = true ∧
          s.validRange s.aadAddr s.aadLen.toNat = true ∧ s.validRange s.bufAddr (s.bufLen.toNat + 16) = true)) ∧
    (∃ s : State, s.mem.wf ∧ s.keyLen = 32 ∧ s.nonceLen = 12 ∧ s.bufLen.toNat ≤ 274877906816 ∧
      s.validRange s.keyAddr 32 = true ∧ s.validRange s.nonceAddr 12 = true ∧
      s.validRange s.aadAddr s.aadLen.toNat = true ∧ s.validRange s.bufAddr (s.bufLen.toNat + 16) = true) :=
  ⟨by decide +kernel, by decide +kernel, ⟨{ setUp 12 4 with bufLen := 274877906817 }, by decide +kernel⟩,
    ⟨{ setUp 12 4 with bufLen := 274877906816 }, by decide +kernel⟩, ⟨{ setUp 12 4 with bufAddr := 0xfec }, by decide +kernel⟩⟩

theorem witness_XsealWritesCiphertextAndTag :
    (∀ n ∈ [31, 33], ({ setUp 24 4 with keyLen := BitVec.ofNat 64 n } : State).keyLen ≠ 32) ∧
    (∀ n ∈ [23, 25], (setUp n 4).keyLen = 32 ∧ (setUp n 4).nonceLen ≠ 24) ∧
    (∃ s : State, s.mem.wf ∧ s.keyLen = 32 ∧ s.nonceLen = 24 ∧ s.bufLen.toNat > 274877906816) ∧
    (∃ s : State, s.mem.wf ∧ s.keyLen = 32 ∧ s.nonceLen = 24 ∧ s.bufLen.toNat = 274877906816 ∧
      ¬ (s.validRange s.keyAddr 32 = true ∧ s.validRange s.nonceAddr 24 = true ∧
          s.validRange s.aadAddr s.aadLen.toNat = true ∧ s.validRange s.bufAddr (s.bufLen.toNat + 16) = true)) ∧
    (∃ s : State, s.mem.wf ∧ s.keyLen = 32 ∧ s.nonceLen = 24 ∧ s.bufLen.toNat ≤ 274877906816 ∧
      s.validRange s.keyAddr 32 = true ∧ s.validRange s.nonceAddr 24 = true ∧
      s.validRange s.aadAddr s.aadLen.toNat = true ∧ s.validRange s.bufAddr (s.bufLen.toNat + 16) = true) :=
  ⟨by decide +kernel, by decide +kernel, ⟨{ setUp 24 4 with bufLen := 274877906817 }, by decide +kernel⟩,
    ⟨{ setUp 24 4 with bufLen := 274877906816 }, by decide +kernel⟩, ⟨{ setUp 24 4 with bufAddr := 0xfec }, by decide +kernel⟩⟩

/-- The checks of OPEN that come before the comparison, at the lengths where the clauses meet. -/
theorem witness_OpenVerifiesBeforeItWrites_checks :
    (∀ n ∈ [31, 33], ({ setUp 12 16 with keyLen := BitVec.ofNat 64 n } : State).keyLen ≠ 32) ∧
    (∀ n ∈ [11, 13], (setUp n 16).keyLen = 32 ∧ (setUp n 16).nonceLen ≠ 12) ∧
    (∃ s : State, s.mem.wf ∧ s.keyLen = 32 ∧ s.nonceLen = 12 ∧ s.bufLen.toNat = 15) ∧
    (∃ s : State, s.mem.wf ∧ s.keyLen = 32 ∧ s.nonceLen = 12 ∧ 16 ≤ s.bufLen.toNat ∧ s.bufLen.toNat - 16 > 274877906816) ∧
    (∃ s : State, s.mem.wf ∧ s.keyLen = 32 ∧ s.nonceLen = 12 ∧ 16 ≤ s.bufLen.toNat ∧ s.bufLen.toNat - 16 ≤ 274877906816 ∧
      ¬ (s.validRange s.keyAddr 32 = true ∧ s.validRange s.nonceAddr 12 = true ∧
          s.validRange s.aadAddr s.aadLen.toNat = true ∧ s.validRange s.bufAddr s.bufLen.toNat = true)) :=
  ⟨by decide +kernel, by decide +kernel, ⟨setUp 12 15, by decide +kernel⟩, ⟨{ setUp 12 16 with bufLen := 274877906833 }, by decide +kernel⟩,
    ⟨{ setUp 12 16 with bufLen := 274877906832 }, by decide +kernel⟩⟩

/-- A sealed input the comparison accepts (vector A11). -/
theorem witness_OpenVerifiesBeforeItWrites_accepts : ∃ s : State, s.mem.wf ∧ s.keyLen = 32 ∧ s.nonceLen = 12 ∧
    s.bufLen.toNat = 16 ∧ s.validRange s.keyAddr 32 = true ∧ s.validRange s.nonceAddr 12 = true ∧
    s.validRange s.aadAddr s.aadLen.toNat = true ∧ s.validRange s.bufAddr s.bufLen.toNat = true ∧
    (openBytes (s.mem.readBytes s.keyAddr.toNat 32) (s.mem.readBytes s.nonceAddr.toNat 12)
      (s.mem.readBytes s.aadAddr.toNat s.aadLen.toNat) (s.mem.readBytes s.bufAddr.toNat s.bufLen.toNat)).toOption = some [] :=
  ⟨ready k01 (zeros 12) [] [0x10, 0x32, 0x4f, 0x80, 0x0a, 0x16, 0x0b, 0xd9, 0xa1, 0x79, 0x42, 0x55, 0xbe, 0x7e, 0xc2, 0x9d] 0,
    by decide +kernel⟩

/-- One it does not accept. -/
theorem witness_OpenVerifiesBeforeItWrites_rejects : ∃ s : State, s.mem.wf ∧ s.keyLen = 32 ∧ s.nonceLen = 12 ∧
    s.bufLen.toNat = 16 ∧ s.validRange s.keyAddr 32 = true ∧ s.validRange s.nonceAddr 12 = true ∧
    s.validRange s.aadAddr s.aadLen.toNat = true ∧ s.validRange s.bufAddr s.bufLen.toNat = true ∧
    (openBytes (s.mem.readBytes s.keyAddr.toNat 32) (s.mem.readBytes s.nonceAddr.toNat 12)
      (s.mem.readBytes s.aadAddr.toNat s.aadLen.toNat) (s.mem.readBytes s.bufAddr.toNat s.bufLen.toNat)).toOption = none :=
  ⟨setUp 12 16, by decide +kernel⟩

theorem witness_XopenVerifiesBeforeItWrites_checks :
    (∀ n ∈ [31, 33], ({ setUp 24 16 with keyLen := BitVec.ofNat 64 n } : State).keyLen ≠ 32) ∧
    (∀ n ∈ [23, 25], (setUp n 16).keyLen = 32 ∧ (setUp n 16).nonceLen ≠ 24) ∧
    (∃ s : State, s.mem.wf ∧ s.keyLen = 32 ∧ s.nonceLen = 24 ∧ s.bufLen.toNat = 15) ∧
    (∃ s : State, s.mem.wf ∧ s.keyLen = 32 ∧ s.nonceLen = 24 ∧ 16 ≤ s.bufLen.toNat ∧ s.bufLen.toNat - 16 > 274877906816) ∧
    (∃ s : State, s.mem.wf ∧ s.keyLen = 32 ∧ s.nonceLen = 24 ∧ 16 ≤ s.bufLen.toNat ∧ s.bufLen.toNat - 16 ≤ 274877906816 ∧
      ¬ (s.validRange s.keyAddr 32 = true ∧ s.validRange s.nonceAddr 24 = true ∧
          s.validRange s.aadAddr s.aadLen.toNat = true ∧ s.validRange s.bufAddr s.bufLen.toNat = true)) :=
  ⟨by decide +kernel, by decide +kernel, ⟨setUp 24 15, by decide +kernel⟩, ⟨{ setUp 24 16 with bufLen := 274877906833 }, by decide +kernel⟩,
    ⟨{ setUp 24 16 with bufLen := 274877906832 }, by decide +kernel⟩⟩

/-- A sealed input the comparison accepts (vector A8). -/
theorem witness_XopenVerifiesBeforeItWrites_accepts : ∃ s : State, s.mem.wf ∧ s.keyLen = 32 ∧ s.nonceLen = 24 ∧
    s.bufLen.toNat = 16 ∧ s.validRange s.keyAddr 32 = true ∧ s.validRange s.nonceAddr 24 = true ∧
    s.validRange s.aadAddr s.aadLen.toNat = true ∧ s.validRange s.bufAddr s.bufLen.toNat = true ∧
    (openBytes (derive (s.mem.readBytes s.keyAddr.toNat 32) (s.mem.readBytes s.nonceAddr.toNat 24)).1
      (derive (s.mem.readBytes s.keyAddr.toNat 32) (s.mem.readBytes s.nonceAddr.toNat 24)).2
      (s.mem.readBytes s.aadAddr.toNat s.aadLen.toNat) (s.mem.readBytes s.bufAddr.toNat s.bufLen.toNat)).toOption = some [] :=
  ⟨ready (zeros 32) (zeros 24) []
    [0x8f, 0x3b, 0x94, 0x5a, 0x51, 0x90, 0x6d, 0xc8, 0x60, 0x0d, 0xe9, 0xf8, 0x96, 0x2d, 0x00, 0xe6] 0, by decide +kernel⟩

/-- One it does not accept. -/
theorem witness_XopenVerifiesBeforeItWrites_rejects : ∃ s : State, s.mem.wf ∧ s.keyLen = 32 ∧ s.nonceLen = 24 ∧
    s.bufLen.toNat = 16 ∧ s.validRange s.keyAddr 32 = true ∧ s.validRange s.nonceAddr 24 = true ∧
    s.validRange s.aadAddr s.aadLen.toNat = true ∧ s.validRange s.bufAddr s.bufLen.toNat = true ∧
    (openBytes (derive (s.mem.readBytes s.keyAddr.toNat 32) (s.mem.readBytes s.nonceAddr.toNat 24)).1
      (derive (s.mem.readBytes s.keyAddr.toNat 32) (s.mem.readBytes s.nonceAddr.toNat 24)).2
      (s.mem.readBytes s.aadAddr.toNat s.aadLen.toNat) (s.mem.readBytes s.bufAddr.toNat s.bufLen.toNat)).toOption = none :=
  ⟨setUp 24 16, by decide +kernel⟩

/-- SEAL ends normally with its key, nonce and associated data outside what it writes. -/
theorem witness_OpenAfterSealRestoresTheBuffer : ∃ s t : State, s.mem.wf ∧ exec .sealCmd s = .next t ∧
    t.status = ⟨false, true, false, 0⟩ ∧
    DisjointRanges s.keyAddr.toNat 32 s.bufAddr.toNat (s.bufLen.toNat + 16) ∧
    DisjointRanges s.nonceAddr.toNat 12 s.bufAddr.toNat (s.bufLen.toNat + 16) ∧
    DisjointRanges s.aadAddr.toNat s.aadLen.toNat s.bufAddr.toNat (s.bufLen.toNat + 16) :=
  ⟨setUp 12 4, (setUp 12 4).beginAead.sealBody, by decide +kernel,
    (exec_sealCmd _).trans (State.runCommand_body State.sealBody (by decide +kernel)), State.succeed_status _ _ _ _,
    .inr (.inr (.inl (by decide +kernel))), .inr (.inr (.inl (by decide +kernel))), .inr (.inr (.inl (by decide +kernel)))⟩

/-! ### Witnesses: errors and the whole machine -/

theorem witness_FailedCommandWritesNoData : ∃ (i : Instr) (s t : State), exec i s = .next t ∧ t.status.err = true :=
  ⟨.block, State.reset, State.reset.raiseError .invalidKeyLength, rfl, rfl⟩

theorem witness_CommandsWriteOnlyTheirOwnRange : ∃ (s t : State), exec .block s = .next t ∧ t.status.err = false ∧
    (writtenRange .block s).1.toNat + (writtenRange .block s).2 = 0x240 :=
  ⟨setUp 12 4, (setUp 12 4).blockBody, (exec_block _).trans (State.runCommand_body State.blockBody (by decide +kernel)),
    congrArg Status.err (State.succeed_status _ _ _ _), by decide +kernel⟩

theorem witness_CommandsLeaveTheRegistersTheyDoNotUse : ∀ i : Instr, ∃ s t : State, exec i s = .next t := by
  intro i
  rcases exec_endsWithin i (setUp 12 16) with ⟨e, g, h⟩ | ⟨g, b, -, -, len, h⟩
  · exact ⟨_, _, h⟩
  · exact ⟨_, _, h⟩

theorem witness_StatusReadsOneOfTenValues : ∃ s : State, s.Inv := ⟨_, pendingOn_inv 1⟩

theorem witness_StepKeepsTheInvariant : ∃ s t : State, s.Inv ∧ step s = .next t ∧ s.pend = some 0x0000000a :=
  ⟨pendingOn 0x0000000a, _, pendingOn_inv _, rfl, rfl⟩

theorem witness_PendingCommandCompletesUnderEverySchedule : ∃ (s : State) (w : Word), s.Inv ∧ s.pend = some w ∧
    s.schedule = [.host, .host, .engine] ∧ ∀ turn ∈ s.schedule, ∀ left, turn ≠ .reset left :=
  ⟨{ pendingOn 2 with script := [], schedule := [.host, .host, .engine] }, 2, pendingOn_inv_with 2 _ _, rfl, rfl, by simp⟩

end Sys2Proof.Tests
end

/-! ### The invariant (10_state.md rules R29, R30 and R33, 20_memory.md rules R61 and R69) -/

namespace Sys2Proof.Machine

/-! #### The DATA space -/

/-- A store into a valid range lists populated addresses only (R61, R62). -/
theorem State.cellsPopulated_writeBytes {s : State} {addr : DWord} {bytes : List Byte}
    (h : ∀ c ∈ s.mem.cells, populated s.pop c.1 = true) (hv : s.validRange addr bytes.length = true) :
    ∀ c ∈ (s.mem.writeBytes addr.toNat bytes).cells, populated s.pop c.1 = true := by
  intro c hc
  rcases Memory.mem_writeBytes hc with ⟨hlo, hhi⟩ | hc
  · have hp := State.validRange_populated hv (c.1 - addr.toNat) (by omega)
    rwa [Nat.add_sub_cancel' hlo] at hp
  · exact h c hc

/-- A HOST store into a valid range keeps the invariant (R65). -/
theorem State.Inv.store {s : State} (h : s.Inv) {addr : DWord} {bytes : List Byte}
    (hv : s.validRange addr bytes.length = true) : ({ s with mem := s.mem.writeBytes addr.toNat bytes } : State).Inv where
  memWf := Memory.wf_writeBytes h.memWf _ _
  popWf := h.popWf
  cellsPopulated := State.cellsPopulated_writeBytes h.cellsPopulated hv
  busyIffPending := h.busyIffPending
  statusLegal := h.statusLegal
  resLenZero := h.resLenZero
  heldNotStatus := h.heldNotStatus

/-! #### Issue, completion, reset -/

/-- The invariant survives a change of STATUS, RES_LEN and PEND that keeps the three in step (R29, R30, R33), whatever happens to
the operand registers, the internal register files and the HOST's side, as long as no STATUS read becomes held. -/
theorem State.Inv.of_sameData {s t : State} (h : s.Inv) (hmem : t.mem = s.mem) (hpop : t.pop = s.pop)
    (hbusy : t.status.busy = t.pend.isSome) (hlegal : LegalStatus t.status) (hlen : t.status ≠ .ok → t.resLen = 0)
    (hheld : ∀ a ∈ t.held, isStatusRead a = false) : t.Inv where
  memWf := hmem ▸ h.memWf
  popWf := hpop ▸ h.popWf
  cellsPopulated := by rw [hmem, hpop]; exact h.cellsPopulated
  busyIffPending := hbusy
  statusLegal := hlegal
  resLenZero := hlen
  heldNotStatus := hheld

/-- The invariant reads neither the operand registers, nor the internal register files, nor the HOST's side but for the held
accesses. -/
theorem State.Inv.of_sameLatch {s t : State} (h : s.Inv) (hmem : t.mem = s.mem) (hpop : t.pop = s.pop)
    (hstatus : t.status = s.status) (hlen : t.resLen = s.resLen) (hpend : t.pend = s.pend)
    (hheld : ∀ a ∈ t.held, isStatusRead a = false) : t.Inv :=
  h.of_sameData hmem hpop (by rw [hstatus, hpend]; exact h.busyIffPending) (hstatus ▸ h.statusLegal)
    (by rw [hstatus, hlen]; exact h.resLenZero) hheld

/-- Issue keeps the invariant (R97). -/
theorem State.Inv.issue {s : State} (h : s.Inv) (w : Word) : (s.issue w).Inv :=
  h.of_sameData rfl rfl rfl .pending (fun _ => rfl) h.heldNotStatus

/-- Error entry keeps the invariant (R269). -/
theorem State.Inv.raiseError {s : State} (h : s.Inv) (g : Hidden) (e : ErrorKind) :
    ({ s with hidden := g }.raiseError e).Inv :=
  h.of_sameData rfl rfl rfl (.failed e) (fun _ => rfl) h.heldNotStatus

/-- The normal end of a command that stores into a valid range keeps the invariant (R98). -/
theorem State.Inv.succeed {s : State} (h : s.Inv) (g : Hidden) {addr : DWord} {bytes : List Byte} (len : Nat)
    (hv : s.validRange addr bytes.length = true) : ({ s with hidden := g }.succeed addr bytes len).Inv :=
  (h.store hv).of_sameData rfl rfl rfl .ok (fun hne => absurd rfl hne) h.heldNotStatus

/-- The reset event keeps the invariant (R300). -/
theorem State.Inv.resetEvent {s : State} (h : s.Inv) (left : Hidden) : (s.resetEvent left).Inv :=
  h.of_sameData rfl rfl rfl .cleared (fun _ => rfl) (fun _ ha => absurd ha List.not_mem_nil)

/-- A write to any register slot keeps the invariant (R28, R31). -/
theorem State.Inv.regWrite {s : State} (h : s.Inv) (slot : Nat) (v : DWord) : (s.regWrite slot v).Inv := by
  by_cases hslot : slot = 0
  · subst hslot
    exact h.issue _
  · obtain ⟨hmem, hpop, -, hheld, -⟩ := s.regWrite_frame slot v
    obtain ⟨hstatus, hlen, hpend⟩ := s.regWrite_status v hslot
    exact h.of_sameLatch hmem hpop hstatus hlen hpend (hheld ▸ h.heldNotStatus)

/-- Taking a turn off the schedule keeps the invariant (log entry 5). -/
theorem State.Inv.takeTurn {s : State} (h : s.Inv) (rest : List Turn) : ({ s with schedule := rest } : State).Inv :=
  h.of_sameLatch rfl rfl rfl rfl rfl h.heldNotStatus

/-! #### The two agents and the step -/

/-- Every command keeps the invariant and the populated set (R98). -/
theorem exec_keepsInv {i : Instr} {s t : State} (h : s.Inv) (ht : exec i s = .next t) : t.Inv ∧ t.pop = s.pop := by
  rcases exec_endsWithin i s with ⟨e, g, he⟩ | ⟨g, bytes, hl, hv, len, hs⟩
  · cases he.symm.trans ht
    exact ⟨h.raiseError g e, rfl⟩
  · cases hs.symm.trans ht
    exact ⟨h.succeed g len (hl ▸ hv), rfl⟩

/-- The ENGINE's turn keeps the invariant and the populated set (R98). -/
theorem engineTurn_keepsInv {s t : State} (h : s.Inv) (ht : engineTurn s = .next t) : t.Inv ∧ t.pop = s.pop := by
  cases hp : s.pend with
  | none =>
    cases (engineTurn_idle hp).symm.trans ht
    exact ⟨h, rfl⟩
  | some w =>
    rw [engineTurn_pending hp] at ht
    rcases completeWord_cases w s with ⟨i, -, hi⟩ | ⟨-, he⟩
    · exact exec_keepsInv h (hi.symm.trans ht)
    · cases he.symm.trans ht
      exact ⟨h.raiseError s.hidden .illegalCommand, rfl⟩

/-- A performed HOST access keeps the invariant and the populated set (R31, R65). -/
theorem hostPerform_keepsInv {a : HostAccess} {s t : State} (h : s.Inv) (ht : hostPerform a s = .next t) :
    t.Inv ∧ t.pop = s.pop := by
  rcases hostPerform_next ht with ⟨addr, bytes, hv, rfl⟩ | ⟨slot, v, -, rfl⟩ | ⟨r, rfl⟩
  · exact ⟨h.store hv, rfl⟩
  · obtain ⟨-, hpop, -⟩ := s.regWrite_frame slot v
    exact ⟨h.regWrite slot v, hpop⟩
  · exact ⟨h.of_sameLatch rfl rfl rfl rfl rfl h.heldNotStatus, rfl⟩

/-- The HOST's turn keeps the invariant and the populated set: only an access that is no STATUS read becomes held (R69). -/
theorem hostTurn_keepsInv {s t : State} (h : s.Inv) (ht : hostTurn s = .next t) : t.Inv ∧ t.pop = s.pop := by
  have hissued : ∀ rest, ({ s with script := rest } : State).Inv := fun rest =>
    h.of_sameLatch rfl rfl rfl rfl rfl h.heldNotStatus
  rcases hostTurn_cases s with hidle | ⟨-, a, rest, -, ha, hhold⟩ | ⟨-, a, rest, -, -, hperf⟩ | ⟨-, a, rest, hheld, hperf⟩ |
    ⟨-, -, a, rest, -, hperf⟩
  · cases hidle.symm.trans ht
    exact ⟨h, rfl⟩
  · cases hhold.symm.trans ht
    refine ⟨h.of_sameLatch rfl rfl rfl rfl rfl fun b hb => ?_, rfl⟩
    rcases List.mem_append.mp hb with hb | hb
    · exact h.heldNotStatus b hb
    · exact List.mem_singleton.mp hb ▸ ha
  · exact hostPerform_keepsInv (s := { s with script := rest }) (hissued rest) (hperf.symm.trans ht)
  · have hrest : ∀ b ∈ rest, isStatusRead b = false := fun b hb => h.heldNotStatus b (hheld ▸ List.mem_cons_of_mem a hb)
    exact hostPerform_keepsInv (s := { s with held := rest }) (h.of_sameLatch rfl rfl rfl rfl rfl hrest) (hperf.symm.trans ht)
  · exact hostPerform_keepsInv (s := { s with script := rest }) (hissued rest) (hperf.symm.trans ht)

/-- Settles O58: each agent's turn and the reset event keep the invariant, and a step is one of those. -/
theorem stepKeepsTheInvariant : Obligations.StepKeepsTheInvariant := by
  unfold Obligations.StepKeepsTheInvariant
  intro s t h ht
  rcases step_cases s with ⟨rest, -, hs⟩ | ⟨rest, -, hs⟩ | ⟨left, rest, -, hs⟩ | ⟨-, -, hs⟩ | ⟨-, -, hs⟩
  · exact engineTurn_keepsInv (s := { s with schedule := rest }) (h.takeTurn rest) (hs.symm.trans ht)
  · exact hostTurn_keepsInv (s := { s with schedule := rest }) (h.takeTurn rest) (hs.symm.trans ht)
  · cases hs.symm.trans ht
    exact ⟨(h.takeTurn rest).resetEvent left, rfl⟩
  · exact engineTurn_keepsInv h (hs.symm.trans ht)
  · exact hostTurn_keepsInv h (hs.symm.trans ht)

/-- Settles O57: after reset nothing is listed, nothing is held, STATUS is cleared and `[0, Config.memBytes)` is populated. -/
theorem resetMeetsTheInvariant : Obligations.ResetMeetsTheInvariant where
  memWf := ⟨.nil, fun _ hc => absurd hc List.not_mem_nil⟩
  popWf := by decide
  cellsPopulated := fun _ hc => absurd hc List.not_mem_nil
  busyIffPending := rfl
  statusLegal := .cleared
  resLenZero := fun _ => rfl
  heldNotStatus := fun _ ha => absurd ha List.not_mem_nil

end Sys2Proof.Machine

/-! ### What the HOST can tell apart (10_state.md rule R35) -/

namespace Sys2Proof.Machine

/-! #### Indistinguishable outcomes -/

theorem SameToHost.symm {o p : Host.Outcome State Fault Refusal} (h : SameToHost o p) : SameToHost p o := by
  cases h with
  | next s t h => exact .next t s h.symm
  | fault r => exact .fault r
  | refused r => exact .refused r

theorem SameToHost.trans {o p q : Host.Outcome State Fault Refusal} (h : SameToHost o p) (h' : SameToHost p q) :
    SameToHost o q := by
  cases h with
  | next s t hst => cases h' with | next _ u htu => exact .next s u (hst.trans htu)
  | fault r => exact h'
  | refused r => exact h'

/-- A HOST access that is performed or refused by a check both states share. -/
theorem SameToHost.ite {c : Bool} {s t : State} {r : Refusal} (h : s.visible = t.visible) :
    SameToHost (if c then .next s else .refused r) (if c then .next t else .refused r) := by
  cases c with
  | true => exact .next s t h
  | false => exact .refused r

/-! #### The commands on values, with no register file -/

/-- SEAL under a key and a nonce, on values: the ciphertext, and the limb datapath's tag over it (R238). -/
def State.sealValue (v : State) (key nonce : List Byte) : State :=
  v.succeed v.bufAddr
    (xorStream key nonce 1 v.buf ++ limbTag (tagKey key nonce) (macInput v.aad (xorStream key nonce 1 v.buf)))
    (v.bufLen.toNat + 16)

/-- OPEN under a key and a nonce, on values: the plaintext where the tags agree, else AuthenticationFailed (R239). -/
def State.openValue (v : State) (key nonce : List Byte) : State :=
  if tagEqual (limbTag (tagKey key nonce) (macInput v.aad (sealedText v.buf))) (sealedTag v.buf) then
    v.succeed v.bufAddr (xorStream key nonce 1 (sealedText v.buf)) (v.bufLen.toNat - 16)
  else v.raiseError .authenticationFailed

/-- The body of a command on values: the functions of the family files on its operands, and no internal register. -/
def valueBody (i : Instr) (v : State) : State :=
  match i with
  | .block => v.succeed v.outAddr (chaCha20Block v.key v.nonce v.ctr) 64
  | .xor => v.succeed v.bufAddr (xorStream v.key v.nonce v.ctr v.buf) v.bufLen.toNat
  | .derive => v.succeed v.outAddr ((derive v.key v.nonce24).1 ++ (derive v.key v.nonce24).2) 44
  | .xxor =>
    v.succeed v.bufAddr (xorStream (derive v.key v.nonce24).1 (derive v.key v.nonce24).2 v.ctr v.buf) v.bufLen.toNat
  | .mac => v.succeed v.outAddr (limbTag v.key v.buf) 16
  | .sealCmd => v.sealValue v.key v.nonce
  | .openCmd => v.openValue v.key v.nonce
  | .xseal => v.sealValue (derive v.key v.nonce24).1 (derive v.key v.nonce24).2
  | .xopen => v.openValue (derive v.key v.nonce24).1 (derive v.key v.nonce24).2

/-- What a command checks, in order, before its body (R14). -/
def commandCauses (i : Instr) (v : State) : List (Bool × ErrorKind) :=
  match i with
  | .block => v.blockCauses
  | .xor => v.xorCauses
  | .derive => v.deriveCauses
  | .xxor => v.xxorCauses
  | .mac => v.macCauses
  | .sealCmd => v.sealCauses
  | .openCmd => v.openCauses
  | .xseal => v.xsealCauses
  | .xopen => v.xopenCauses

/-! #### Each body on the registers gives the body on values -/

/-- A normal end, seen by the HOST: the registers it leaves do not matter, the bytes it stores do. -/
theorem State.succeed_visible (s : State) (g : Hidden) (addr : DWord) {bytes value : List Byte} (len : Nat)
    (h : bytes = value) : ({ s with hidden := g }.succeed addr bytes len).visible = s.visible.succeed addr value len := by
  rw [h]; rfl

/-- The nonce operand of an X command has 24 bytes, so `SUBNONCE` takes all of the derived subnonce (R173). -/
theorem State.runDerive_subnonce (s : State) (g : Hidden) :
    (g.runDerive s.key s.nonce24).xe.subnonce.toList = (derive s.key s.nonce24).2 :=
  Hidden.runDerive_subnonce g s.key (Memory.readBytes_length _ _ _)

@[simp] theorem State.visible_aad (s : State) : s.visible.aad = s.aad := rfl
@[simp] theorem State.visible_buf (s : State) : s.visible.buf = s.buf := rfl

theorem State.blockBody_visible (s : State) : s.blockBody.visible = valueBody .block s.visible :=
  s.succeed_visible _ _ _ (WordMatrixCore.runBlock_ks _ _ _ _)

theorem State.xorBody_visible (s : State) : s.xorBody.visible = valueBody .xor s.visible :=
  s.succeed_visible _ _ _ (Hidden.runStream_snd _ _ _ _ _)

theorem State.deriveBody_visible (s : State) : s.deriveBody.visible = valueBody .derive s.visible :=
  s.succeed_visible _ _ _ (congrArg₂ _ (Hidden.runDerive_subkey _ _ _) (s.runDerive_subnonce _))

theorem State.xxorBody_visible (s : State) : s.xxorBody.visible = valueBody .xxor s.visible := by
  refine s.succeed_visible _ _ _ ?_
  rw [Hidden.runStream_snd, Hidden.runDerive_subkey, s.runDerive_subnonce]
  rfl

theorem State.macBody_visible (s : State) : s.macBody.visible = valueBody .mac s.visible :=
  s.succeed_visible _ _ _ (Hidden.runMac_tagx _ _ _)

theorem State.sealWith_visible (s : State) (g : Hidden) (key nonce : List Byte) :
    (s.sealWith g key nonce).visible = s.visible.sealValue key nonce :=
  s.succeed_visible _ _ _ (Hidden.runSeal_snd _ _ _ _ _)

theorem State.openWith_visible (s : State) (g : Hidden) (key nonce : List Byte) :
    (s.openWith g key nonce).visible = s.visible.openValue key nonce := by
  have htags : ((g.runVerify key nonce s.aad s.buf).ac.diff == 0) =
      tagEqual (limbTag (tagKey key nonce) (macInput s.aad (sealedText s.buf))) (sealedTag s.buf) := by
    rw [Hidden.runVerify_diff, tagEqual]
  simp only [State.openWith, State.openValue, State.visible_aad, State.visible_buf, ← htags]
  cases (g.runVerify key nonce s.aad s.buf).ac.diff == 0 with
  | true => exact s.succeed_visible _ _ _ (Hidden.runStream_snd _ _ _ _ _)
  | false => rfl

theorem State.xsealBody_visible (s : State) : s.xsealBody.visible = valueBody .xseal s.visible := by
  rw [State.xsealBody, State.sealWith_visible, Hidden.runDerive_subkey, s.runDerive_subnonce]
  rfl

theorem State.xopenBody_visible (s : State) : s.xopenBody.visible = valueBody .xopen s.visible := by
  rw [State.xopenBody, State.openWith_visible, Hidden.runDerive_subkey, s.runDerive_subnonce]
  rfl

/-! #### The agents and the step -/

/-- A command whose body, seen by the HOST, is `value` on what the HOST sees, is to the HOST the command with that body. -/
theorem State.runCommand_sameToHost {s t : State} (causes : List (Bool × ErrorKind)) {body value : State → State}
    (hst : t.visible = s.visible) (hbody : (body t).visible = value s.visible) :
    SameToHost (t.runCommand causes body) (s.visible.runCommand causes value) := by
  cases hc : firstCause causes with
  | some e =>
    rw [State.runCommand_error body hc, State.runCommand_error value hc]
    exact .next _ _ (congrArg (State.raiseError · e) hst)
  | none =>
    rw [State.runCommand_body body hc, State.runCommand_body value hc, ← hbody]
    exact .next _ _ rfl

/-- A command as the HOST sees it: its checks, then its body on values. -/
theorem exec_sameToHost_value (i : Instr) (s : State) :
    SameToHost (exec i s) (s.visible.runCommand (commandCauses i s.visible) (valueBody i)) := by
  cases i with
  | block => exact exec_block s ▸ State.runCommand_sameToHost s.blockCauses rfl s.blockBody_visible
  | xor => exact exec_xor s ▸ State.runCommand_sameToHost s.xorCauses rfl s.xorBody_visible
  | derive => exact exec_derive s ▸ State.runCommand_sameToHost s.deriveCauses rfl s.deriveBody_visible
  | xxor => exact exec_xxor s ▸ State.runCommand_sameToHost s.xxorCauses rfl s.xxorBody_visible
  | mac => exact exec_mac s ▸ State.runCommand_sameToHost s.macCauses rfl s.macBody_visible
  | sealCmd =>
    rw [exec_sealCmd]
    exact State.runCommand_sameToHost s.sealCauses rfl (s.beginAead.sealWith_visible _ _ _)
  | openCmd =>
    rw [exec_openCmd]
    exact State.runCommand_sameToHost s.openCauses rfl (s.beginAead.openWith_visible _ _ _)
  | xseal =>
    rw [exec_xseal]
    exact State.runCommand_sameToHost s.xsealCauses rfl s.beginAead.xsealBody_visible
  | xopen =>
    rw [exec_xopen]
    exact State.runCommand_sameToHost s.xopenCauses rfl s.beginAead.xopenBody_visible

/-- No command shows what the internal register files held. -/
theorem exec_visible (i : Instr) (s : State) : SameToHost (exec i s) (exec i s.visible) :=
  (exec_sameToHost_value i s).trans (exec_sameToHost_value i s.visible).symm

/-- The ENGINE's turn does not show what the internal register files held. -/
theorem engineTurn_visible (s : State) : SameToHost (engineTurn s) (engineTurn s.visible) := by
  cases hp : s.pend with
  | none =>
    rw [engineTurn_idle hp, engineTurn_idle (s := s.visible) hp]
    exact .next _ _ rfl
  | some w =>
    rw [engineTurn_pending hp, engineTurn_pending (s := s.visible) hp]
    unfold completeWord
    cases decode w with
    | ok i => exact exec_visible i s
    | error r => exact .next _ _ rfl

/-- A register write neither reads nor writes an internal register (R31). -/
theorem State.regWrite_visible (s : State) (slot : Nat) (v : DWord) :
    (s.regWrite slot v).visible = s.visible.regWrite slot v := by
  unfold State.regWrite
  split <;> rfl

/-- No HOST access reaches an internal register: there are only the slots and the DATA space. -/
theorem hostPerform_visible (a : HostAccess) (s : State) : SameToHost (hostPerform a s) (hostPerform a s.visible) := by
  cases a with
  | regWrite offset width v => exact .ite (s.regWrite_visible _ v ▸ rfl)
  | regRead offset width => exact .ite rfl
  | dataWrite addr size v =>
    simp only [hostPerform]
    cases dataValueOk size v with
    | true => exact .ite rfl
    | false => exact .refused _
  | dataRead addr size => exact .ite rfl
  | bytesWrite addr bytes => exact .ite rfl
  | bytesRead addr count => exact .ite rfl

/-- The HOST's turn does not show what the internal register files hold. -/
theorem hostTurn_visible (s : State) : SameToHost (hostTurn s) (hostTurn s.visible) := by
  unfold hostTurn
  cases hb : s.status.busy with
  | true =>
    simp only [State.visible_status, hb, if_true, hostTurnBusy, State.visible_script]
    cases s.script with
    | nil => exact .next _ _ rfl
    | cons a rest =>
      cases ha : isStatusRead a with
      | true =>
        simp only [ha, if_true]
        exact hostPerform_visible a { s with script := rest }
      | false =>
        simp only [ha, Bool.false_eq_true, if_false]
        exact .next _ _ rfl
  | false =>
    simp only [State.visible_status, hb, Bool.false_eq_true, if_false, hostTurnIdle, State.visible_held, State.visible_script]
    cases s.held with
    | cons a rest => exact hostPerform_visible a { s with held := rest }
    | nil =>
      cases s.script with
      | nil => exact .next _ _ rfl
      | cons a rest => exact hostPerform_visible a { s with script := rest, held := [] }

/-- The step lemma of R35: no step shows what the internal register files held. -/
theorem step_visible (s : State) : SameToHost (step s) (step s.visible) := by
  unfold step
  simp only [State.visible_schedule, State.visible_pend]
  cases s.schedule with
  | nil =>
    cases s.pend with
    | some w => exact engineTurn_visible s
    | none => exact hostTurn_visible s
  | cons turn rest =>
    cases turn with
    | host => exact hostTurn_visible { s with schedule := rest }
    | engine => exact engineTurn_visible { s with schedule := rest }
    | reset left => exact .next _ _ rfl

/-- A run whose first step is refused is refused. -/
theorem core_run_succ_refused {s : State} {r : Refusal} (h : step s = .refused r) (n : Nat) :
    Sys2Proof.core.run (n + 1) s = .refused r := by
  have hstep : Sys2Proof.core.step s = .refused r := h
  simp only [Host.Core.run, hstep]

/-- Runs from states that look the same to the HOST look the same to it, step after step. -/
theorem core_run_sameToHost (n : Nat) {s u : State} (h : s.visible = u.visible) :
    SameToHost (Sys2Proof.core.run n s) (Sys2Proof.core.run n u) := by
  induction n generalizing s u with
  | zero => exact .next s u h
  | succ n ih =>
    have hstep : SameToHost (step s) (step u) := (step_visible s).trans (h ▸ (step_visible u).symm)
    generalize hs : step s = o, hu : step u = p at hstep
    cases hstep with
    | next s' u' h' =>
      rw [core_run_succ hs, core_run_succ hu]
      exact ih h'
    | fault r => exact nomatch r
    | refused r =>
      rw [core_run_succ_refused hs, core_run_succ_refused hu]
      exact .refused r

/-- Settles O60: a state with other internal register files looks the same to the HOST, and so do the runs from it. -/
theorem hiddenRegistersAreUnobservable : Obligations.HiddenRegistersAreUnobservable := by
  unfold Obligations.HiddenRegistersAreUnobservable
  exact fun n _ _ => core_run_sameToHost n rfl

end Sys2Proof.Machine

/-! ### The REG space and the reset values (10_state.md rules R28 to R32 and R37) -/

namespace Sys2Proof.Machine

/-- STATUS, RES_LEN and the reserved slots ignore a write (R29, R30, R31). -/
theorem State.regWrite_ignored (s : State) {slot : Nat} (v : DWord) (h : slot = 1 ∨ slot = 2 ∨ 13 ≤ slot) :
    s.regWrite slot v = s := by
  rcases h with rfl | rfl | h
  · rfl
  · rfl
  · obtain ⟨k, rfl⟩ := Nat.exists_eq_add_of_le' h
    rfl

/-- CMD and the reserved slots read 0 (R28, R31). -/
theorem State.regRead_zero (s : State) {slot : Nat} (h : slot = 0 ∨ 13 ≤ slot) : s.regRead slot = 0 := by
  rcases h with rfl | h
  · rfl
  · obtain ⟨k, rfl⟩ := Nat.exists_eq_add_of_le' h
    rfl

/-- A descriptor register reads back what was written to it (R31). -/
theorem State.regRead_regWrite_descriptor (s : State) {slot : Nat} (v : DWord) (hlo : 4 ≤ slot) (hhi : slot ≤ 12) :
    (s.regWrite slot v).regRead slot = v := by
  interval_cases slot <;> rfl

/-- CTR reads back the low 32 bits of what was written to it (R31). -/
theorem State.regRead_regWrite_ctr (s : State) (v : DWord) : (s.regWrite 3 v).regRead 3 = v &&& 0xFFFFFFFF := by
  show (v.setWidth 32).setWidth 64 = v &&& 0xFFFFFFFF
  apply BitVec.eq_of_toNat_eq
  have hmask : (v &&& 0xFFFFFFFF).toNat = v.toNat % 2 ^ 32 := Nat.and_two_pow_sub_one_eq_mod v.toNat 32
  rw [hmask, BitVec.toNat_setWidth, BitVec.toNat_setWidth]
  omega

/-- A write to any slot but CMD leaves what every other slot reads as (R31). -/
theorem State.regRead_regWrite_other (s : State) {slot other : Nat} (v : DWord) (hcmd : slot ≠ 0) (hne : other ≠ slot) :
    (s.regWrite slot v).regRead other = s.regRead other := by
  by_cases hign : slot = 1 ∨ slot = 2 ∨ 13 ≤ slot
  · rw [s.regWrite_ignored v hign]
  · obtain ⟨hlo, hhi⟩ : 3 ≤ slot ∧ slot ≤ 12 := by omega
    -- each of these writes one register, which no arm of `regRead` but the slot's own reads
    unfold State.regRead
    interval_cases slot <;> split <;> trivial

/-- Settles O12, slot by slot of the register map. -/
theorem registerSlotsReadBack : Obligations.RegisterSlotsReadBack := by
  unfold Obligations.RegisterSlotsReadBack
  intro s slot v _
  exact ⟨s.regRead_regWrite_descriptor v, s.regRead_regWrite_ctr v, State.regRead_zero _, s.regWrite_ignored v,
    fun hcmd _ _ hne => s.regRead_regWrite_other v hcmd hne⟩

/-- Settles O13: `regAccessOk` is the condition of R32, and it alone decides whether a REG access is performed. -/
theorem regAccessesAreAlignedEightByteOnly : Obligations.RegAccessesAreAlignedEightByteOnly := by
  unfold Obligations.RegAccessesAreAlignedEightByteOnly
  intro s offset width v
  constructor
  · intro hbad
    have hok : ¬ regAccessOk offset width = true := fun h => hbad ((regAccessOk_iff offset width).mp h)
    exact ⟨if_neg hok, if_neg hok⟩
  · intro halign hlt hwidth
    have hok : regAccessOk offset width = true := (regAccessOk_iff offset width).mpr ⟨halign, hlt, hwidth⟩
    exact ⟨if_pos hok, if_pos hok⟩

/-- Settles O16, register by register of R37. -/
theorem resetGivesTheStatedValues : Obligations.ResetGivesTheStatedValues :=
  ⟨rfl, rfl, rfl, rfl, rfl, rfl, rfl, rfl, rfl, rfl, rfl, rfl, rfl⟩

end Sys2Proof.Machine

/-! ### What a command leaves unchanged (10_state.md rule R38) -/

namespace Sys2Proof.Machine

/-! #### Operands, the HOST's side and the DATA space -/

/-- Error entry leaves the operands and the HOST's side (R269), whatever the internal register files hold. -/
theorem State.raiseError_sameOperands (s : State) (g : Hidden) (e : ErrorKind) :
    SameOperands s ({ s with hidden := g }.raiseError e) :=
  ⟨rfl, rfl, rfl, rfl, rfl, rfl, rfl, rfl, rfl, rfl, rfl, rfl, rfl, rfl, rfl⟩

/-- The normal end leaves the operands and the HOST's side (R98), whatever the internal register files hold. -/
theorem State.succeed_sameOperands (s : State) (g : Hidden) (addr : DWord) (bytes : List Byte) (len : Nat) :
    SameOperands s ({ s with hidden := g }.succeed addr bytes len) :=
  ⟨rfl, rfl, rfl, rfl, rfl, rfl, rfl, rfl, rfl, rfl, rfl, rfl, rfl, rfl, rfl⟩

/-- Settles O54: a command ends in error entry, which writes no DATA byte, or stores exactly the range of its row. -/
theorem commandsWriteOnlyTheirOwnRange : Obligations.CommandsWriteOnlyTheirOwnRange := by
  unfold Obligations.CommandsWriteOnlyTheirOwnRange
  intro i s t ht
  rcases exec_endsWithin i s with ⟨e, g, he⟩ | ⟨g, bytes, hl, -, len, hs⟩
  · cases he.symm.trans ht
    exact ⟨s.raiseError_sameOperands g e, fun _ _ => rfl⟩
  · cases hs.symm.trans ht
    exact ⟨s.succeed_sameOperands g _ bytes len, fun x hx => Memory.read_writeBytes_outside _ _ _ _ (hl ▸ hx)⟩

/-! #### The internal register files -/

@[simp] theorem Hidden.runDerive_s0 (g : Hidden) (key nonce24 : List Byte) :
    (g.runDerive key nonce24).wmc.s0 = g.wmc.s0 := by
  simp [Hidden.runDerive, WordMatrixCore.runHChaCha, WordMatrixCore.permute_eq, WordMatrixCore.hInit]

@[simp] theorem Hidden.runDerive_ks (g : Hidden) (key nonce24 : List Byte) :
    (g.runDerive key nonce24).wmc.ks = g.wmc.ks := by
  simp [Hidden.runDerive, WordMatrixCore.runHChaCha, WordMatrixCore.permute_eq, WordMatrixCore.hInit]

@[simp] theorem Hidden.runDerive_bctr (g : Hidden) (key nonce24 : List Byte) :
    (g.runDerive key nonce24).wmc.bctr = g.wmc.bctr := by
  simp [Hidden.runDerive, WordMatrixCore.runHChaCha, WordMatrixCore.permute_eq, WordMatrixCore.hInit]

@[simp] theorem Hidden.runTagKey_xe (g : Hidden) (key nonce : List Byte) : (g.runTagKey key nonce).xe = g.xe := by
  simp [Hidden.runTagKey]

@[simp] theorem Hidden.runTagKey_diff (g : Hidden) (key nonce : List Byte) :
    (g.runTagKey key nonce).ac.diff = g.ac.diff := by
  simp [Hidden.runTagKey]

@[simp] theorem Hidden.runAssembly_xe (g : Hidden) (aad ct : List Byte) : (g.runAssembly aad ct).xe = g.xe := rfl

@[simp] theorem Hidden.runAssembly_diff (g : Hidden) (aad ct : List Byte) :
    (g.runAssembly aad ct).ac.diff = g.ac.diff := rfl

/-- Seal does not write the XChaCha20 Extension's registers. -/
@[simp] theorem Hidden.runSeal_xe (g : Hidden) (key nonce aad pt : List Byte) :
    (g.runSeal key nonce aad pt).1.xe = g.xe := by
  simp [Hidden.runSeal]

/-- Seal compares no tags (R234). -/
@[simp] theorem Hidden.runSeal_diff (g : Hidden) (key nonce aad pt : List Byte) :
    (g.runSeal key nonce aad pt).1.ac.diff = g.ac.diff := by
  simp [Hidden.runSeal]

/-- Verify does not write the XChaCha20 Extension's registers. -/
@[simp] theorem Hidden.runVerify_xe (g : Hidden) (key nonce aad sealed : List Byte) :
    (g.runVerify key nonce aad sealed).xe = g.xe := by
  simp [Hidden.runVerify, Hidden.runCompare]

@[simp] theorem State.sealWith_xe (s : State) (g : Hidden) (key nonce : List Byte) :
    (s.sealWith g key nonce).hidden.xe = g.xe := Hidden.runSeal_xe _ _ _ _ _

@[simp] theorem State.sealWith_diff (s : State) (g : Hidden) (key nonce : List Byte) :
    (s.sealWith g key nonce).hidden.ac.diff = g.ac.diff := Hidden.runSeal_diff _ _ _ _ _

@[simp] theorem State.openWith_xe (s : State) (g : Hidden) (key nonce : List Byte) :
    (s.openWith g key nonce).hidden.xe = g.xe := by
  unfold State.openWith
  dsimp only
  split
  · exact (Hidden.runStream_xe _ _ _ _ _).trans (Hidden.runVerify_xe _ _ _ _ _)
  · exact Hidden.runVerify_xe _ _ _ _ _

/-! #### The commands -/

/-- Whatever of the internal register files the state a command begins in and the one its body answers share, every state the
command ends in shares: error entry writes none of them (log entry 14). -/
theorem State.hidden_of_runCommand {s t : State} {causes : List (Bool × ErrorKind)} {body : State → State}
    (ht : s.runCommand causes body = .next t) (P : Hidden → Prop) (hstart : P s.hidden) (hbody : P (body s).hidden) :
    P t.hidden := by
  rcases State.runCommand_cases s causes body with ⟨e, -, he⟩ | ⟨-, hb⟩
  · cases he.symm.trans ht
    exact hstart
  · cases hb.symm.trans ht
    exact hbody

theorem execBlock_leaves {s t : State} (ht : exec .block s = .next t) :
    t.hidden.se = s.hidden.se ∧ t.hidden.xe = s.hidden.xe ∧ t.hidden.pa = s.hidden.pa ∧ t.hidden.ac = s.hidden.ac :=
  State.hidden_of_runCommand ((exec_block s).symm.trans ht)
    (fun g => g.se = s.hidden.se ∧ g.xe = s.hidden.xe ∧ g.pa = s.hidden.pa ∧ g.ac = s.hidden.ac)
    ⟨rfl, rfl, rfl, rfl⟩ (by simp [State.blockBody])

theorem execXor_leaves {s t : State} (ht : exec .xor s = .next t) :
    t.hidden.xe = s.hidden.xe ∧ t.hidden.pa = s.hidden.pa ∧ t.hidden.ac = s.hidden.ac :=
  State.hidden_of_runCommand ((exec_xor s).symm.trans ht)
    (fun g => g.xe = s.hidden.xe ∧ g.pa = s.hidden.pa ∧ g.ac = s.hidden.ac)
    ⟨rfl, rfl, rfl⟩ (by simp [State.xorBody])

theorem execDerive_leaves {s t : State} (ht : exec .derive s = .next t) :
    t.hidden.wmc.s0 = s.hidden.wmc.s0 ∧ t.hidden.wmc.ks = s.hidden.wmc.ks ∧ t.hidden.wmc.bctr = s.hidden.wmc.bctr ∧
    t.hidden.se = s.hidden.se ∧ t.hidden.pa = s.hidden.pa ∧ t.hidden.ac = s.hidden.ac :=
  State.hidden_of_runCommand ((exec_derive s).symm.trans ht)
    (fun g => g.wmc.s0 = s.hidden.wmc.s0 ∧ g.wmc.ks = s.hidden.wmc.ks ∧ g.wmc.bctr = s.hidden.wmc.bctr ∧
      g.se = s.hidden.se ∧ g.pa = s.hidden.pa ∧ g.ac = s.hidden.ac)
    ⟨rfl, rfl, rfl, rfl, rfl, rfl⟩ (by simp [State.deriveBody])

theorem execXxor_leaves {s t : State} (ht : exec .xxor s = .next t) :
    t.hidden.pa = s.hidden.pa ∧ t.hidden.ac = s.hidden.ac :=
  State.hidden_of_runCommand ((exec_xxor s).symm.trans ht) (fun g => g.pa = s.hidden.pa ∧ g.ac = s.hidden.ac)
    ⟨rfl, rfl⟩ (by simp [State.xxorBody])

theorem execMac_leaves {s t : State} (ht : exec .mac s = .next t) :
    t.hidden.wmc = s.hidden.wmc ∧ t.hidden.se = s.hidden.se ∧ t.hidden.xe = s.hidden.xe ∧ t.hidden.ac = s.hidden.ac :=
  State.hidden_of_runCommand ((exec_mac s).symm.trans ht)
    (fun g => g.wmc = s.hidden.wmc ∧ g.se = s.hidden.se ∧ g.xe = s.hidden.xe ∧ g.ac = s.hidden.ac)
    ⟨rfl, rfl, rfl, rfl⟩ (by simp [State.macBody])

theorem execSeal_leaves {s t : State} (ht : exec .sealCmd s = .next t) :
    t.hidden.xe = s.hidden.xe ∧ t.hidden.ac.diff = s.hidden.ac.diff :=
  State.hidden_of_runCommand ((exec_sealCmd s).symm.trans ht)
    (fun g => g.xe = s.hidden.xe ∧ g.ac.diff = s.hidden.ac.diff)
    ⟨rfl, rfl⟩ (by simp [State.sealBody])

theorem execOpen_leaves {s t : State} (ht : exec .openCmd s = .next t) : t.hidden.xe = s.hidden.xe :=
  State.hidden_of_runCommand ((exec_openCmd s).symm.trans ht) (fun g => g.xe = s.hidden.xe)
    rfl (by simp [State.openBody])

theorem execXseal_leaves {s t : State} (ht : exec .xseal s = .next t) : t.hidden.ac.diff = s.hidden.ac.diff :=
  State.hidden_of_runCommand ((exec_xseal s).symm.trans ht) (fun g => g.ac.diff = s.hidden.ac.diff)
    rfl (by simp [State.xsealBody])

/-- Settles O55, command by command. -/
theorem commandsLeaveTheRegistersTheyDoNotUse : Obligations.CommandsLeaveTheRegistersTheyDoNotUse := by
  unfold Obligations.CommandsLeaveTheRegistersTheyDoNotUse
  exact fun _ _ => ⟨execBlock_leaves, execXor_leaves, execDerive_leaves, execXxor_leaves, execMac_leaves, execSeal_leaves,
    execOpen_leaves, execXseal_leaves⟩

end Sys2Proof.Machine

/-! ### The HOST's accesses to the DATA space and the exclusion (20_memory.md rules R62, R65, R69 and R73) -/

namespace Sys2Proof.Machine

/-! #### The DATA space -/

/-- The range check against the populated set, address by address (R62). -/
theorem State.validRange_iff {s : State} (hpop : popWf s.pop) (a : DWord) (n : Nat) :
    s.validRange a n = true ↔
      n = 0 ∨ (a.toNat + n ≤ 2 ^ 64 ∧ ∀ k, k < n → populated s.pop (a.toNat + k) = true) := by
  constructor
  · intro h
    have htop : n = 0 ∨ a.toNat + n ≤ 2 ^ 64 := by
      simp only [State.validRange, Bool.or_eq_true, beq_iff_eq, Bool.and_eq_true, decide_eq_true_eq] at h
      exact h.imp_right And.left
    exact htop.imp_right fun hle => ⟨hle, State.validRange_populated h⟩
  · intro h
    simp only [State.validRange, Bool.or_eq_true, beq_iff_eq, Bool.and_eq_true, decide_eq_true_eq]
    refine h.imp_right fun ⟨hle, hall⟩ => ⟨hle, populated_covers hpop.1 fun x hlo hhi => ?_⟩
    have hx := hall (x - a.toNat) (by omega)
    rwa [Nat.add_sub_cancel' hlo] at hx

/-- A range with an unpopulated address is not valid (R62). -/
theorem State.validRange_false_of_unpopulated {s : State} {a : DWord} {n k : Nat} (hk : k < n)
    (h : populated s.pop (a.toNat + k) = false) : s.validRange a n = false :=
  Bool.eq_false_iff.mpr fun hv => Bool.eq_false_iff.mp h (State.validRange_populated hv k hk)

/-- A DATA write whose value fits is the `MemWrite` of the value's bytes (R65). -/
theorem hostPerform_dataWrite {size : DataSize} {v : DWord} (hv : v.toNat < 2 ^ (8 * size.bytes)) (addr : DWord) (s : State) :
    hostPerform (.dataWrite addr size v) s = s.hostStore addr (ser v.toNat size.bytes) :=
  if_pos (decide_eq_true hv)

theorem State.hostStore_of_valid {s : State} {addr : DWord} {bytes : List Byte} (h : s.validRange addr bytes.length = true) :
    s.hostStore addr bytes = .next { s with mem := s.mem.writeBytes addr.toNat bytes } :=
  if_pos h

theorem State.hostStore_of_invalid {s : State} {addr : DWord} {bytes : List Byte}
    (h : s.validRange addr bytes.length = false) : s.hostStore addr bytes = .refused .dataAddressNotPopulated :=
  if_neg (Bool.eq_false_iff.mp h)

theorem hostPerform_dataRead_of_valid {s : State} {addr : DWord} {size : DataSize} (h : s.validRange addr size.bytes = true) :
    hostPerform (.dataRead addr size) s =
      .next (s.reply (.data addr (BitVec.ofNat 64 (le (s.mem.readBytes addr.toNat size.bytes))))) :=
  if_pos h

theorem hostPerform_dataRead_of_invalid {s : State} {addr : DWord} {size : DataSize}
    (h : s.validRange addr size.bytes = false) :
    hostPerform (.dataRead addr size) s = .refused .dataAddressNotPopulated :=
  if_neg (Bool.eq_false_iff.mp h)

/-- A DATA read of a range that holds the bytes of a value returns that value (R11, R65). -/
theorem hostPerform_dataRead_of_ser {s : State} {addr : DWord} {size : DataSize} {v : DWord}
    (hvalid : s.validRange addr size.bytes = true) (hv : v.toNat < 2 ^ (8 * size.bytes))
    (hbytes : s.mem.readBytes addr.toNat size.bytes = ser v.toNat size.bytes) :
    hostPerform (.dataRead addr size) s = .next { s with replies := .data addr v :: s.replies } := by
  rw [hostPerform_dataRead_of_valid hvalid, hbytes, le_ser, Nat.mod_eq_of_lt hv, BitVec.ofNat_toNat, BitVec.setWidth_eq]
  rfl

/-- Settles O19: the interval walk is the check of R62. -/
theorem rangeCheckMeansEveryAddressIsPopulated : Obligations.RangeCheckMeansEveryAddressIsPopulated := by
  unfold Obligations.RangeCheckMeansEveryAddressIsPopulated
  exact fun _ a n hpop => State.validRange_iff hpop a n

/-- Settles O14: both writes are one `MemWrite` into a valid range, and what `MemWrite` stored is what a read of the range finds. -/
theorem hostWriteThenReadReturnsTheValue : Obligations.HostWriteThenReadReturnsTheValue := by
  unfold Obligations.HostWriteThenReadReturnsTheValue
  intro s addr size v hwf hv hvalid
  have hlen : (ser v.toNat size.bytes).length = size.bytes := ser_length _ _
  have hback : (s.mem.writeBytes addr.toNat (ser v.toNat size.bytes)).readBytes addr.toNat size.bytes =
      ser v.toNat size.bytes := by
    simpa only [hlen] using Memory.readBytes_writeBytes hwf addr.toNat (ser v.toNat size.bytes)
  rw [hostPerform_dataWrite hv]
  exact ⟨rfl, _, State.hostStore_of_valid (hlen.symm ▸ hvalid), hback,
    fun x hx => Memory.read_writeBytes_outside _ _ _ _ (hlen.symm ▸ hx),
    hostPerform_dataRead_of_ser hvalid hv hback⟩

/-- Settles O15: one unpopulated address makes the range invalid, and neither access is performed on an invalid range. -/
theorem hostAccessToUnpopulatedByteIsRefused : Obligations.HostAccessToUnpopulatedByteIsRefused := by
  unfold Obligations.HostAccessToUnpopulatedByteIsRefused
  intro s addr size v _ hv ⟨k, hk, hunpop⟩
  have hbad : s.validRange addr size.bytes = false := State.validRange_false_of_unpopulated hk hunpop
  refine ⟨hostPerform_dataRead_of_invalid hbad, ?_⟩
  rw [hostPerform_dataWrite hv, State.hostStore_of_invalid ((ser_length v.toNat size.bytes).symm ▸ hbad)]

/-! #### The HOST's turn -/

/-- The one access that is not held while BUSY is 1: the aligned read of STATUS (R69). -/
theorem isStatusRead_iff (a : HostAccess) : isStatusRead a = true ↔ a = .regRead 0x08 8 := by
  cases a <;> simp [isStatusRead]

/-- While BUSY is 1 a read of STATUS is performed at once (R69). -/
theorem hostTurn_of_statusRead {s : State} {a : HostAccess} {rest : List HostAccess} (hbusy : s.status.busy = true)
    (hscript : s.script = a :: rest) (ha : isStatusRead a = true) :
    hostTurn s = hostPerform a { s with script := rest } := by
  simp only [hostTurn, hbusy, if_true, hostTurnBusy, hscript, ha]

/-- While BUSY is 1 every other access is held (R69). -/
theorem hostTurn_of_not_statusRead {s : State} {a : HostAccess} {rest : List HostAccess} (hbusy : s.status.busy = true)
    (hscript : s.script = a :: rest) (ha : isStatusRead a = false) :
    hostTurn s = .next { s with script := rest, held := s.held ++ [a] } := by
  simp only [hostTurn, hbusy, if_true, hostTurnBusy, hscript, ha, Bool.false_eq_true, if_false]

/-- While BUSY is 0 the oldest held access is performed (R69). -/
theorem hostTurn_of_held {s : State} {a : HostAccess} {rest : List HostAccess} (hbusy : s.status.busy = false)
    (hheld : s.held = a :: rest) : hostTurn s = hostPerform a { s with held := rest } := by
  simp only [hostTurn, hbusy, Bool.false_eq_true, if_false, hostTurnIdle, hheld]

/-- Of the values STATUS takes, only the pending one has BUSY 1 (R281). -/
theorem LegalStatus.eq_pending_of_busy {f : Status} (h : LegalStatus f) (hbusy : f.busy = true) : f = .pending := by
  cases h with
  | pending => rfl
  | cleared => exact absurd hbusy Bool.false_ne_true
  | ok => exact absurd hbusy Bool.false_ne_true
  | failed e => exact absurd hbusy Bool.false_ne_true

/-- Settles O8: an access that is no STATUS read is held. -/
theorem busyHoldsEveryOtherAccess : Obligations.BusyHoldsEveryOtherAccess := by
  unfold Obligations.BusyHoldsEveryOtherAccess
  intro s a rest hbusy hscript hne
  have hnot : isStatusRead a = false := Bool.eq_false_iff.mpr fun h => hne ((isStatusRead_iff a).mp h)
  exact hostTurn_of_not_statusRead hbusy hscript hnot

/-- Settles O9: under the invariant BUSY 1 fixes every field of STATUS, so the word read is 0x0001. -/
theorem statusReadWhileBusyReturnsBusy : Obligations.StatusReadWhileBusyReturnsBusy := by
  unfold Obligations.StatusReadWhileBusyReturnsBusy
  intro s rest hinv hbusy hscript
  have hword : s.status.word = 0x0001 := by
    rw [hinv.statusLegal.eq_pending_of_busy hbusy]
    rfl
  rw [hostTurn_of_statusRead hbusy hscript rfl, ← hword]
  rfl

/-- Settles O10: while BUSY is 0 the HOST's turn looks at the held accesses before the script. -/
theorem heldAccessIsPerformedFirst : Obligations.HeldAccessIsPerformedFirst := by
  unfold Obligations.HeldAccessIsPerformedFirst
  exact fun _ _ _ => hostTurn_of_held

end Sys2Proof.Machine

/-! ### Encoding, issue and completion (30_encoding.md rules R90 to R99) -/

namespace Sys2Proof.Machine

/-! #### The opcode map -/

/-- Every row of the opcode map compares all 32 bits with the word of its own command (R91). -/
theorem opcodeMap_row {row : OpcodeRow} (h : row ∈ opcodeMap) :
    row.mask = BitVec.allOnes 32 ∧ row.pattern = encode row.instr := by
  have hrows : ∀ row ∈ opcodeMap, row.mask = BitVec.allOnes 32 ∧ row.pattern = encode row.instr := by decide
  exact hrows row h

/-- A word selects a row of the opcode map only if it is the word of the row's command (R91). -/
theorem eq_encode_of_selectedBy {row : OpcodeRow} {w : Word} (hrow : row ∈ opcodeMap) (h : row.selectedBy w = true) :
    w = encode row.instr := by
  obtain ⟨hmask, hpattern⟩ := opcodeMap_row hrow
  rw [OpcodeRow.selectedBy, hmask, BitVec.and_allOnes, beq_iff_eq] at h
  exact h.trans hpattern

/-- The round trip of PerInstr.lean for whichever command (R90, R91). -/
theorem roundTrip (i : Instr) : Laws.RoundTrip.Statement i := by
  cases i with
  | block => exact Laws.RoundTrip.block
  | xor => exact Laws.RoundTrip.xor
  | derive => exact Laws.RoundTrip.derive
  | xxor => exact Laws.RoundTrip.xxor
  | mac => exact Laws.RoundTrip.mac
  | sealCmd => exact Laws.RoundTrip.sealCmd
  | openCmd => exact Laws.RoundTrip.openCmd
  | xseal => exact Laws.RoundTrip.xseal
  | xopen => exact Laws.RoundTrip.xopen

theorem decode_encode (i : Instr) : decode (encode i) = .ok i := by
  obtain ⟨-, -, hdecode, -⟩ := roundTrip i
  exact hdecode

/-- A word that decodes to a command selects a row of the opcode map for it (R91). -/
theorem exists_row_of_decode {w : Word} {i : Instr} (h : decode w = .ok i) :
    ∃ row ∈ opcodeMap, row.selectedBy w = true ∧ row.instr = i := by
  unfold decode at h
  cases hfind : opcodeMap.find? (fun row => row.selectedBy w) with
  | some row =>
    rw [hfind] at h
    exact ⟨row, List.mem_of_find?_eq_some hfind, List.find?_some (p := (OpcodeRow.selectedBy · w)) hfind, Except.ok.inj h⟩
  | none =>
    rw [hfind] at h
    dsimp only at h
    split at h <;> cases h

/-- The encoder gives the only word that decodes to a command (R91). -/
theorem decode_eq_ok_iff (w : Word) (i : Instr) : decode w = .ok i ↔ w = encode i := by
  constructor
  · intro h
    obtain ⟨row, hrow, hselected, rfl⟩ := exists_row_of_decode h
    exact eq_encode_of_selectedBy hrow hselected
  · rintro rfl
    exact decode_encode i

/-- The encodings are the words 1 to 9 (R91). -/
theorem exists_eq_encode_iff (w : Word) : (∃ i, w = encode i) ↔ 1 ≤ w.toNat ∧ w.toNat ≤ 9 := by
  constructor
  · rintro ⟨i, rfl⟩
    cases i <;> decide
  · rintro ⟨hlo, hhi⟩
    have hword : w = BitVec.ofNat 32 w.toNat := by simp
    generalize w.toNat = n at hlo hhi hword
    subst hword
    interval_cases n
    · exact ⟨.block, rfl⟩
    · exact ⟨.xor, rfl⟩
    · exact ⟨.derive, rfl⟩
    · exact ⟨.xxor, rfl⟩
    · exact ⟨.mac, rfl⟩
    · exact ⟨.sealCmd, rfl⟩
    · exact ⟨.openCmd, rfl⟩
    · exact ⟨.xseal, rfl⟩
    · exact ⟨.xopen, rfl⟩

/-- Settles O1: each row of the opcode map masks no bit out, so a word selects it only by being its command's word. -/
theorem exactlyNineWordsAreCommands : Obligations.ExactlyNineWordsAreCommands := by
  unfold Obligations.ExactlyNineWordsAreCommands
  refine ⟨rfl, rfl, rfl, rfl, rfl, rfl, rfl, rfl, rfl, decode_eq_ok_iff, fun w => ?_⟩
  simp only [decode_eq_ok_iff]
  exact exists_eq_encode_iff w

/-- Settles O2: the words written out are the encodings of the nine commands. -/
theorem wordsOfTheOpcodeMapDecode : Obligations.WordsOfTheOpcodeMapDecode :=
  ⟨decode_encode .block, decode_encode .xor, decode_encode .derive, decode_encode .xxor, decode_encode .mac,
    decode_encode .sealCmd, decode_encode .openCmd, decode_encode .xseal, decode_encode .xopen⟩

/-! #### The ENGINE's turn -/

/-- A legal command word completes as its command (R98). -/
theorem completeWord_of_decode {w : Word} {i : Instr} (h : decode w = .ok i) (s : State) : completeWord w s = exec i s := by
  simp only [completeWord, h]

/-- The ENGINE's turn on a pending legal word is that command (R98). -/
theorem engineTurn_of_decode {s : State} {w : Word} {i : Instr} (hpend : s.pend = some w) (h : decode w = .ok i) :
    engineTurn s = exec i s :=
  (engineTurn_pending hpend).trans (completeWord_of_decode h s)

/-- Where the schedule is used up, the ENGINE moves while a word is pending (log entry 5). -/
theorem step_of_schedule_nil {s : State} {w : Word} (hschedule : s.schedule = []) (hpend : s.pend = some w) :
    step s = engineTurn s := by
  simp only [step, hschedule, hpend]

/-- The ENGINE moves where the schedule gives it the turn (log entry 5). -/
theorem step_of_schedule_engine {s : State} {rest : List Turn} (hschedule : s.schedule = .engine :: rest) :
    step s = engineTurn { s with schedule := rest } := by
  simp only [step, hschedule]

/-- Settles O3: either way the step is the ENGINE's turn, and that turn completes the pending word. -/
theorem stepRunsThePendingCommand : Obligations.StepRunsThePendingCommand := by
  unfold Obligations.StepRunsThePendingCommand
  intro s w i hpend hdecode
  constructor
  · intro hschedule
    exact (step_of_schedule_nil hschedule hpend).trans (engineTurn_of_decode hpend hdecode)
  · intro rest hschedule
    exact (step_of_schedule_engine hschedule).trans (engineTurn_of_decode hpend hdecode)

/-! #### Issue -/

/-- While BUSY is 0 and nothing is held, the HOST's next access is performed (R69). -/
theorem hostTurn_of_script {s : State} {a : HostAccess} {rest : List HostAccess} (hbusy : s.status.busy = false)
    (hheld : s.held = []) (hscript : s.script = a :: rest) : hostTurn s = hostPerform a { s with script := rest } := by
  simp only [hostTurn, hbusy, Bool.false_eq_true, if_false, hostTurnIdle, hheld, hscript]

/-- A write to CMD issues the low 32 bits of the value (R28, R97). -/
theorem hostPerform_cmdWrite (v : DWord) (s : State) :
    hostPerform (.regWrite 0x00 8 v) s = .next (s.issue (v.setWidth 32)) := rfl

/-- Settles O5: the access is performed, and performing it is issue. -/
theorem writeToCmdIssues : Obligations.WriteToCmdIssues := by
  unfold Obligations.WriteToCmdIssues
  intro s v rest hbusy hheld hscript
  rw [hostTurn_of_script hbusy hheld hscript, hostPerform_cmdWrite]
  rfl

/-! #### Completion -/

/-- Settles O6: error entry and the normal end, the two ways a command ends, both empty PEND and set DONE. -/
theorem everyCommandCompletes : Obligations.EveryCommandCompletes := by
  unfold Obligations.EveryCommandCompletes
  intro i s
  rcases exec_endsWithin i s with ⟨e, g, he⟩ | ⟨g, bytes, -, -, len, hs⟩
  · exact ⟨_, he, rfl, .inr ⟨e, rfl, rfl⟩⟩
  · exact ⟨_, hs, rfl, .inl rfl⟩

/-! #### What a command's product depends on (R99) -/

/-- What a command produces: the DATA bytes, STATUS and RES_LEN (R98). -/
def State.product (s : State) : Memory × Status × DWord := (s.mem, s.status, s.resLen)

/-- States that look the same to the HOST hold the same product. -/
theorem State.product_eq_of_visible_eq {s t : State} (h : s.visible = t.visible) : s.product = t.product := by
  have hview : s.visible.product = t.visible.product := by rw [h]
  exact hview

/-- The state with everything a command may not depend on as at reset: what is left is the operand registers, the DATA space and
the populated set (R99). -/
def State.operandView (s : State) : State :=
  { State.reset with
    ctr := s.ctr, keyAddr := s.keyAddr, keyLen := s.keyLen, nonceAddr := s.nonceAddr, nonceLen := s.nonceLen,
    aadAddr := s.aadAddr, aadLen := s.aadLen, bufAddr := s.bufAddr, bufLen := s.bufLen, outAddr := s.outAddr,
    mem := s.mem, pop := s.pop }

/-- The checks of a command read operands only. -/
theorem commandCauses_operandView (i : Instr) (s : State) : commandCauses i s.operandView = commandCauses i s := by
  cases i <;> rfl

/-- OPEN on values produces what it does from the operands only: the comparison is of tags that are functions of them. -/
theorem State.openValue_product (s : State) (key nonce : List Byte) :
    (s.operandView.openValue key nonce).product = (s.openValue key nonce).product := by
  unfold State.openValue
  rw [apply_ite State.product, apply_ite State.product]
  rfl

/-- The body of a command on values produces what it does from the operands only. -/
theorem valueBody_product (i : Instr) (s : State) : (valueBody i s.operandView).product = (valueBody i s).product := by
  cases i with
  | block => rfl
  | xor => rfl
  | derive => rfl
  | xxor => rfl
  | mac => rfl
  | sealCmd => rfl
  | openCmd => exact s.openValue_product _ _
  | xseal => rfl
  | xopen => exact s.openValue_product _ _

/-- An outcome the HOST cannot tell from a next state is a next state that looks the same. -/
theorem SameToHost.exists_next {o : Host.Outcome State Fault Refusal} {u : State} (h : SameToHost o (.next u)) :
    ∃ t, o = .next t ∧ t.visible = u.visible := by
  cases h with
  | next t _ hv => exact ⟨t, rfl, hv⟩

/-- A command produces what its checks and its body on values give on the operands alone. -/
theorem exec_product (i : Instr) (s : State) :
    ∃ t v, exec i s = .next t ∧
      s.operandView.runCommand (commandCauses i s.operandView) (valueBody i) = .next v ∧ t.product = v.product := by
  have hsame := exec_sameToHost_value i s
  have hcauses : commandCauses i s.operandView = commandCauses i s.visible := commandCauses_operandView i s.visible
  rcases State.runCommand_cases s.visible (commandCauses i s.visible) (valueBody i) with ⟨e, hc, he⟩ | ⟨hc, hb⟩
  · obtain ⟨t, ht, hv⟩ := (he ▸ hsame).exists_next
    have hproduct : t.product = (s.visible.raiseError e).product := State.product_eq_of_visible_eq hv
    exact ⟨t, _, ht, State.runCommand_error _ (hcauses ▸ hc), hproduct⟩
  · obtain ⟨t, ht, hv⟩ := (hb ▸ hsame).exists_next
    have hproduct : t.product = (valueBody i s.visible).product := State.product_eq_of_visible_eq hv
    exact ⟨t, _, ht, State.runCommand_body _ (hcauses ▸ hc), hproduct.trans (valueBody_product i s.visible).symm⟩

/-- Settles O7: states that agree in the premises have one `operandView`, and that fixes the product. -/
theorem resultDependsOnOperandsAndDataOnly : Obligations.ResultDependsOnOperandsAndDataOnly := by
  unfold Obligations.ResultDependsOnOperandsAndDataOnly
  intro i s u hctr hkeyAddr hkeyLen hnonceAddr hnonceLen haadAddr haadLen hbufAddr hbufLen houtAddr hmem hpop
  have hview : s.operandView = u.operandView := by
    simp only [State.operandView, hctr, hkeyAddr, hkeyLen, hnonceAddr, hnonceLen, haadAddr, haadLen, hbufAddr, hbufLen,
      houtAddr, hmem, hpop]
  obtain ⟨t, p, ht, hp, htp⟩ := exec_product i s
  obtain ⟨v, q, hv, hq, hvq⟩ := exec_product i u
  rw [hview] at hp
  have hpq : p = q := Host.Outcome.next.inj (hp.symm.trans hq)
  have hproduct : t.product = v.product := htp.trans (hpq ▸ hvq.symm)
  simp only [State.product, Prod.mk.injEq] at hproduct
  exact ⟨t, v, ht, hv, hproduct⟩

end Sys2Proof.Machine

/-! ### The Word-Matrix Core (40_block_function.md rules R122 to R131) -/

namespace Sys2Proof.Machine

/-! #### The quarter-round -/

/-- `rotl32` is the library's left rotation (R10). -/
theorem rotl32_eq_rotateLeft (x : Word) {n : Nat} (h : n < 32) : rotl32 x n = x.rotateLeft n := by
  rw [rotl32, BitVec.rotateLeft_def, Nat.mod_eq_of_lt h]

/-- A rotation loses no bit: bit `i` of the word moves to bit `i + n`, or to `i + n - 32` past the end. -/
theorem rotl32_injective {n : Nat} (h : n < 32) : Function.Injective (rotl32 · n) := by
  intro x y hxy
  simp only [rotl32_eq_rotateLeft _ h] at hxy
  ext i hi
  by_cases hwrap : i + n < 32
  · have hbit := congrArg (BitVec.getLsbD · (i + n)) hxy
    simpa [BitVec.getLsbD_rotateLeft, Nat.mod_eq_of_lt h, hwrap] using hbit
  · have hbit := congrArg (BitVec.getLsbD · (i + n - 32)) hxy
    have hlt : i + n - 32 < n := by omega
    have hback : 32 - n + (i + n - 32) = i := by omega
    simpa [BitVec.getLsbD_rotateLeft, Nat.mod_eq_of_lt h, hlt, hback, BitVec.getLsbD_eq_getElem hi] using hbit

/-- The four stages of R123 on four words are the twelve operations of R122. -/
theorem quarterRound_eq (a b c d : Word) :
    quarterRound (a, b, c, d) =
      (let a1 := a + b
       let d1 := (d ^^^ a1).rotateLeft 16
       let c1 := c + d1
       let b1 := (b ^^^ c1).rotateLeft 12
       let a2 := a1 + b1
       let d2 := (d1 ^^^ a2).rotateLeft 8
       let c2 := c1 + d2
       let b2 := (b1 ^^^ c2).rotateLeft 7
       (a2, b2, c2, d2)) := by
  simp only [quarterRound, qrStage1, qrStage2, qrStage3, qrStage4, add32, xor32,
    rotl32_eq_rotateLeft _ (show 16 < 32 by decide), rotl32_eq_rotateLeft _ (show 12 < 32 by decide),
    rotl32_eq_rotateLeft _ (show 8 < 32 by decide), rotl32_eq_rotateLeft _ (show 7 < 32 by decide)]

/-- The three operations every stage of the quarter-round consists of (R123): add, exclusive-or, rotate by `n`. -/
def mixWords (n : Nat) (v : Word × Word × Word × Word) : Word × Word × Word × Word :=
  match v with
  | (a, b, c, d) => (add32 a b, b, c, rotl32 (xor32 d (add32 a b)) n)

/-- The first pair of words and the second one exchanged. -/
def swapPairs (v : Word × Word × Word × Word) : Word × Word × Word × Word :=
  match v with
  | (a, b, c, d) => (c, d, a, b)

/-- QR is four mixings, the second and the fourth with the pairs exchanged (R122, R123). -/
theorem quarterRound_eq_mixWords :
    quarterRound =
      swapPairs ∘ mixWords 7 ∘ swapPairs ∘ mixWords 8 ∘ swapPairs ∘ mixWords 12 ∘ swapPairs ∘ mixWords 16 := rfl

theorem swapPairs_injective : Function.Injective swapPairs :=
  Function.Involutive.injective fun _ => rfl

/-- A mixing is undone by the rotation, the exclusive-or and the addition undone in turn (R124). -/
theorem mixWords_injective {n : Nat} (h : n < 32) : Function.Injective (mixWords n) := by
  rintro ⟨a, b, c, d⟩ ⟨a', b', c', d'⟩ heq
  simp only [mixWords, add32, xor32, Prod.mk.injEq] at heq
  obtain ⟨hsum, rfl, rfl, hrot⟩ := heq
  have ha : a = a' := (BitVec.add_left_inj b).mp hsum
  have hxor := rotl32_injective h hrot
  have hd : d = d' := (BitVec.xor_left_inj (a + b)).mp (hsum ▸ hxor)
  rw [ha, hd]

theorem quarterRound_injective : Function.Injective quarterRound := by
  rw [quarterRound_eq_mixWords]
  exact swapPairs_injective.comp <| (mixWords_injective (by decide)).comp <|
    swapPairs_injective.comp <| (mixWords_injective (by decide)).comp <|
    swapPairs_injective.comp <| (mixWords_injective (by decide)).comp <|
    swapPairs_injective.comp <| mixWords_injective (by decide)

/-! #### QRX on the matrix -/

theorem StateMatrix.ext {x y : StateMatrix} (h : ∀ i : Fin 16, x[i] = y[i]) : x = y :=
  Vector.ext fun i hi => h ⟨i, hi⟩

/-- The four words of the matrix at the indices QRX is given hold QR of what they held (R122). -/
theorem qrx_lane {p q r t : Fin 16} (h : [p, q, r, t].Nodup) (m : StateMatrix) :
    ((qrx p q r t m)[p], (qrx p q r t m)[q], (qrx p q r t m)[r], (qrx p q r t m)[t]) =
      quarterRound (m[p], m[q], m[r], m[t]) := by
  simp only [List.nodup_cons, List.mem_cons, List.not_mem_nil, or_false, not_or] at h
  obtain ⟨⟨hpq, hpr, hpt⟩, ⟨hqr, hqt⟩, hrt, -⟩ := h
  unfold qrx
  generalize quarterRound (m[p], m[q], m[r], m[t]) = v
  simp [Fin.val_inj, Ne.symm hpq, Ne.symm hpr, Ne.symm hpt, Ne.symm hqr, Ne.symm hqt, Ne.symm hrt]

/-- QRX leaves every other word of the matrix (R122). -/
theorem qrx_frame {p q r t i : Fin 16} (h : i ∉ [p, q, r, t]) (m : StateMatrix) : (qrx p q r t m)[i] = m[i] := by
  simp only [List.mem_cons, List.not_mem_nil, or_false, not_or] at h
  obtain ⟨hp, hq, hr, ht⟩ := h
  simp [qrx, Fin.val_inj, Ne.symm hp, Ne.symm hq, Ne.symm hr, Ne.symm ht]

/-- Settles O20: the stages written out, and QRX read word by word. -/
theorem quarterRoundIsTheTwelveOperations : Obligations.QuarterRoundIsTheTwelveOperations := by
  unfold Obligations.QuarterRoundIsTheTwelveOperations
  exact ⟨quarterRound_eq, fun _ _ _ _ m hnodup => ⟨qrx_lane hnodup m, fun _ hi => qrx_frame hi m⟩⟩

/-! #### The rounds are bijections -/

/-- There are finitely many matrices, so an injective map on them is a bijection. -/
theorem StateMatrix.bijective_of_injective {f : StateMatrix → StateMatrix} (h : Function.Injective f) :
    Function.Bijective f := by
  have hfinite : Finite StateMatrix :=
    Finite.of_injective (fun (m : StateMatrix) (i : Fin 16) => m[i]) fun _ _ heq => StateMatrix.ext (congrFun heq)
  exact Finite.injective_iff_bijective.mp h

/-- Two matrices with one image under QRX agree on its lane, because QR is injective, and off it, because QRX changes nothing
there (R124). -/
theorem qrx_bijective {p q r t : Fin 16} (h : [p, q, r, t].Nodup) : Function.Bijective (qrx p q r t) := by
  refine StateMatrix.bijective_of_injective fun x y hxy => StateMatrix.ext fun i => ?_
  by_cases hi : i ∈ [p, q, r, t]
  · have hlane : quarterRound (x[p], x[q], x[r], x[t]) = quarterRound (y[p], y[q], y[r], y[t]) := by
      rw [← qrx_lane h x, hxy, qrx_lane h y]
    have hwords := quarterRound_injective hlane
    simp only [Prod.mk.injEq] at hwords
    obtain ⟨hp, hq, hr, ht⟩ := hwords
    simp only [List.mem_cons, List.not_mem_nil, or_false] at hi
    rcases hi with rfl | rfl | rfl | rfl <;> assumption
  · rw [← qrx_frame hi x, hxy, qrx_frame hi y]

theorem colRound_bijective : Function.Bijective colRound :=
  (qrx_bijective (by decide)).comp <| (qrx_bijective (by decide)).comp <|
    (qrx_bijective (by decide)).comp <| qrx_bijective (by decide)

theorem diagRound_bijective : Function.Bijective diagRound :=
  (qrx_bijective (by decide)).comp <| (qrx_bijective (by decide)).comp <|
    (qrx_bijective (by decide)).comp <| qrx_bijective (by decide)

theorem doubleRound_bijective : Function.Bijective doubleRound := diagRound_bijective.comp colRound_bijective

/-- PERMUTE iterates DROUND (R128). -/
theorem permute_eq_iterate : permute = doubleRound^[10] := by
  funext m
  exact List.foldl_const doubleRound m (List.range 10)

/-- Settles O21: every round is a composition of QRX on distinct indices. -/
theorem roundsAreBijections : Obligations.RoundsAreBijections := by
  unfold Obligations.RoundsAreBijections
  refine ⟨Finite.injective_iff_bijective.mp quarterRound_injective, colRound_bijective, diagRound_bijective,
    doubleRound_bijective, ?_⟩
  exact permute_eq_iterate ▸ doubleRound_bijective.iterate 10

/-! #### The lanes of a round in any order -/

/-- What QRX puts on its lane depends on nothing off the lane. -/
theorem qrx_congr {p q r t : Fin 16} (h : [p, q, r, t].Nodup) {x y : StateMatrix}
    (hxy : ∀ i ∈ [p, q, r, t], x[i] = y[i]) : ∀ i ∈ [p, q, r, t], (qrx p q r t x)[i] = (qrx p q r t y)[i] := by
  have hlane := qrx_lane h x
  simp only [List.forall_mem_cons, List.not_mem_nil, false_implies, implies_true, and_true] at hxy ⊢
  obtain ⟨hp, hq, hr, ht⟩ := hxy
  rw [hp, hq, hr, ht, ← qrx_lane h y] at hlane
  simpa only [Prod.mk.injEq] using hlane

/-- Two QRX on lanes with no index in common may be exchanged (R127). -/
theorem qrx_commute {p q r t p' q' r' t' : Fin 16} (h : ([p, q, r, t] ++ [p', q', r', t']).Nodup) :
    Function.Commute (qrx p q r t) (qrx p' q' r' t') := by
  obtain ⟨hlane, hlane', hdis⟩ := List.nodup_append'.mp h
  refine fun m => StateMatrix.ext fun i => ?_
  by_cases hi : i ∈ [p, q, r, t]
  · rw [qrx_frame (hdis hi)]
    exact qrx_congr hlane (fun j hj => qrx_frame (hdis hj) m) i hi
  · rw [qrx_frame hi]
    by_cases hi' : i ∈ [p', q', r', t']
    · exact (qrx_congr hlane' (fun j hj => qrx_frame (hdis.symm hj) m) i hi').symm
    · rw [qrx_frame hi', qrx_frame hi', qrx_frame hi]

/-- QRX on the lane whose indices are listed in `l`. -/
def qrxOn (l : Fin 16 × Fin 16 × Fin 16 × Fin 16) : StateMatrix → StateMatrix := qrx l.1 l.2.1 l.2.2.1 l.2.2.2

/-- The indices of a lane. -/
def laneIndices (l : Fin 16 × Fin 16 × Fin 16 × Fin 16) : List (Fin 16) := [l.1, l.2.1, l.2.2.1, l.2.2.2]

/-- QRX on lanes no two of which share an index commute pairwise (R127). -/
theorem qrxOn_pairwise_commute {ls : List (Fin 16 × Fin 16 × Fin 16 × Fin 16)}
    (h : ls.Pairwise fun l l' => (laneIndices l ++ laneIndices l').Nodup) : (ls.map qrxOn).Pairwise Function.Commute :=
  List.pairwise_map.mpr (h.imp fun hdis => qrx_commute hdis)

/-- Maps that commute pairwise give one result in every order. -/
theorem foldl_apply_eq_of_perm {α : Type} {fs gs : List (α → α)} (hperm : fs.Perm gs)
    (hcomm : gs.Pairwise Function.Commute) (a : α) : fs.foldl (fun x f => f x) a = gs.foldl (fun x f => f x) a := by
  have hsymm : Std.Symm (Function.Commute (α := α)) := ⟨fun _ _ h => h.symm⟩
  refine (hperm.symm.foldl_eq' (fun f hf g hg x => ?_) a).symm
  exact (hcomm.forall_of_forall (fun f _ => Function.Commute.refl f) hg hf) x

/-- Settles O22: the four lanes of a round have no index in common, so they commute. -/
theorem lanesMayRunInAnyOrder : Obligations.LanesMayRunInAnyOrder := by
  unfold Obligations.LanesMayRunInAnyOrder
  have hcolumns : [qrx 0 4 8 12, qrx 1 5 9 13, qrx 2 6 10 14, qrx 3 7 11 15].Pairwise Function.Commute :=
    qrxOn_pairwise_commute (ls := [(0, 4, 8, 12), (1, 5, 9, 13), (2, 6, 10, 14), (3, 7, 11, 15)]) (by decide)
  have hdiagonals : [qrx 0 5 10 15, qrx 1 6 11 12, qrx 2 7 8 13, qrx 3 4 9 14].Pairwise Function.Commute :=
    qrxOn_pairwise_commute (ls := [(0, 5, 10, 15), (1, 6, 11, 12), (2, 7, 8, 13), (3, 4, 9, 14)]) (by decide)
  exact ⟨fun _ hperm m => foldl_apply_eq_of_perm hperm hcolumns m,
    fun _ hperm m => foldl_apply_eq_of_perm hperm hdiagonals m⟩

/-! #### Serialisation -/

/-- Byte `k` of a serialised integer (R11). -/
theorem ser_getElem? (v : Nat) {n k : Nat} (h : k < n) : (ser v n)[k]? = some (BitVec.ofNat 8 (v / 2 ^ (8 * k))) := by
  induction n generalizing v k with
  | zero => omega
  | succ n ih =>
    cases k with
    | zero => simp [ser]
    | succ k =>
      have hdiv : v / 256 / 2 ^ (8 * k) = v / 2 ^ (8 * (k + 1)) := by
        rw [Nat.div_div_eq_div_mul, Nat.mul_add, Nat.add_comm, Nat.pow_add]
      simp [ser, ih (v / 256) (Nat.lt_of_succ_lt_succ h), hdiv]

/-- Byte `k` of a serialised word is its bits `8k + 7` to `8k` (R63). -/
theorem serWord_getElem? (w : Word) {k : Nat} (h : k < 4) : (serWord w)[k]? = some (w.extractLsb' (8 * k) 8) := by
  rw [serWord, ser_getElem? _ h]
  congr 1
  apply BitVec.eq_of_toNat_eq
  rw [BitVec.toNat_ofNat, BitVec.extractLsb'_toNat, Nat.shiftRight_eq_div_pow]

/-- The words of a list serialised one after another: the bytes from `4i` are those of word `i`. -/
theorem flatMap_serWord_getElem? (words : List Word) (i : Nat) {k : Nat} (h : k < 4) :
    (words.flatMap serWord)[4 * i + k]? = words[i]?.bind fun w => (serWord w)[k]? := by
  induction words generalizing i with
  | nil => rfl
  | cons w ws ih =>
    rw [List.flatMap_cons]
    cases i with
    | zero => simp [List.getElem?_append_left, h]
    | succ i =>
      rw [List.getElem?_append_right (by simp; omega), serWord_length, show 4 * (i + 1) + k - 4 = 4 * i + k by omega, ih]
      simp

/-- Settles O23: byte `4i + k` lies in the four bytes of word `i`. -/
theorem serializedByteIsAByteOfItsWord : Obligations.SerializedByteIsAByteOfItsWord := by
  unfold Obligations.SerializedByteIsAByteOfItsWord
  refine fun x => ⟨serialize_length x, fun i k hk => ?_⟩
  rw [serialize, flatMap_serWord_getElem? _ _ hk]
  simp [serWord_getElem? _ hk]

/-! #### The checks of a command -/

theorem State.badKeyLength_iff (s : State) : s.badKeyLength = true ↔ s.keyLen ≠ 32 := bne_iff_ne

theorem State.badNonceLength_iff (s : State) (n : DWord) : s.badNonceLength n = true ↔ s.nonceLen ≠ n := bne_iff_ne

theorem State.badKeyLength_false {s : State} (h : s.keyLen = 32) : s.badKeyLength = false := bne_eq_false_iff_eq.mpr h

theorem State.badNonceLength_false {s : State} {n : DWord} (h : s.nonceLen = n) : s.badNonceLength n = false :=
  bne_eq_false_iff_eq.mpr h

theorem State.badRange_iff (s : State) (ranges : List (DWord × Nat)) :
    s.badRange ranges = true ↔ ¬ ∀ r ∈ ranges, s.validRange r.1 r.2 = true := by
  rw [State.badRange, Bool.not_eq_true', ← Bool.not_eq_true, List.all_eq_true]

/-- A command whose first cause that holds is `e` fails with the code of `e` (R268, R269), whatever the internal register files
hold. -/
theorem State.runCommand_fails {s : State} {causes : List (Bool × ErrorKind)} {e : ErrorKind} (g : Hidden)
    (body : State → State) (h : firstCause causes = some e) :
    FailsWith (({ s with hidden := g } : State).runCommand causes body) s e.code := by
  rw [State.runCommand_error body h]
  exact s.raiseError_fails g e

/-! #### The command BLOCK -/

/-- When the ranges BLOCK checks are valid (R131). -/
theorem State.badRange_blockRanges_iff (s : State) :
    s.badRange s.blockRanges = true ↔
      ¬ (s.validRange s.keyAddr 32 = true ∧ s.validRange s.nonceAddr 12 = true ∧ s.validRange s.outAddr 64 = true) := by
  simp [State.badRange_iff, State.blockRanges]

/-- The body of BLOCK ends normally with the keystream block of the operands it was given (R131). -/
theorem State.blockBody_completes {s : State} (h : s.mem.wf) :
    CompletesWith (.next s.blockBody) s s.outAddr (chaCha20Block s.key s.nonce s.ctr) 64 := by
  have hks : (s.hidden.runBlock s.key s.nonce s.ctr).wmc.ks.toList = chaCha20Block s.key s.nonce s.ctr :=
    WordMatrixCore.runBlock_ks _ _ _ _
  rw [State.blockBody, hks]
  exact State.succeed_completes h _ _ _ (by decide)

/-- Settles O24, clause by clause of the list of checks. -/
theorem blockWritesTheKeystreamBlock : Obligations.BlockWritesTheKeystreamBlock := by
  unfold Obligations.BlockWritesTheKeystreamBlock
  intro s hwf
  rw [exec_block]
  refine ⟨fun hkey => ?_, fun hkey hnonce => ?_, fun hkey hnonce hranges => ?_, fun hkey hnonce hk hn ho => ?_⟩
  · refine State.runCommand_fails (e := .invalidKeyLength) s.hidden _ ?_
    rw [State.blockCauses, s.badKeyLength_iff.mpr hkey, firstCause_true]
  · refine State.runCommand_fails (e := .invalidNonceLength) s.hidden _ ?_
    rw [State.blockCauses, State.badKeyLength_false hkey, (s.badNonceLength_iff 12).mpr hnonce, firstCause_false,
      firstCause_true]
  · refine State.runCommand_fails (e := .bufferFault) s.hidden _ ?_
    rw [State.blockCauses, State.badKeyLength_false hkey, State.badNonceLength_false hnonce,
      s.badRange_blockRanges_iff.mpr hranges, firstCause_false, firstCause_false, firstCause_true]
  · have hgood : s.badRange s.blockRanges = false :=
      Bool.eq_false_iff.mpr fun hbad => s.badRange_blockRanges_iff.mp hbad ⟨hk, hn, ho⟩
    have hcauses : firstCause s.blockCauses = none := by
      rw [State.blockCauses, State.badKeyLength_false hkey, State.badNonceLength_false hnonce, hgood, firstCause_false,
        firstCause_false, firstCause_false, firstCause_nil]
    rw [State.runCommand_body _ hcauses]
    exact State.blockBody_completes hwf

end Sys2Proof.Machine

/-! ### The ChaCha20 Stream Engine (41_stream_engine.md rules R150 to R154) -/

namespace Sys2Proof.Machine

/-! #### The chunk counters -/

/-- The overflow condition, written out (R151). -/
theorem counterOverflow_iff (ctr : Word) (n : Nat) :
    counterOverflow ctr n = true ↔ 1 ≤ (n + 63) / 64 ∧ ctr.toNat + (n + 63) / 64 - 1 > 2 ^ 32 - 1 := by
  rw [counterOverflow, Bool.and_eq_true, decide_eq_true_iff, decide_eq_true_iff, chunkCount]

/-- Settles O25: the last chunk's counter bounds all of them, so no sum reaches `2^32`. -/
theorem chunkCountersDoNotWrap : Obligations.ChunkCountersDoNotWrap := by
  unfold Obligations.ChunkCountersDoNotWrap
  refine fun ctr n => ⟨counterOverflow_iff ctr n, fun hfits j hj => ?_⟩
  have hlast : ¬ (1 ≤ (n + 63) / 64 ∧ ctr.toNat + (n + 63) / 64 - 1 > 2 ^ 32 - 1) := by
    rw [← counterOverflow_iff, hfits]
    exact Bool.false_ne_true
  rw [BitVec.toNat_add, BitVec.toNat_ofNat]
  omega

/-! #### XorStream, byte by byte -/

/-- Byte `p` of the keystream that starts at counter `ctr`: byte `p mod 64` of the block for counter `ctr + p div 64` (R152). -/
def keystreamByte (key nonce : List Byte) (ctr : Word) (p : Nat) : Byte :=
  (chaCha20Block key nonce (ctr + BitVec.ofNat 32 (p / 64))).getD (p % 64) 0

theorem chaCha20Block_getElem?_mod (key nonce : List Byte) (ctr : Word) (p : Nat) :
    (chaCha20Block key nonce (ctr + BitVec.ofNat 32 (p / 64)))[p % 64]? = some (keystreamByte key nonce ctr p) := by
  have hp : p % 64 < 64 := Nat.mod_lt p (by decide)
  simp [keystreamByte, hp]

/-- The first `k` chunks hold the first `64 k` bytes, or the whole buffer where it is shorter. -/
theorem flatMap_chunkValue_length (key nonce : List Byte) (ctr : Word) (buf : List Byte) (k : Nat) :
    ((List.range k).flatMap (chunkValue key nonce ctr buf)).length = min (64 * k) buf.length := by
  simp only [List.length_flatMap, chunkValue_length, chunkLengths_sum]

theorem chunkValue_getElem? (key nonce : List Byte) (ctr : Word) (buf : List Byte) (p : Nat) :
    (chunkValue key nonce ctr buf (p / 64))[p % 64]? = buf[p]?.map (· ^^^ keystreamByte key nonce ctr p) := by
  have hp : p % 64 < 64 := Nat.mod_lt p (by decide)
  have hchunk : (chunkAt buf (p / 64))[p % 64]? = buf[p]? := by
    rw [chunkAt, slice, List.getElem?_take_of_lt (by omega), List.getElem?_drop, Nat.div_add_mod]
  rw [chunkValue, xorBytes, List.getElem?_zipWith, hchunk, chaCha20Block_getElem?_mod]
  cases buf[p]? <;> rfl

/-- Byte `p` of the chunks in a row is byte `p mod 64` of chunk `p div 64`: every chunk before the last is a full one. -/
theorem flatMap_chunkValue_getElem? (key nonce : List Byte) (ctr : Word) {buf : List Byte} {p k : Nat}
    (hp : p < buf.length) (hk : p < 64 * k) :
    ((List.range k).flatMap (chunkValue key nonce ctr buf))[p]? = (chunkValue key nonce ctr buf (p / 64))[p % 64]? := by
  induction k with
  | zero => omega
  | succ k ih =>
    rw [List.range_succ, List.flatMap_append, List.flatMap_singleton]
    by_cases hlt : p < 64 * k
    · rw [List.getElem?_append_left (by rw [flatMap_chunkValue_length]; omega), ih hlt]
    · have hchunk : p / 64 = k := by omega
      have hoffset : p - min (64 * k) buf.length = p % 64 := by omega
      rw [List.getElem?_append_right (by rw [flatMap_chunkValue_length]; omega), flatMap_chunkValue_length, hoffset, hchunk]

/-- XorStream adds the keystream to the buffer byte by byte (R152). -/
theorem xorStream_getElem? (key nonce : List Byte) (ctr : Word) (buf : List Byte) (p : Nat) :
    (xorStream key nonce ctr buf)[p]? = buf[p]?.map (· ^^^ keystreamByte key nonce ctr p) := by
  by_cases hp : p < buf.length
  · rw [xorStream_eq, flatMap_chunkValue_getElem? key nonce ctr hp (by rw [chunkCount]; omega), chunkValue_getElem?]
  · have hend : buf.length ≤ p := Nat.le_of_not_lt hp
    rw [List.getElem?_eq_none hend, List.getElem?_eq_none (by rwa [xorStream_length]), Option.map_none]

/-- Settles O26: the chunk and the keystream block of byte `p` are both number `p div 64`. -/
theorem streamByteUsesItsOwnKeystreamByte : Obligations.StreamByteUsesItsOwnKeystreamByte := by
  unfold Obligations.StreamByteUsesItsOwnKeystreamByte
  refine fun key nonce ctr buf => ⟨xorStream_length key nonce ctr buf, fun p hp => ?_⟩
  rw [xorStream_getElem?, List.getElem?_eq_getElem hp, ← List.getD_eq_getElem buf 0 hp]
  rfl

theorem xorStream_xorStream (key nonce : List Byte) (ctr : Word) (buf : List Byte) :
    xorStream key nonce ctr (xorStream key nonce ctr buf) = buf := by
  refine List.ext_getElem? fun p => ?_
  rw [xorStream_getElem?, xorStream_getElem?]
  cases buf[p]? with
  | none => rfl
  | some b => simp

theorem xorStream_zeros_getElem? (key nonce : List Byte) (ctr : Word) {n p : Nat} (h : p < n) :
    (xorStream key nonce ctr (zeros n))[p]? = (chaCha20Block key nonce (ctr + BitVec.ofNat 32 (p / 64)))[p % 64]? := by
  rw [xorStream_getElem?, chaCha20Block_getElem?_mod, zeros, List.getElem?_replicate_of_lt h, Option.map_some]
  exact congrArg some BitVec.zero_xor

theorem xorStream_zeros_block (key nonce : List Byte) (ctr : Word) :
    xorStream key nonce ctr (zeros 64) = chaCha20Block key nonce ctr := by
  refine List.ext_getElem? fun p => ?_
  by_cases hp : p < 64
  · rw [xorStream_zeros_getElem? key nonce ctr hp, Nat.div_eq_of_lt hp, Nat.mod_eq_of_lt hp, BitVec.add_zero]
  · have hend : 64 ≤ p := Nat.le_of_not_lt hp
    rw [List.getElem?_eq_none (by rwa [xorStream_length, zeros_length]),
      List.getElem?_eq_none (by rwa [chaCha20Block_length])]

/-- Settles O27: byte by byte, `b xor k xor k = b` and `0 xor k = k`. -/
theorem streamIsItsOwnInverse : Obligations.StreamIsItsOwnInverse := by
  unfold Obligations.StreamIsItsOwnInverse
  exact fun key nonce ctr => ⟨xorStream_xorStream key nonce ctr, fun _ _ => xorStream_zeros_getElem? key nonce ctr,
    xorStream_zeros_block key nonce ctr⟩

/-! #### A command that checks key, nonce, size and ranges -/

/-- The four checks XOR, XXOR, SEAL and XSEAL share, in the order of R268. -/
def State.bufferChecks (s : State) (nonceBytes : DWord) (tooLarge : Bool) (ranges : List (DWord × Nat)) :
    List (Bool × ErrorKind) :=
  [(s.badKeyLength, .invalidKeyLength), (s.badNonceLength nonceBytes, .invalidNonceLength), (tooLarge, .messageTooLarge),
   (s.badRange ranges, .bufferFault)]

/-- A command with these four checks raises the first that fails, and runs its body where none does (R268, R269); `Large` and
`Valid` say what its size check and its range check mean. -/
theorem State.runCommand_bufferChecks {s : State} (g : Hidden) {nonceBytes : DWord} {tooLarge : Bool}
    {ranges : List (DWord × Nat)} {Large Valid : Prop} {body : State → State} {addr : DWord} {bytes : List Byte} {len : Nat}
    {o : Host.Outcome State Fault Refusal}
    (ho : o = ({ s with hidden := g } : State).runCommand (s.bufferChecks nonceBytes tooLarge ranges) body)
    (hlarge : tooLarge = true ↔ Large) (hranges : s.badRange ranges = true ↔ ¬ Valid)
    (hbody : CompletesWith (.next (body { s with hidden := g })) s addr bytes len) :
    (s.keyLen ≠ 32 → FailsWith o s 1) ∧
    (s.keyLen = 32 → s.nonceLen ≠ nonceBytes → FailsWith o s 2) ∧
    (s.keyLen = 32 → s.nonceLen = nonceBytes → Large → FailsWith o s 4) ∧
    (s.keyLen = 32 → s.nonceLen = nonceBytes → ¬ Large → ¬ Valid → FailsWith o s 7) ∧
    (s.keyLen = 32 → s.nonceLen = nonceBytes → ¬ Large → Valid → CompletesWith o s addr bytes len) := by
  subst ho
  refine ⟨fun hkey => ?_, fun hkey hnonce => ?_, fun hkey hnonce hbig => ?_, fun hkey hnonce hsmall hbad => ?_,
    fun hkey hnonce hsmall hvalid => ?_⟩
  · refine State.runCommand_fails (e := .invalidKeyLength) g _ ?_
    rw [State.bufferChecks, s.badKeyLength_iff.mpr hkey, firstCause_true]
  · refine State.runCommand_fails (e := .invalidNonceLength) g _ ?_
    rw [State.bufferChecks, State.badKeyLength_false hkey, (s.badNonceLength_iff _).mpr hnonce, firstCause_false,
      firstCause_true]
  · refine State.runCommand_fails (e := .messageTooLarge) g _ ?_
    rw [State.bufferChecks, State.badKeyLength_false hkey, State.badNonceLength_false hnonce, hlarge.mpr hbig,
      firstCause_false, firstCause_false, firstCause_true]
  · have hfits : tooLarge = false := Bool.eq_false_iff.mpr (mt hlarge.mp hsmall)
    refine State.runCommand_fails (e := .bufferFault) g _ ?_
    rw [State.bufferChecks, State.badKeyLength_false hkey, State.badNonceLength_false hnonce, hfits, hranges.mpr hbad,
      firstCause_false, firstCause_false, firstCause_false, firstCause_true]
  · have hfits : tooLarge = false := Bool.eq_false_iff.mpr (mt hlarge.mp hsmall)
    have hgood : s.badRange ranges = false := Bool.eq_false_iff.mpr fun hbad => hranges.mp hbad hvalid
    have hcauses : firstCause (s.bufferChecks nonceBytes tooLarge ranges) = none := by
      rw [State.bufferChecks, State.badKeyLength_false hkey, State.badNonceLength_false hnonce, hfits, hgood,
        firstCause_false, firstCause_false, firstCause_false, firstCause_false, firstCause_nil]
    rwa [State.runCommand_body _ hcauses]

/-! #### The command XOR -/

/-- XOR is its four checks and its body (R153). -/
theorem exec_xor_bufferChecks (s : State) :
    exec .xor s = s.runCommand (s.bufferChecks 12 s.streamTooLarge s.xorRanges) State.xorBody := rfl

/-- When the ranges XOR checks are valid (R153). -/
theorem State.badRange_xorRanges_iff (s : State) :
    s.badRange s.xorRanges = true ↔
      ¬ (s.validRange s.keyAddr 32 = true ∧ s.validRange s.nonceAddr 12 = true ∧
          s.validRange s.bufAddr s.bufLen.toNat = true) := by
  simp [State.badRange_iff, State.xorRanges]

/-- The body of XOR ends normally with XorStream of the buffer in its place (R153). -/
theorem State.xorBody_completes {s : State} (h : s.mem.wf) :
    CompletesWith (.next s.xorBody) s s.bufAddr (xorStream s.key s.nonce s.ctr s.buf) s.bufLen.toNat := by
  rw [State.xorBody, Hidden.runStream_snd]
  exact State.succeed_completes h _ _ _ s.bufLen.isLt

/-- Settles O28: XOR's checks are the four of `State.bufferChecks`, and its body runs the stream engine in place. -/
theorem xorTransformsTheBufferInPlace : Obligations.XorTransformsTheBufferInPlace := by
  unfold Obligations.XorTransformsTheBufferInPlace
  intro s hwf
  obtain ⟨hkey, hnonce, hlarge, hrange, hdone⟩ := State.runCommand_bufferChecks s.hidden (exec_xor_bufferChecks s)
    (counterOverflow_iff s.ctr s.bufLen.toNat) s.badRange_xorRanges_iff (State.xorBody_completes hwf)
  exact ⟨hkey, hnonce, hlarge, hrange, fun hk hn hsmall hkr hnr hbr => hdone hk hn hsmall ⟨hkr, hnr, hbr⟩⟩

end Sys2Proof.Machine

/-! ### The XChaCha20 Extension (42_xchacha.md rules R170 to R175) -/

namespace Sys2Proof.Machine

/-! #### Slices and words -/

theorem slice_append_left (a b : List Byte) (i : Nat) {j : Nat} (h : j ≤ a.length) : slice (a ++ b) i j = slice a i j := by
  simp only [slice, List.drop_append]
  exact List.take_append_of_le_length (by rw [List.length_drop]; omega)

theorem slice_append_right (a b : List Byte) (i j : Nat) : slice (a ++ b) (a.length + i) (a.length + j) = slice b i j := by
  rw [slice, slice, ← List.drop_drop, List.drop_left, Nat.add_sub_add_left]

/-- A slice of a slice is one slice (R11). -/
theorem slice_slice (bytes : List Byte) (i : Nat) {j k l : Nat} (h : i + l ≤ j) :
    slice (slice bytes i j) k l = slice bytes (i + k) (i + l) := by
  rw [slice, slice, slice, List.drop_take, List.take_take, List.drop_drop, Nat.add_sub_add_left]
  congr 1
  omega

theorem slice_zeros (n i j : Nat) : slice (zeros n) i j = zeros (min (j - i) (n - i)) := by
  rw [slice, zeros, List.drop_replicate, List.take_replicate, zeros]

/-- Zero bytes are the integer 0 (R11). -/
@[simp] theorem le_zeros (n : Nat) : le (zeros n) = 0 := by
  induction n with
  | zero => rfl
  | succ n ih => rw [zeros, List.replicate_succ, le_cons, ← zeros, ih]; rfl

/-- A word is the integer of its bytes, at most four (R63). -/
theorem leWord_toNat {bytes : List Byte} (h : bytes.length ≤ 4) : (leWord bytes).toNat = le bytes := by
  rw [leWord, BitVec.toNat_ofNat]
  exact Nat.mod_eq_of_lt (lt_of_lt_of_le (le_lt bytes) (Nat.pow_le_pow_right (by decide) (by omega)))

theorem wordAt_toNat (bytes : List Byte) (i : Nat) : (wordAt bytes i).toNat = le (slice bytes (4 * i) (4 * i + 4)) :=
  leWord_toNat (by rw [slice_length]; omega)

/-- Every word of zero bytes is 0, past the last one too. -/
@[simp] theorem wordAt_zeros (n i : Nat) : wordAt (zeros n) i = 0 := by
  rw [wordAt, slice_zeros, leWord, le_zeros, BitVec.ofNat_eq_ofNat]

/-- The bytes of a list of words from word `k` on. -/
theorem flatMap_serWord_drop (words : List Word) (k : Nat) :
    (words.flatMap serWord).drop (4 * k) = (words.drop k).flatMap serWord := by
  induction words generalizing k with
  | nil => simp
  | cons w ws ih =>
    cases k with
    | zero => rfl
    | succ k =>
      rw [List.drop_succ_cons, ← ih, List.flatMap_cons, List.drop_append, serWord_length,
        List.drop_eq_nil_of_le (by rw [serWord_length]; omega), Nat.mul_succ, Nat.add_sub_cancel, List.nil_append]

/-! #### The subnonce -/

theorem subNonce_eq {nonce24 : List Byte} (h : nonce24.length = 24) :
    subNonce nonce24 = [0, 0, 0, 0] ++ nonce24.drop 16 := by
  rw [subNonce, slice, List.take_of_length_le (by rw [List.length_drop]; omega)]
  rfl

/-- The subnonce's first word is its four zero bytes (R172). -/
theorem wordAt_subNonce_zero (nonce24 : List Byte) : wordAt (subNonce nonce24) 0 = 0 := by
  rw [wordAt, subNonce, slice_append_left _ _ _ (by rw [zeros_length]), ← wordAt, wordAt_zeros]

/-- The subnonce's other two words are the nonce's last two (R172). -/
theorem wordAt_subNonce_succ (nonce24 : List Byte) {i : Nat} (h : i < 2) :
    wordAt (subNonce nonce24) (i + 1) = wordAt nonce24 (i + 4) := by
  have hstart : 4 * (i + 1) = (zeros 4).length + 4 * i := by rw [zeros_length]; omega
  rw [wordAt, subNonce, hstart, Nat.add_assoc, slice_append_right, slice_slice _ _ (by omega), wordAt]
  congr 2 <;> omega

/-- Settles O29: words 13 to 15 of the matrix are the three words of the subnonce. -/
theorem subnonceWordsInTheMatrix : Obligations.SubnonceWordsInTheMatrix := by
  unfold Obligations.SubnonceWordsInTheMatrix
  intro key nonce24 ctr h
  refine ⟨subNonce_eq h, subNonce_length h, wordAt_subNonce_zero nonce24, ?_, ?_⟩
  · exact (congrArg BitVec.toNat (wordAt_subNonce_succ nonce24 (i := 0) (by decide))).trans (wordAt_toNat nonce24 4)
  · exact (congrArg BitVec.toNat (wordAt_subNonce_succ nonce24 (i := 1) (by decide))).trans (wordAt_toNat nonce24 5)

/-! #### HChaCha20 on a zero input -/

/-- With a zero input HINIT builds the matrix INIT builds for the zero nonce and counter 0 (R170, R121). -/
theorem hInitMatrix_zeros (key : List Byte) : hInitMatrix key (zeros 16) = initMatrix key (zeros 12) 0 := by
  simp only [hInitMatrix, initMatrix, wordAt_zeros]

/-- The last 16 subkey bytes are words 12 to 15 of the permuted matrix (R171). -/
theorem hOut_drop (x : StateMatrix) : (hOut x).drop 16 = (x.toList.drop 12).flatMap serWord := by
  have hfront : (x.toList.take 4).length = 4 := by simp
  exact (flatMap_serWord_drop _ 4).trans (by rw [List.drop_left' hfront])

/-- The feed-forward leaves the words alone from where the original matrix is 0 (R129). -/
theorem feedForward_drop (x : StateMatrix) {s0 : StateMatrix} {n : Nat} (h : ∀ w ∈ s0.toList.drop n, w = 0) :
    (feedForward x s0).toList.drop n = x.toList.drop n := by
  refine List.ext_getElem (by simp) fun i hi _ => ?_
  have hlt : n + i < 16 := by simp at hi; omega
  have hzero : s0[n + i] = 0 := h _ (List.mem_drop_iff_getElem.mpr ⟨i, by simp; omega, by simp⟩)
  simp [feedForward, add32, hzero]

/-- Words 12 to 15 of the matrix: the counter and the nonce (R121). -/
theorem initMatrix_drop (key nonce : List Byte) (ctr : Word) :
    (initMatrix key nonce ctr).toList.drop 12 = [ctr, wordAt nonce 0, wordAt nonce 1, wordAt nonce 2] := rfl

/-- Settles O30: both end with words 12 to 15 of one permuted matrix, to which the feed-forward adds 0. -/
theorem zeroInputSubkeyEndsAsTheBlockDoes : Obligations.ZeroInputSubkeyEndsAsTheBlockDoes := by
  unfold Obligations.ZeroInputSubkeyEndsAsTheBlockDoes
  intro key
  have hzero : ∀ w ∈ (initMatrix key (zeros 12) 0).toList.drop 12, w = 0 := by simp [initMatrix_drop]
  rw [hChaCha20, hOut_drop, hInitMatrix_zeros, ← feedForward_drop _ hzero]
  exact (flatMap_serWord_drop _ 12).symm

/-! #### The command DERIVE -/

@[simp] theorem derive_subkey_length (key nonce24 : List Byte) : (derive key nonce24).1.length = 32 := by
  rw [derive, hChaCha20_length]

theorem derive_subnonce_length (key : List Byte) {nonce24 : List Byte} (h : nonce24.length = 24) :
    (derive key nonce24).2.length = 12 := by
  rw [derive, subNonce_length h]

/-- DERIVE is the checks of `State.bufferChecks`, with no message to be too large, and its body (R174). -/
theorem exec_derive_bufferChecks (s : State) :
    exec .derive s = s.runCommand (s.bufferChecks 24 false s.deriveRanges) State.deriveBody := rfl

/-- When the ranges DERIVE checks are valid (R174). -/
theorem State.badRange_deriveRanges_iff (s : State) :
    s.badRange s.deriveRanges = true ↔
      ¬ (s.validRange s.keyAddr 32 = true ∧ s.validRange s.nonceAddr 24 = true ∧ s.validRange s.outAddr 44 = true) := by
  simp [State.badRange_iff, State.deriveRanges]

theorem State.nonce24_length (s : State) : s.nonce24.length = 24 := Memory.readBytes_length _ _ _

/-- What DERIVE writes has 44 bytes (R174). -/
theorem State.derived_length (s : State) : ((derive s.key s.nonce24).1 ++ (derive s.key s.nonce24).2).length = 44 := by
  rw [List.length_append, derive_subkey_length, derive_subnonce_length _ s.nonce24_length]

/-- The body of DERIVE ends normally with the subkey and the subnonce at `OUT_ADDR` (R174). -/
theorem State.deriveBody_completes {s : State} (h : s.mem.wf) :
    CompletesWith (.next s.deriveBody) s s.outAddr ((derive s.key s.nonce24).1 ++ (derive s.key s.nonce24).2) 44 := by
  rw [State.deriveBody, Hidden.runDerive_subkey, s.runDerive_subnonce]
  exact State.succeed_completes h _ _ _ (by decide)

/-- Settles O31: DERIVE's checks are those of `State.bufferChecks` but the size check, and its body writes what
`Derive` gives. -/
theorem deriveWritesSubkeyAndSubnonce : Obligations.DeriveWritesSubkeyAndSubnonce := by
  unfold Obligations.DeriveWritesSubkeyAndSubnonce
  intro s hwf
  obtain ⟨hkey, hnonce, -, hrange, hdone⟩ := State.runCommand_bufferChecks s.hidden (exec_derive_bufferChecks s)
    (iff_of_false Bool.false_ne_true not_false) s.badRange_deriveRanges_iff (State.deriveBody_completes hwf)
  exact ⟨hkey, hnonce, fun hk hn => hrange hk hn not_false, fun hk hn hkr hnr hor => hdone hk hn not_false ⟨hkr, hnr, hor⟩⟩

/-! #### The command XXOR -/

/-- XXOR is its four checks and its body (R175). -/
theorem exec_xxor_bufferChecks (s : State) :
    exec .xxor s = s.runCommand (s.bufferChecks 24 s.streamTooLarge s.xxorRanges) State.xxorBody := rfl

/-- When the ranges XXOR checks are valid (R175). -/
theorem State.badRange_xxorRanges_iff (s : State) :
    s.badRange s.xxorRanges = true ↔
      ¬ (s.validRange s.keyAddr 32 = true ∧ s.validRange s.nonceAddr 24 = true ∧
          s.validRange s.bufAddr s.bufLen.toNat = true) := by
  simp [State.badRange_iff, State.xxorRanges]

/-- The body of XXOR ends normally with XorStream of the buffer, under the derived subkey and subnonce, in its place
(R175). -/
theorem State.xxorBody_completes {s : State} (h : s.mem.wf) :
    CompletesWith (.next s.xxorBody) s s.bufAddr
      (xorStream (derive s.key s.nonce24).1 (derive s.key s.nonce24).2 s.ctr s.buf) s.bufLen.toNat := by
  rw [State.xxorBody, Hidden.runStream_snd, Hidden.runDerive_subkey, s.runDerive_subnonce]
  exact State.succeed_completes h _ _ _ s.bufLen.isLt

/-- Settles O32: XXOR's checks are the four of `State.bufferChecks`, and its body runs the stream engine under what it
derives. -/
theorem xxorTransformsTheBufferUnderTheSubkey : Obligations.XxorTransformsTheBufferUnderTheSubkey := by
  unfold Obligations.XxorTransformsTheBufferUnderTheSubkey
  intro s hwf
  obtain ⟨hkey, hnonce, hlarge, hrange, hdone⟩ := State.runCommand_bufferChecks s.hidden (exec_xxor_bufferChecks s)
    (counterOverflow_iff s.ctr s.bufLen.toNat) s.badRange_xxorRanges_iff (State.xxorBody_completes hwf)
  exact ⟨hkey, hnonce, hlarge, hrange, fun hk hn hsmall hkr hnr hbr => hdone hk hn hsmall ⟨hkr, hnr, hbr⟩⟩

/-! #### DERIVE and then XOR -/

/-- The checks pass exactly when each of them does (R268). -/
theorem State.bufferChecks_pass_iff (s : State) (nonceBytes : DWord) (tooLarge : Bool) (ranges : List (DWord × Nat)) :
    firstCause (s.bufferChecks nonceBytes tooLarge ranges) = none ↔
      s.keyLen = 32 ∧ s.nonceLen = nonceBytes ∧ tooLarge = false ∧ ∀ r ∈ ranges, s.validRange r.1 r.2 = true := by
  simp [firstCause, State.bufferChecks, State.badKeyLength, State.badNonceLength, State.badRange]

/-- A command that ends with no error has passed its checks and run its body (R98). -/
theorem State.runCommand_eq_next_ok {s t : State} {causes : List (Bool × ErrorKind)} {body : State → State}
    (ht : s.runCommand causes body = .next t) (hok : t.status = .ok) : firstCause causes = none ∧ t = body s := by
  rcases State.runCommand_cases s causes body with ⟨e, -, he⟩ | ⟨hnone, hb⟩
  · cases he.symm.trans ht
    exact absurd (congrArg Status.err hok) Bool.false_ne_true.symm
  · cases hb.symm.trans ht
    exact ⟨hnone, rfl⟩

/-- Every command keeps the DATA space in its canonical form. -/
theorem exec_memWf {i : Instr} {s t : State} (h : s.mem.wf) (ht : exec i s = .next t) : t.mem.wf := by
  rcases exec_endsWithin i s with ⟨e, g, he⟩ | ⟨g, bytes, -, -, len, hs⟩
  · cases he.symm.trans ht
    exact h
  · cases hs.symm.trans ht
    exact Memory.wf_writeBytes h _ _

/-- A range read in two pieces (R12). -/
theorem Memory.readBytes_add (m : Memory) (a n k : Nat) :
    m.readBytes a (n + k) = m.readBytes a n ++ m.readBytes (a + n) k := by
  simp [Memory.readBytes, List.range_add, Nat.add_assoc]

/-- What is read from a range disjoint from the one written is as before. -/
theorem SameOutside.readBytes_eq {s t : State} {a n b m : Nat} (h : SameOutside s t a n) (hd : DisjointRanges a n b m) :
    t.mem.readBytes b m = s.mem.readBytes b m := by
  refine Memory.readBytes_congr fun i hi => h _ ?_
  unfold DisjointRanges at hd
  omega

/-- A command that ended normally left its bytes at the address. -/
theorem CompletesWith.readBytes {s t : State} {addr : DWord} {bytes : List Byte} {len : Nat}
    (h : CompletesWith (.next t) s addr bytes len) : t.mem.readBytes addr.toNat bytes.length = bytes := by
  obtain ⟨_, ht, hread, -⟩ := h
  cases ht
  exact hread

/-- A command that ended normally wrote nowhere else. -/
theorem CompletesWith.sameOutside {s t : State} {addr : DWord} {bytes : List Byte} {len : Nat}
    (h : CompletesWith (.next t) s addr bytes len) : SameOutside s t addr.toNat bytes.length := by
  obtain ⟨_, ht, -, houtside, -⟩ := h
  cases ht
  exact houtside

theorem State.buf_length (s : State) : s.buf.length = s.bufLen.toNat := Memory.readBytes_length _ _ _

/-- The buffer after XOR (R153). -/
theorem State.xorBody_buf {s : State} (h : s.mem.wf) : s.xorBody.buf = xorStream s.key s.nonce s.ctr s.buf := by
  have hread := (State.xorBody_completes h).readBytes
  rwa [xorStream_length, s.buf_length] at hread

/-- The buffer after XXOR (R175). -/
theorem State.xxorBody_buf {s : State} (h : s.mem.wf) :
    s.xxorBody.buf = xorStream (derive s.key s.nonce24).1 (derive s.key s.nonce24).2 s.ctr s.buf := by
  have hread := (State.xxorBody_completes h).readBytes
  rwa [xorStream_length, s.buf_length] at hread

/-- DERIVE leaves a buffer outside the 44 bytes it writes as it was (R174). -/
theorem State.deriveBody_buf {s : State} (h : s.mem.wf)
    (hdisjoint : DisjointRanges s.outAddr.toNat 44 s.bufAddr.toNat s.bufLen.toNat) : s.deriveBody.buf = s.buf := by
  have houtside := (State.deriveBody_completes h).sameOutside
  rw [s.derived_length] at houtside
  exact houtside.readBytes_eq hdisjoint

/-- The descriptor registers pointed at 44 derived bytes: KEY at the subkey, NONCE at the subnonce after it (R175). -/
def State.withDerivedAt (s : State) (addr : DWord) : State :=
  { s with keyAddr := addr, keyLen := 32, nonceAddr := addr + 32, nonceLen := 12 }

theorem State.withDerivedAt_key (s : State) (addr : DWord) :
    (s.withDerivedAt addr).key = s.mem.readBytes addr.toNat 32 := rfl

theorem State.withDerivedAt_nonce (s : State) (addr : DWord) :
    (s.withDerivedAt addr).nonce = s.mem.readBytes (addr + 32).toNat 12 := rfl

@[simp] theorem State.withDerivedAt_buf (s : State) (addr : DWord) : (s.withDerivedAt addr).buf = s.buf := rfl

@[simp] theorem State.withDerivedAt_ctr (s : State) (addr : DWord) : (s.withDerivedAt addr).ctr = s.ctr := rfl

@[simp] theorem State.deriveBody_ctr (s : State) : s.deriveBody.ctr = s.ctr := rfl

section
variable {s : State} (htop : s.outAddr.toNat + 44 ≤ 2 ^ 64)
include htop

theorem State.outAddr_add_toNat : (s.outAddr + 32).toNat = s.outAddr.toNat + 32 := by
  rw [BitVec.toNat_add, show (32 : DWord).toNat = 32 from rfl]
  omega

/-- After DERIVE the key is the subkey and the nonce the subnonce (R174). -/
theorem State.deriveBody_operands (hwf : s.mem.wf) :
    (s.deriveBody.withDerivedAt s.outAddr).key = (derive s.key s.nonce24).1 ∧
    (s.deriveBody.withDerivedAt s.outAddr).nonce = (derive s.key s.nonce24).2 := by
  have hread := (State.deriveBody_completes hwf).readBytes
  rw [s.derived_length, show 44 = 32 + 12 from rfl, Memory.readBytes_add, ← State.outAddr_add_toNat htop] at hread
  rw [State.withDerivedAt_key, State.withDerivedAt_nonce]
  exact List.append_inj hread (by rw [Memory.readBytes_length, derive_subkey_length])

/-- Where XXOR and DERIVE pass their checks, XOR on the derived bytes passes its own (R153, R174, R175). -/
theorem State.deriveBody_xorChecks
    (hxxor : firstCause (s.bufferChecks 24 s.streamTooLarge s.xxorRanges) = none)
    (hderive : firstCause (s.bufferChecks 24 false s.deriveRanges) = none) :
    firstCause (s.deriveBody.withDerivedAt s.outAddr).xorCauses = none := by
  obtain ⟨-, -, hsmall, hxranges⟩ := (s.bufferChecks_pass_iff _ _ _).mp hxxor
  obtain ⟨-, -, -, hdranges⟩ := (s.bufferChecks_pass_iff _ _ _).mp hderive
  have hbuf : s.validRange s.bufAddr s.bufLen.toNat = true := hxranges (_, _) (by simp [State.xxorRanges])
  have hout : s.validRange s.outAddr 44 = true := hdranges (_, _) (by simp [State.deriveRanges])
  have hkey : s.validRange s.outAddr 32 = true := State.validRange_inside hout le_rfl (by omega)
  have hstart := State.outAddr_add_toNat htop
  have hnonce : s.validRange (s.outAddr + 32) 12 = true := State.validRange_inside hout (by omega) (by omega)
  refine ((s.deriveBody.withDerivedAt s.outAddr).bufferChecks_pass_iff 12 _ _).mpr ⟨rfl, rfl, hsmall, ?_⟩
  exact List.forall_mem_cons.mpr ⟨hkey, List.forall_mem_cons.mpr ⟨hnonce, List.forall_mem_singleton.mpr hbuf⟩⟩

end

/-- Settles O33: after DERIVE the operands of XOR are the values XXOR derives, and the buffer is still the one XXOR
transforms. -/
theorem xxorEqualsDeriveThenXor : Obligations.XxorEqualsDeriveThenXor := by
  unfold Obligations.XxorEqualsDeriveThenXor
  intro s t u v hwf htop hdisjoint hxxor htok hderive huok hxor
  obtain ⟨hxxorChecks, rfl⟩ := State.runCommand_eq_next_ok (exec_xxor_bufferChecks s ▸ hxxor) htok
  obtain ⟨hderiveChecks, rfl⟩ := State.runCommand_eq_next_ok (exec_derive_bufferChecks s ▸ hderive) huok
  have hpass := State.deriveBody_xorChecks htop hxxorChecks hderiveChecks
  have hv : exec .xor (s.deriveBody.withDerivedAt s.outAddr) = .next (s.deriveBody.withDerivedAt s.outAddr).xorBody :=
    State.runCommand_body _ hpass
  cases hv.symm.trans hxor
  have hwf' : (s.deriveBody.withDerivedAt s.outAddr).mem.wf := exec_memWf (t := s.deriveBody) hwf hderive
  obtain ⟨hkey, hnonce⟩ := State.deriveBody_operands htop hwf
  refine ⟨rfl, ?_⟩
  calc (s.deriveBody.withDerivedAt s.outAddr).xorBody.buf
      = xorStream (derive s.key s.nonce24).1 (derive s.key s.nonce24).2 s.ctr s.buf := by
        rw [State.xorBody_buf hwf', hkey, hnonce, State.withDerivedAt_buf, State.deriveBody_buf hwf hdisjoint,
          State.withDerivedAt_ctr, State.deriveBody_ctr]
    _ = s.xxorBody.buf := (State.xxorBody_buf hwf).symm

end Sys2Proof.Machine

/-! ### The Poly1305 Accumulator, the value level (43_poly1305.md rules R190 to R195) -/

namespace Sys2Proof.Machine

/-! #### The clamp -/

/-- The conjunction of two integers, digit by digit in base 256. -/
theorem and_base256 (a b : Byte) (x y : Nat) :
    (a.toNat + 256 * x) &&& (b.toNat + 256 * y) = (a &&& b).toNat + 256 * (x &&& y) := by
  have hlow (c : Byte) (z : Nat) : (c.toNat + 256 * z) % 2 ^ 8 = c.toNat := by have := c.isLt; omega
  have hhigh (c : Byte) (z : Nat) : (c.toNat + 256 * z) / 2 ^ 8 = z := by have := c.isLt; omega
  rw [← Nat.mod_add_div ((a.toNat + 256 * x) &&& (b.toNat + 256 * y)) (2 ^ 8), Nat.and_mod_two_pow, Nat.and_div_two_pow,
    hlow, hlow, hhigh, hhigh, BitVec.toNat_and]
  rfl

/-- Masking bytes one by one masks the integer they stand for (R11). -/
theorem le_zipWith_and (bytes masks : List Byte) : le (List.zipWith (· &&& ·) bytes masks) = le bytes &&& le masks := by
  induction bytes generalizing masks with
  | nil => simp
  | cons b bs ih =>
    cases masks with
    | nil => simp
    | cons m ms => rw [List.zipWith_cons_cons, le_cons, le_cons, le_cons, ih, and_base256]

/-- One byte of the clamp, as R191 states it on bytes. -/
def clampByte (i : Nat) (b : Byte) : Byte :=
  if i = 3 ∨ i = 7 ∨ i = 11 ∨ i = 15 then b &&& 0x0f
  else if i = 4 ∨ i = 8 ∨ i = 12 then b &&& 0xfc else b

/-- The clamp mask as bytes, least significant first (R191). -/
def clampMaskBytes : List Byte :=
  [0xff, 0xff, 0xff, 0x0f, 0xfc, 0xff, 0xff, 0x0f, 0xfc, 0xff, 0xff, 0x0f, 0xfc, 0xff, 0xff, 0x0f]

theorem le_clampMaskBytes : le clampMaskBytes = clampMask := by decide

/-- The clamp on bytes is one mask for each byte (R191). -/
theorem mapIdx_clampByte {bytes : List Byte} (h : bytes.length = 16) :
    bytes.mapIdx clampByte = List.zipWith (· &&& ·) bytes clampMaskBytes := by
  have hkeep (b : Byte) : b &&& 255#8 = b := BitVec.and_allOnes
  apply List.ext_getElem
  · simp [h, clampMaskBytes]
  · intro i hi _
    have hi16 : i < 16 := by simpa [h] using hi
    interval_cases i <;> simp [clampByte, clampMaskBytes, hkeep]

theorem slice_zero (bytes : List Byte) (n : Nat) : slice bytes 0 n = bytes.take n := rfl

theorem clampedR_lt (otk : List Byte) : clampedR otk < 2 ^ 124 :=
  lt_of_le_of_lt Nat.and_le_right (by decide)

/-- The half `s` is the last 16 bytes of the key, whole (R190, R191). -/
theorem padS_eq {otk : List Byte} (h : otk.length = 32) : padS otk = le (otk.drop 16) := by
  rw [padS, slice, List.take_of_length_le (by rw [List.length_drop, h])]

/-- Settles O34: the clamp is one mask per byte, and masking commutes with reading the bytes as an integer. -/
theorem clampOnBytesIsTheMask : Obligations.ClampOnBytesIsTheMask := by
  unfold Obligations.ClampOnBytesIsTheMask
  intro otk hotk
  have hbytes : clampedR otk = le ((otk.take 16).mapIdx clampByte) := by
    rw [mapIdx_clampByte (by rw [List.length_take, hotk]; rfl), le_zipWith_and, le_clampMaskBytes]
    rfl
  exact ⟨rfl, hbytes, clampedR_lt otk, padS_eq hotk⟩

/-! #### A block's integer -/

/-- A block of at most 16 bytes is an integer of at most 129 bits (R192). -/
theorem blockInt_lt {blk : List Byte} (h : blk.length ≤ 16) : blockInt blk < 2 ^ 129 := by
  have hle := le_lt blk
  have hpow : 2 ^ (8 * blk.length) ≤ 2 ^ 128 := Nat.pow_le_pow_right (by decide) (by omega)
  rw [blockInt]
  omega

/-- Settles O35: the appended byte 01 stands at `2^(8 L)`, above every byte of the block. -/
theorem blockIntegerHasOneBitAfterItsBytes : Obligations.BlockIntegerHasOneBitAfterItsBytes := by
  unfold Obligations.BlockIntegerHasOneBitAfterItsBytes
  intro blk _ _
  have hle := le_lt blk
  have hpow : 2 ^ (8 * blk.length + 1) = 2 * 2 ^ (8 * blk.length) := Nat.pow_succ'
  refine ⟨rfl, ?_, ?_, ?_⟩
  · rw [blockInt, List.append_assoc, le_append, List.singleton_append, le_cons, le_zeros]
    simp
  · exact Nat.le_add_left _ _
  · rw [blockInt]
    omega

/-! #### Nothing accumulated -/

/-- An accumulator at 0 stays at 0 when `r` is 0 (R193). -/
theorem absorbAll_zero (msg : List Byte) : absorbAll 0 msg = 0 := by
  rw [absorbAll_eq]
  exact List.foldlRecOn (motive := (· = 0)) _ _ rfl fun h _ k _ => by rw [absorb, Nat.mul_zero, Nat.zero_mod]

/-- With the accumulator at 0 the tag is the second half of the key (R194). -/
theorem poly1305Mac_of_absorbAll_eq_zero {otk msg : List Byte} (hotk : otk.length = 32)
    (h : absorbAll (clampedR otk) msg = 0) : poly1305Mac otk msg = otk.drop 16 := by
  have hlen : (otk.drop 16).length = 16 := by rw [List.length_drop, hotk]
  have hlt := le_lt (otk.drop 16)
  rw [hlen] at hlt
  rw [poly1305Mac, h, Nat.zero_mod, Nat.zero_add, padS_eq hotk, Nat.mod_eq_of_lt hlt]
  nth_rewrite 2 [← hlen]
  exact ser_le _

/-- Settles O36: in both cases the accumulator ends at 0. -/
theorem tagIsPadWhenNothingIsAccumulated : Obligations.TagIsPadWhenNothingIsAccumulated := by
  unfold Obligations.TagIsPadWhenNothingIsAccumulated
  rintro otk msg hotk (rfl | hr)
  · exact poly1305Mac_of_absorbAll_eq_zero hotk rfl
  · exact poly1305Mac_of_absorbAll_eq_zero hotk (by rw [hr, absorbAll_zero])

end Sys2Proof.Machine

/-! ### The limbs of the key (43_poly1305.md rules R196 to R198) -/

namespace Sys2Proof.Machine

/-! #### Loading the key -/

/-- A mask of few bits sees the low bits only. -/
theorem mod_two_pow_and {m k : Nat} (x : Nat) (h : m < 2 ^ k) : x % 2 ^ k &&& m = x &&& m := by
  calc x % 2 ^ k &&& m = (x &&& m) % 2 ^ k := by rw [Nat.and_mod_two_pow, Nat.mod_eq_of_lt h]
    _ = x &&& m := Nat.mod_eq_of_lt (lt_of_le_of_lt Nat.and_le_right h)

/-- A limb loaded from the four key bytes at `i` holds the masked bits of the key half `r` from bit `8 i + k` on (R197). -/
theorem loadLimb_toNat {otk : List Byte} (hotk : otk.length = 32) {i : Nat} (hi : i + 4 ≤ 16) {k : Nat} (hk : k ≤ 32)
    {mask : Word} (hmask : mask.toNat < 2 ^ (32 - k)) :
    ((leWord (slice otk i (i + 4)) >>> k) &&& mask).toNat = le (slice otk 0 16) / 2 ^ (8 * i + k) &&& mask.toNat := by
  have hmid : slice otk i (i + 4) = slice (slice otk 0 16) i (i + 4) := by
    rw [slice_slice _ _ (by omega), Nat.zero_add, Nat.zero_add]
  have hfour := le_four_at hmid (by rw [slice_length, hotk]; exact hi)
  have hsplit : 2 ^ 32 = 2 ^ k * 2 ^ (32 - k) := by rw [← Nat.pow_add, Nat.add_sub_cancel' hk]
  rw [BitVec.toNat_and, BitVec.toNat_ushiftRight, leWord_toNat (by rw [slice_length]; omega), hfour,
    Nat.shiftRight_eq_div_pow, hsplit, Nat.mod_mul_right_div_self, Nat.div_div_eq_div_mul, ← Nat.pow_add,
    mod_two_pow_and _ hmask]

/-- The bits of the clamped `r` from bit `k` on are those of the key half under those of the mask (R191). -/
theorem clampedR_div (otk : List Byte) (k : Nat) :
    clampedR otk / 2 ^ k = le (slice otk 0 16) / 2 ^ k &&& clampMask / 2 ^ k := Nat.and_div_two_pow

/-- A 26-bit digit of the clamped `r`, under the digit of the mask (R191, R197). -/
theorem clampedR_digit (otk : List Byte) (k : Nat) :
    clampedR otk / 2 ^ k % 2 ^ 26 = le (slice otk 0 16) / 2 ^ k &&& clampMask / 2 ^ k % 2 ^ 26 := by
  rw [clampedR_div, Nat.and_mod_two_pow]
  exact mod_two_pow_and _ (Nat.mod_lt _ (by decide))

/-- The bounds of the limbs of `R` (R197). -/
structure Limbs.ClampBounded (r : Limbs 32) : Prop where
  l0 : r.l0.toNat ≤ 0x3ffffff
  l1 : r.l1.toNat ≤ 0x3ffff03
  l2 : r.l2.toNat ≤ 0x3ffc0ff
  l3 : r.l3.toNat ≤ 0x3f03fff
  l4 : r.l4.toNat ≤ 0x00fffff

theorem masked_toNat_le (w mask : Word) : (w &&& mask).toNat ≤ mask.toNat := by
  rw [BitVec.toNat_and]
  exact Nat.and_le_right

/-- The folded masks keep the loaded limbs within the bounds of R197. -/
theorem loadR_clampBounded (otk : List Byte) : (loadR otk).ClampBounded where
  l0 := masked_toNat_le _ 0x3ffffff
  l1 := masked_toNat_le _ 0x3ffff03
  l2 := masked_toNat_le _ 0x3ffc0ff
  l3 := masked_toNat_le _ 0x3f03fff
  l4 := masked_toNat_le _ 0x00fffff

/-- Settles O37: each folded mask is the digit of the clamp mask at its limb's place. -/
theorem loadedLimbsAreTheDigitsOfR : Obligations.LoadedLimbsAreTheDigitsOfR := by
  unfold Obligations.LoadedLimbsAreTheDigitsOfR
  intro otk hotk
  obtain ⟨hb0, hb1, hb2, hb3, hb4⟩ := loadR_clampBounded otk
  refine ⟨?_, ?_, ?_, ?_, ?_, hb0, hb1, hb2, hb3, hb4⟩
  · have hdigit := clampedR_digit otk 0
    rw [Nat.pow_zero, Nat.div_one] at hdigit
    have hload := loadLimb_toNat hotk (i := 0) (by decide) (k := 0) (by decide) (mask := 0x3ffffff) (by decide)
    rw [hdigit]
    exact hload
  · exact (loadLimb_toNat hotk (i := 3) (by decide) (k := 2) (by decide) (mask := 0x3ffff03) (by decide)).trans
      (clampedR_digit otk 26).symm
  · exact (loadLimb_toNat hotk (i := 6) (by decide) (k := 4) (by decide) (mask := 0x3ffc0ff) (by decide)).trans
      (clampedR_digit otk 52).symm
  · exact (loadLimb_toNat hotk (i := 9) (by decide) (k := 6) (by decide) (mask := 0x3f03fff) (by decide)).trans
      (clampedR_digit otk 78).symm
  · exact (loadLimb_toNat hotk (i := 12) (by decide) (k := 8) (by decide) (mask := 0x00fffff) (by decide)).trans
      (clampedR_div otk 104).symm

end Sys2Proof.Machine

/-! ### The block step on the limbs (43_poly1305.md rules R199 to R203) -/

namespace Sys2Proof.Machine

/-! #### The bounds -/

/-- The bounds of the limbs of `H` between blocks (R203). -/
structure Limbs.BlockBounded (h : Limbs 32) : Prop where
  l0 : h.l0.toNat ≤ 2 ^ 26 - 1
  l1 : h.l1.toNat ≤ 0x4000025
  l2 : h.l2.toNat ≤ 2 ^ 26 - 1
  l3 : h.l3.toNat ≤ 2 ^ 26 - 1
  l4 : h.l4.toNat ≤ 2 ^ 26 - 1

/-- The bounds of the limbs of `H` after a block is added (R203). -/
structure Limbs.SumBounded (h : Limbs 32) : Prop where
  l0 : h.l0.toNat ≤ 0x7fffffe
  l1 : h.l1.toNat ≤ 0x8000024
  l2 : h.l2.toNat ≤ 0x7fffffe
  l3 : h.l3.toNat ≤ 0x7fffffe
  l4 : h.l4.toNat ≤ 0x5fffffe

/-! #### Adding a block -/

/-- Every sum of R199 is exact, and the value grows by the block's integer. -/
theorem addBlock_spec {h : Limbs 32} (hh : h.BlockBounded) {n : Nat} (hn : n < 2 ^ 129) :
    (addBlock h n).SumBounded ∧ (addBlock h n).val = h.val + n := by
  obtain ⟨h0, h1, h2, h3, h4⟩ := hh
  have htop : (BitVec.ofNat 32 (n >>> 104)).toNat = n / 2 ^ 104 := by
    rw [BitVec.toNat_ofNat, Nat.shiftRight_eq_div_pow]
    omega
  have e0 : (addBlock h n).l0.toNat = h.l0.toNat + n % 2 ^ 26 := by
    rw [addBlock, BitVec.toNat_add, digit26_toNat]
    omega
  have e1 : (addBlock h n).l1.toNat = h.l1.toNat + n / 2 ^ 26 % 2 ^ 26 := by
    rw [addBlock, BitVec.toNat_add, digit26_toNat]
    omega
  have e2 : (addBlock h n).l2.toNat = h.l2.toNat + n / 2 ^ 52 % 2 ^ 26 := by
    rw [addBlock, BitVec.toNat_add, digit26_toNat]
    omega
  have e3 : (addBlock h n).l3.toNat = h.l3.toNat + n / 2 ^ 78 % 2 ^ 26 := by
    rw [addBlock, BitVec.toNat_add, digit26_toNat]
    omega
  have e4 : (addBlock h n).l4.toNat = h.l4.toNat + n / 2 ^ 104 := by
    rw [addBlock, BitVec.toNat_add, htop]
    omega
  refine ⟨⟨by omega, by omega, by omega, by omega, by omega⟩, ?_⟩
  rw [Limbs.val, Limbs.val, e0, e1, e2, e3, e4]
  omega

/-! #### The column sums -/

/-- A column sum of five products, bounded by the bounds of its factors, does not wrap (R200). -/
theorem column_toNat {a0 a1 a2 a3 a4 b0 b1 b2 b3 b4 : Word} {A0 A1 A2 A3 A4 B0 B1 B2 B3 B4 : Nat}
    (ha0 : a0.toNat ≤ A0) (ha1 : a1.toNat ≤ A1) (ha2 : a2.toNat ≤ A2) (ha3 : a3.toNat ≤ A3) (ha4 : a4.toNat ≤ A4)
    (hb0 : b0.toNat ≤ B0) (hb1 : b1.toNat ≤ B1) (hb2 : b2.toNat ≤ B2) (hb3 : b3.toNat ≤ B3) (hb4 : b4.toNat ≤ B4)
    (hfits : A0 * B0 + A1 * B1 + A2 * B2 + A3 * B3 + A4 * B4 < 2 ^ 64) :
    (mul64 a0 b0 + mul64 a1 b1 + mul64 a2 b2 + mul64 a3 b3 + mul64 a4 b4).toNat =
      a0.toNat * b0.toNat + a1.toNat * b1.toNat + a2.toNat * b2.toNat + a3.toNat * b3.toNat + a4.toNat * b4.toNat ∧
    (mul64 a0 b0 + mul64 a1 b1 + mul64 a2 b2 + mul64 a3 b3 + mul64 a4 b4).toNat ≤
      A0 * B0 + A1 * B1 + A2 * B2 + A3 * B3 + A4 * B4 := by
  have hle : a0.toNat * b0.toNat + a1.toNat * b1.toNat + a2.toNat * b2.toNat + a3.toNat * b3.toNat + a4.toNat * b4.toNat ≤
      A0 * B0 + A1 * B1 + A2 * B2 + A3 * B3 + A4 * B4 := by gcongr
  have heq : (mul64 a0 b0 + mul64 a1 b1 + mul64 a2 b2 + mul64 a3 b3 + mul64 a4 b4).toNat =
      a0.toNat * b0.toNat + a1.toNat * b1.toNat + a2.toNat * b2.toNat + a3.toNat * b3.toNat + a4.toNat * b4.toNat := by
    simp only [BitVec.toNat_add, mul64_toNat, Nat.mod_add_mod]
    exact Nat.mod_eq_of_lt (hle.trans_lt hfits)
  exact ⟨heq, heq ▸ hle⟩

/-- The bounds of the column sums; the top one is that of R203, the others are as wide as the carry chain allows. -/
structure Limbs.ColumnBounded (d : Limbs 64) : Prop where
  l0 : d.l0.toNat < 2 ^ 60
  l1 : d.l1.toNat < 2 ^ 60
  l2 : d.l2.toNat < 2 ^ 60
  l3 : d.l3.toNat < 2 ^ 60
  l4 : d.l4.toNat ≤ 0x78000090017fff

/-- `S5` is exact where the limbs of `R` are within their bounds (R198). -/
theorem scaleR_toNat {r : Limbs 32} (hr : r.ClampBounded) :
    (scaleR r).s1.toNat = 5 * r.l1.toNat ∧ (scaleR r).s2.toNat = 5 * r.l2.toNat ∧
    (scaleR r).s3.toNat = 5 * r.l3.toNat ∧ (scaleR r).s4.toNat = 5 * r.l4.toNat := by
  obtain ⟨-, r1, r2, r3, r4⟩ := hr
  have hfive {x : Word} (hx : x.toNat ≤ 0x3ffffff) : (5 * x).toNat = 5 * x.toNat :=
    BitVec.toNat_mul_of_lt (by show 5 * x.toNat < 2 ^ 32; omega)
  exact ⟨hfive (by omega), hfive (by omega), hfive (by omega), hfive (by omega)⟩

/-- The column sums do not wrap (R200, R203). -/
theorem mulColumns_toNat {h r : Limbs 32} (hh : h.SumBounded) (hr : r.ClampBounded) :
    (mulColumns h r (scaleR r)).ColumnBounded ∧
    (mulColumns h r (scaleR r)).l0.toNat =
      h.l0.toNat * r.l0.toNat + h.l1.toNat * (5 * r.l4.toNat) + h.l2.toNat * (5 * r.l3.toNat) +
        h.l3.toNat * (5 * r.l2.toNat) + h.l4.toNat * (5 * r.l1.toNat) ∧
    (mulColumns h r (scaleR r)).l1.toNat =
      h.l0.toNat * r.l1.toNat + h.l1.toNat * r.l0.toNat + h.l2.toNat * (5 * r.l4.toNat) +
        h.l3.toNat * (5 * r.l3.toNat) + h.l4.toNat * (5 * r.l2.toNat) ∧
    (mulColumns h r (scaleR r)).l2.toNat =
      h.l0.toNat * r.l2.toNat + h.l1.toNat * r.l1.toNat + h.l2.toNat * r.l0.toNat + h.l3.toNat * (5 * r.l4.toNat) +
        h.l4.toNat * (5 * r.l3.toNat) ∧
    (mulColumns h r (scaleR r)).l3.toNat =
      h.l0.toNat * r.l3.toNat + h.l1.toNat * r.l2.toNat + h.l2.toNat * r.l1.toNat + h.l3.toNat * r.l0.toNat +
        h.l4.toNat * (5 * r.l4.toNat) ∧
    (mulColumns h r (scaleR r)).l4.toNat =
      h.l0.toNat * r.l4.toNat + h.l1.toNat * r.l3.toNat + h.l2.toNat * r.l2.toNat + h.l3.toNat * r.l1.toNat +
        h.l4.toNat * r.l0.toNat := by
  obtain ⟨e1, e2, e3, e4⟩ := scaleR_toNat hr
  obtain ⟨h0, h1, h2, h3, h4⟩ := hh
  obtain ⟨r0, r1, r2, r3, r4⟩ := hr
  rw [← e1, ← e2, ← e3, ← e4]
  have s1 : (scaleR r).s1.toNat ≤ 0x14000000 := by omega
  have s2 : (scaleR r).s2.toNat ≤ 0x14000000 := by omega
  have s3 : (scaleR r).s3.toNat ≤ 0x14000000 := by omega
  have s4 : (scaleR r).s4.toNat ≤ 0x14000000 := by omega
  obtain ⟨c0, d0⟩ := column_toNat h0 h1 h2 h3 h4 r0 s4 s3 s2 s1 (by decide)
  obtain ⟨c1, d1⟩ := column_toNat h0 h1 h2 h3 h4 r1 r0 s4 s3 s2 (by decide)
  obtain ⟨c2, d2⟩ := column_toNat h0 h1 h2 h3 h4 r2 r1 r0 s4 s3 (by decide)
  obtain ⟨c3, d3⟩ := column_toNat h0 h1 h2 h3 h4 r3 r2 r1 r0 s4 (by decide)
  obtain ⟨c4, d4⟩ := column_toNat h0 h1 h2 h3 h4 r4 r3 r2 r1 r0 (by decide)
  exact ⟨⟨d0.trans_lt (by decide), d1.trans_lt (by decide), d2.trans_lt (by decide), d3.trans_lt (by decide),
    d4.trans (by decide)⟩, c0, c1, c2, c3, c4⟩

/-- The column sums are the product with `r`, up to a multiple of `P1305` (R200). -/
theorem mulColumns_val {h r : Limbs 32} (hh : h.SumBounded) (hr : r.ClampBounded) :
    (mulColumns h r (scaleR r)).val % p1305 = h.val * r.val % p1305 := by
  obtain ⟨-, c0, c1, c2, c3, c4⟩ := mulColumns_toNat hh hr
  rw [Limbs.val, Limbs.val, Limbs.val, columns_identity, Nat.add_mul_mod_self_left, c0, c1, c2, c3, c4]

/-! #### The carry pass -/

theorem carry_toNat {w : Nat} {a d : BitVec w} (h : d.toNat + a.toNat / 2 ^ 26 < 2 ^ w) :
    (d + (a >>> 26)).toNat = d.toNat + a.toNat / 2 ^ 26 := by
  rw [BitVec.toNat_add_of_lt] <;> rw [BitVec.toNat_ushiftRight, Nat.shiftRight_eq_div_pow]
  exact h

/-- The carry chain through the column sums on natural numbers: nothing wraps, and the carry out of the top digit times 5 leaves
a carry of at most 38 into digit 1 (R201, R203). -/
theorem rippleColumns_toNat {d : Limbs 64} (hd : d.ColumnBounded) :
    (rippleColumns d).l1.toNat = d.l1.toNat + d.l0.toNat / 2 ^ 26 ∧
    (rippleColumns d).l2.toNat = d.l2.toNat + (rippleColumns d).l1.toNat / 2 ^ 26 ∧
    (rippleColumns d).l3.toNat = d.l3.toNat + (rippleColumns d).l2.toNat / 2 ^ 26 ∧
    (rippleColumns d).l4.toNat = d.l4.toNat + (rippleColumns d).l3.toNat / 2 ^ 26 ∧
    5 * ((rippleColumns d).l4.toNat / 2 ^ 26) ≤ 38 * 2 ^ 26 := by
  obtain ⟨d0, d1, d2, d3, d4⟩ := hd
  have e1 : (rippleColumns d).l1.toNat = d.l1.toNat + d.l0.toNat / 2 ^ 26 := carry_toNat (by omega)
  have e2 : (rippleColumns d).l2.toNat = d.l2.toNat + (rippleColumns d).l1.toNat / 2 ^ 26 := carry_toNat (by omega)
  have e3 : (rippleColumns d).l3.toNat = d.l3.toNat + (rippleColumns d).l2.toNat / 2 ^ 26 := carry_toNat (by omega)
  have e4 : (rippleColumns d).l4.toNat = d.l4.toNat + (rippleColumns d).l3.toNat / 2 ^ 26 := carry_toNat (by omega)
  exact ⟨e1, e2, e3, e4, by omega⟩

/-- The limbs left by the carry pass on natural numbers (R201). -/
theorem foldColumns_toNat {e : Limbs 64} {h0 : Nat} (hcarry : 5 * (e.l4.toNat / 2 ^ 26) ≤ 38 * 2 ^ 26)
    (hh0 : h0 = e.l0.toNat % 2 ^ 26 + 5 * (e.l4.toNat / 2 ^ 26)) :
    (foldColumns e).l0.toNat = h0 % 2 ^ 26 ∧ (foldColumns e).l1.toNat = e.l1.toNat % 2 ^ 26 + h0 / 2 ^ 26 ∧
    (foldColumns e).l2.toNat = e.l2.toNat % 2 ^ 26 ∧ (foldColumns e).l3.toNat = e.l3.toNat % 2 ^ 26 ∧
    (foldColumns e).l4.toNat = e.l4.toNat % 2 ^ 26 := by
  have hc : ((e.l4 >>> 26).setWidth 32).toNat = e.l4.toNat / 2 ^ 26 := by
    rw [BitVec.toNat_setWidth, BitVec.toNat_ushiftRight, Nat.shiftRight_eq_div_pow]
    omega
  have hfive : (5 * (e.l4 >>> 26).setWidth 32 : Word).toNat = 5 * (e.l4.toNat / 2 ^ 26) := by
    rw [BitVec.toNat_mul, hc]
    show 5 * (e.l4.toNat / 2 ^ 26) % 2 ^ 32 = _
    omega
  have hsum : (lowDigit e.l0 + 5 * (e.l4 >>> 26).setWidth 32).toNat = h0 := by
    rw [BitVec.toNat_add, lowDigit_toNat, hfive]
    omega
  refine ⟨?_, ?_, lowDigit_toNat _, lowDigit_toNat _, lowDigit_toNat _⟩
  · rw [foldColumns, mask26_toNat, hsum]
  · rw [foldColumns, carry_toNat, lowDigit_toNat, hsum]
    rw [lowDigit_toNat, hsum]
    omega

/-- The carry pass of R201 keeps the value modulo `P1305` and brings the limbs within the bounds of R203. -/
theorem foldColumns_spec {d : Limbs 64} (hd : d.ColumnBounded) :
    (foldColumns (rippleColumns d)).BlockBounded ∧ (foldColumns (rippleColumns d)).val % p1305 = d.val % p1305 := by
  obtain ⟨e1, e2, e3, e4, hcarry⟩ := rippleColumns_toNat hd
  obtain ⟨f0, f1, f2, f3, f4⟩ := foldColumns_toNat hcarry rfl
  refine ⟨⟨by omega, by omega, by omega, by omega, by omega⟩, ?_⟩
  have hvalue := carry_identity e1 e2 e3 e4 rfl
  rw [Limbs.val, Limbs.val, f0, f1, f2, f3, f4, ← hvalue, Nat.add_mul_mod_self_left]
  rfl

/-! #### The block step -/

/-- A block step absorbs its block modulo `P1305` and keeps the bounds between blocks (R202, R203). -/
theorem Poly1305Accumulator.blockStep_spec {p : Poly1305Accumulator} (hh : p.h.BlockBounded) (hr : p.r.ClampBounded)
    (hs5 : p.s5 = scaleR p.r) {blk : List Byte} (hblk : blk.length ≤ 16) :
    (p.blockStep blk).h.BlockBounded ∧ (p.blockStep blk).h.val % p1305 = (p.h.val + blockInt blk) * p.r.val % p1305 := by
  obtain ⟨hsum, hval⟩ := addBlock_spec hh (blockInt_lt hblk)
  obtain ⟨hbounded, hfold⟩ := foldColumns_spec (mulColumns_toNat hsum hr).1
  rw [mulColumns_val hsum hr, hval] at hfold
  rw [Poly1305Accumulator.blockStep, hs5]
  exact ⟨hbounded, hfold⟩

/-- Settles O38: the block step of the limb datapath with its bounds taken apart. -/
theorem limbBlockStepAbsorbsModuloP : Obligations.LimbBlockStepAbsorbsModuloP := by
  unfold Obligations.LimbBlockStepAbsorbsModuloP
  intro p blk h0 h1 h2 h3 h4 r0 r1 r2 r3 r4 hs5 _ hblk
  obtain ⟨⟨b0, b1, b2, b3, b4⟩, hval⟩ :=
    Poly1305Accumulator.blockStep_spec ⟨h0, h1, h2, h3, h4⟩ ⟨r0, r1, r2, r3, r4⟩ hs5 hblk
  exact ⟨hval, b0, b1, b2, b3, b4⟩

end Sys2Proof.Machine

/-! ### The finalisation on the limbs (43_poly1305.md rules R204 to R207) -/

namespace Sys2Proof.Machine

/-! #### The final carry -/

/-- Five proper digits in radix 2^26 (R204). -/
structure Limbs.Digits (h : Limbs 32) : Prop where
  l0 : h.l0.toNat < 2 ^ 26
  l1 : h.l1.toNat < 2 ^ 26
  l2 : h.l2.toNat < 2 ^ 26
  l3 : h.l3.toNat < 2 ^ 26
  l4 : h.l4.toNat < 2 ^ 26

/-- The limbs of the final carry pass with their incoming carries, before the masks (R204). -/
def carryLimbs (h : Limbs 32) : Limbs 32 :=
  let h2 := h.l2 + (h.l1 >>> 26)
  let h3 := h.l3 + (h2 >>> 26)
  let h4 := h.l4 + (h3 >>> 26)
  ⟨h.l0 + 5 * (h4 >>> 26), h.l1, h2, h3, h4⟩

theorem finalCarry_eq (h : Limbs 32) :
    finalCarry h = ⟨(carryLimbs h).l0 &&& mask26, ((carryLimbs h).l1 &&& mask26) + ((carryLimbs h).l0 >>> 26),
      (carryLimbs h).l2 &&& mask26, (carryLimbs h).l3 &&& mask26, (carryLimbs h).l4 &&& mask26⟩ := rfl

/-- The final carries on natural numbers: nothing wraps, and the top digit passes on no more than digit 1 did (R204). -/
theorem carryLimbs_toNat {h : Limbs 32} (hh : h.BlockBounded) :
    (carryLimbs h).l2.toNat = h.l2.toNat + h.l1.toNat / 2 ^ 26 ∧
    (carryLimbs h).l3.toNat = h.l3.toNat + (carryLimbs h).l2.toNat / 2 ^ 26 ∧
    (carryLimbs h).l4.toNat = h.l4.toNat + (carryLimbs h).l3.toNat / 2 ^ 26 ∧
    (carryLimbs h).l0.toNat = h.l0.toNat + 5 * ((carryLimbs h).l4.toNat / 2 ^ 26) ∧
    (carryLimbs h).l4.toNat / 2 ^ 26 ≤ h.l1.toNat / 2 ^ 26 := by
  obtain ⟨b0, b1, b2, b3, b4⟩ := hh
  have e2 : (carryLimbs h).l2.toNat = h.l2.toNat + h.l1.toNat / 2 ^ 26 := carry_toNat (by omega)
  have e3 : (carryLimbs h).l3.toNat = h.l3.toNat + (carryLimbs h).l2.toNat / 2 ^ 26 := carry_toNat (by omega)
  have e4 : (carryLimbs h).l4.toNat = h.l4.toNat + (carryLimbs h).l3.toNat / 2 ^ 26 := carry_toNat (by omega)
  have c2 : (carryLimbs h).l2.toNat / 2 ^ 26 ≤ h.l1.toNat / 2 ^ 26 := by omega
  have c3 : (carryLimbs h).l3.toNat / 2 ^ 26 ≤ h.l1.toNat / 2 ^ 26 := by omega
  have c4 : (carryLimbs h).l4.toNat / 2 ^ 26 ≤ h.l1.toNat / 2 ^ 26 := by omega
  have hfive : (5 * ((carryLimbs h).l4 >>> 26) : Word).toNat = 5 * ((carryLimbs h).l4.toNat / 2 ^ 26) := by
    rw [BitVec.toNat_mul, BitVec.toNat_ushiftRight, Nat.shiftRight_eq_div_pow]
    show 5 * ((carryLimbs h).l4.toNat / 2 ^ 26) % 2 ^ 32 = _
    omega
  have e0 : (carryLimbs h).l0.toNat = h.l0.toNat + 5 * ((carryLimbs h).l4.toNat / 2 ^ 26) := by
    rw [← hfive]
    have hfits : h.l0.toNat + (5 * ((carryLimbs h).l4 >>> 26) : Word).toNat < 2 ^ 32 := by omega
    exact BitVec.toNat_add_of_lt hfits
  exact ⟨e2, e3, e4, e0, c4⟩

/-- The final carry leaves proper digits and keeps the value modulo `P1305` (R204). A carry out of the top digit needs one out
of digit 1, and then digit 1 is left far below `2^26`, so that the last carry has room. -/
theorem finalCarry_spec {h : Limbs 32} (hh : h.BlockBounded) :
    (finalCarry h).Digits ∧ (finalCarry h).val % p1305 = h.val % p1305 := by
  obtain ⟨e2, e3, e4, e0, htop⟩ := carryLimbs_toNat hh
  obtain ⟨b0, b1, b2, b3, b4⟩ := hh
  have hmask := mask26_toNat (carryLimbs h).l1
  have hl1 : (carryLimbs h).l1 = h.l1 := rfl
  rw [finalCarry_eq]
  have f1 : (((carryLimbs h).l1 &&& mask26) + ((carryLimbs h).l0 >>> 26)).toNat =
      h.l1.toNat % 2 ^ 26 + (carryLimbs h).l0.toNat / 2 ^ 26 := by
    rw [carry_toNat (by omega), hmask, hl1]
  refine ⟨⟨?_, ?_, ?_, ?_, ?_⟩, ?_⟩
  · simp only [mask26_toNat]
    omega
  · simp only [f1]
    omega
  · simp only [mask26_toNat]
    omega
  · simp only [mask26_toNat]
    omega
  · simp only [mask26_toNat]
    omega
  · have hcarry : h.l1.toNat = h.l1.toNat + h.l0.toNat / 2 ^ 26 := by omega
    have hfold : (carryLimbs h).l0.toNat = h.l0.toNat % 2 ^ 26 + 5 * ((carryLimbs h).l4.toNat / 2 ^ 26) := by omega
    have hvalue := carry_identity hcarry e2 e3 e4 hfold
    simp only [Limbs.val, mask26_toNat, f1]
    rw [← hvalue, Nat.add_mul_mod_self_left]

/-! #### The conditional subtraction -/

/-- The digits of `val(H) + 5` with their incoming carries, before the masks and the subtraction of `2^130` (R205). -/
def addFive (h : Limbs 32) : Limbs 32 :=
  let g0 := h.l0 + 5
  let g1 := h.l1 + (g0 >>> 26)
  let g2 := h.l2 + (g1 >>> 26)
  let g3 := h.l3 + (g2 >>> 26)
  ⟨g0, g1, g2, g3, h.l4 + (g3 >>> 26)⟩

theorem minusP_eq (h : Limbs 32) :
    minusP h = ⟨(addFive h).l0 &&& mask26, (addFive h).l1 &&& mask26, (addFive h).l2 &&& mask26, (addFive h).l3 &&& mask26,
      (addFive h).l4 - 0x4000000⟩ := rfl

/-- The carries of `val(H) + 5` on natural numbers: nothing wraps (R205). -/
theorem addFive_toNat {h : Limbs 32} (hh : h.Digits) :
    (addFive h).l0.toNat = h.l0.toNat + 5 ∧ (addFive h).l1.toNat = h.l1.toNat + (addFive h).l0.toNat / 2 ^ 26 ∧
    (addFive h).l2.toNat = h.l2.toNat + (addFive h).l1.toNat / 2 ^ 26 ∧
    (addFive h).l3.toNat = h.l3.toNat + (addFive h).l2.toNat / 2 ^ 26 ∧
    (addFive h).l4.toNat = h.l4.toNat + (addFive h).l3.toNat / 2 ^ 26 := by
  obtain ⟨b0, b1, b2, b3, b4⟩ := hh
  have e0 : (addFive h).l0.toNat = h.l0.toNat + 5 :=
    BitVec.toNat_add_of_lt (by show h.l0.toNat + 5 < 2 ^ 32; omega)
  have e1 : (addFive h).l1.toNat = h.l1.toNat + (addFive h).l0.toNat / 2 ^ 26 := carry_toNat (by omega)
  have e2 : (addFive h).l2.toNat = h.l2.toNat + (addFive h).l1.toNat / 2 ^ 26 := carry_toNat (by omega)
  have e3 : (addFive h).l3.toNat = h.l3.toNat + (addFive h).l2.toNat / 2 ^ 26 := carry_toNat (by omega)
  have e4 : (addFive h).l4.toNat = h.l4.toNat + (addFive h).l3.toNat / 2 ^ 26 := carry_toNat (by omega)
  exact ⟨e0, e1, e2, e3, e4⟩

/-- The limbs `G` on natural numbers; the top one wraps below `2^26` (R205). -/
theorem minusP_toNat (h : Limbs 32) :
    (minusP h).l0.toNat = (addFive h).l0.toNat % 2 ^ 26 ∧ (minusP h).l1.toNat = (addFive h).l1.toNat % 2 ^ 26 ∧
    (minusP h).l2.toNat = (addFive h).l2.toNat % 2 ^ 26 ∧ (minusP h).l3.toNat = (addFive h).l3.toNat % 2 ^ 26 ∧
    (minusP h).l4.toNat = (2 ^ 32 - 2 ^ 26 + (addFive h).l4.toNat) % 2 ^ 32 := by
  rw [minusP_eq]
  exact ⟨mask26_toNat _, mask26_toNat _, mask26_toNat _, mask26_toNat _, BitVec.toNat_sub _ _⟩

/-- The selection mask is all ones where bit 31 of the top limb is 0 (R205). -/
theorem selectMask_of_lt {g : Limbs 32} (h : g.l4.toNat < 2 ^ 31) : selectMask g = BitVec.allOnes 32 := by
  have hbit : g.l4 >>> 31 = 0 := by
    apply BitVec.eq_of_toNat_eq
    rw [BitVec.toNat_ushiftRight, Nat.shiftRight_eq_div_pow, Nat.div_eq_of_lt h]
    rfl
  rw [selectMask, hbit]
  rfl

/-- The selection mask is 0 where bit 31 of the top limb is 1 (R205). -/
theorem selectMask_of_ge {g : Limbs 32} (h : 2 ^ 31 ≤ g.l4.toNat) : selectMask g = 0#32 := by
  have hbit : g.l4 >>> 31 = 1 := by
    apply BitVec.eq_of_toNat_eq
    have hlt := g.l4.isLt
    rw [BitVec.toNat_ushiftRight, Nat.shiftRight_eq_div_pow]
    show g.l4.toNat / 2 ^ 31 = 1
    omega
  rw [selectMask, hbit]
  rfl

theorem selectWord_allOnes (h g : Word) : selectWord (BitVec.allOnes 32) h g = g := by
  rw [selectWord, BitVec.not_allOnes, BitVec.and_zero, BitVec.zero_or, BitVec.and_allOnes]

theorem selectWord_zero (h g : Word) : selectWord 0#32 h g = h := by
  rw [selectWord, BitVec.not_zero, BitVec.and_allOnes, BitVec.and_zero, BitVec.or_zero]

/-- The masked selection is a choice by bit 31 of the top limb of `G` (R205). -/
theorem conditionalSubtract_eq (h : Limbs 32) :
    conditionalSubtract h = if (minusP h).l4.toNat < 2 ^ 31 then minusP h else h := by
  split
  next hlt => simp only [conditionalSubtract, selectMask_of_lt hlt, selectWord_allOnes]
  next hge => simp only [conditionalSubtract, selectMask_of_ge (Nat.not_lt.mp hge), selectWord_zero]

/-- On proper digits the conditional subtraction gives the canonical residue, in proper digits (R205). -/
theorem conditionalSubtract_spec {h : Limbs 32} (hh : h.Digits) :
    (conditionalSubtract h).Digits ∧ (conditionalSubtract h).val = h.val % p1305 := by
  obtain ⟨e0, e1, e2, e3, e4⟩ := addFive_toNat hh
  obtain ⟨g0, g1, g2, g3, g4⟩ := minusP_toNat h
  have hdigits := hh
  obtain ⟨b0, b1, b2, b3, b4⟩ := hdigits
  rw [conditionalSubtract_eq]
  split
  next hlt =>
    refine ⟨⟨by omega, by omega, by omega, by omega, by omega⟩, ?_⟩
    have hvalue : h.val = p1305 + (minusP h).val := by
      rw [Limbs.val, Limbs.val, g0, g1, g2, g3, g4, p1305_eq]
      omega
    have hsmall : (minusP h).val < p1305 := by
      rw [Limbs.val, g0, g1, g2, g3, g4, p1305_eq]
      omega
    rw [hvalue, Nat.add_mod_left, Nat.mod_eq_of_lt hsmall]
  next hge =>
    have hsmall : h.val < p1305 := by
      rw [Limbs.val, p1305_eq]
      omega
    exact ⟨hh, (Nat.mod_eq_of_lt hsmall).symm⟩

/-- Settles O39: the final carry gives proper digits of the same residue, the conditional subtraction the residue itself. -/
theorem finalLimbsAreTheCanonicalResidue : Obligations.FinalLimbsAreTheCanonicalResidue := by
  unfold Obligations.FinalLimbsAreTheCanonicalResidue
  intro h h0 h1 h2 h3 h4
  obtain ⟨hdigits, hval⟩ := finalCarry_spec ⟨h0, h1, h2, h3, h4⟩
  have hresidue := (conditionalSubtract_spec hdigits).2.trans hval
  obtain ⟨d0, d1, d2, d3, d4⟩ := hdigits
  exact ⟨Nat.le_sub_one_of_lt d0, Nat.le_sub_one_of_lt d1, Nat.le_sub_one_of_lt d2, Nat.le_sub_one_of_lt d3,
    Nat.le_sub_one_of_lt d4, hresidue⟩

/-! #### Repacking and adding the pad -/

/-- The integer of four words, least significant first (R198, R206). -/
def FourWords.val (t : FourWords) : Nat :=
  t.p0.toNat + t.p1.toNat * 2 ^ 32 + t.p2.toNat * 2 ^ 64 + t.p3.toNat * 2 ^ 96

/-- The serialised words are the integer's bytes (R207). -/
theorem FourWords.le_serialize (t : FourWords) : le t.serialize = t.val := by
  have hword (w : Word) : le (serWord w) = w.toNat := by
    rw [serWord, le_ser]
    exact Nat.mod_eq_of_lt w.isLt
  simp only [FourWords.serialize, FourWords.val, le_append, List.length_append, serWord_length, hword]
  ring

/-- Two fields that do not overlap, or-ed together, are their sum; the upper one keeps the bits that fit (R206). -/
theorem or_shiftLeft_toNat {a b : Word} {k : Nat} (hk : k ≤ 32) (ha : a.toNat < 2 ^ k) :
    (a ||| (b <<< k)).toNat = a.toNat + 2 ^ k * (b.toNat % 2 ^ (32 - k)) := by
  have hsplit : 2 ^ 32 = 2 ^ k * 2 ^ (32 - k) := by rw [← Nat.pow_add, Nat.add_sub_cancel' hk]
  rw [BitVec.toNat_or, BitVec.toNat_shiftLeft, Nat.shiftLeft_eq, Nat.mul_comm b.toNat, hsplit, Nat.mul_mod_mul_left,
    Nat.or_comm, ← Nat.two_pow_add_eq_or_of_lt ha, Nat.add_comm]

/-- Repacking proper digits keeps the low 128 bits of their value (R206). -/
theorem repack_val {h : Limbs 32} (hh : h.Digits) : (repack h).val = h.val % 2 ^ 128 := by
  obtain ⟨b0, b1, b2, b3, b4⟩ := hh
  have hshift (w : Word) (k : Nat) : (w >>> k).toNat = w.toNat / 2 ^ k := by
    rw [BitVec.toNat_ushiftRight, Nat.shiftRight_eq_div_pow]
  have w0 : (repack h).p0.toNat = h.l0.toNat + 2 ^ 26 * (h.l1.toNat % 2 ^ 6) :=
    or_shiftLeft_toNat (k := 26) (by decide) b0
  have w1 : (repack h).p1.toNat = h.l1.toNat / 2 ^ 6 + 2 ^ 20 * (h.l2.toNat % 2 ^ 12) := by
    rw [← hshift h.l1 6]
    exact or_shiftLeft_toNat (k := 20) (by decide) (by rw [hshift]; omega)
  have w2 : (repack h).p2.toNat = h.l2.toNat / 2 ^ 12 + 2 ^ 14 * (h.l3.toNat % 2 ^ 18) := by
    rw [← hshift h.l2 12]
    exact or_shiftLeft_toNat (k := 14) (by decide) (by rw [hshift]; omega)
  have w3 : (repack h).p3.toNat = h.l3.toNat / 2 ^ 18 + 2 ^ 8 * (h.l4.toNat % 2 ^ 24) := by
    rw [← hshift h.l3 18]
    exact or_shiftLeft_toNat (k := 8) (by decide) (by rw [hshift]; omega)
  rw [FourWords.val, Limbs.val, w0, w1, w2, w3]
  omega

/-- A 64-bit sum of two words and a carry does not wrap (R207). -/
theorem addCarry_toNat (a b : Word) (f : DWord) :
    (a.setWidth 64 + b.setWidth 64 + (f >>> 32)).toNat = a.toNat + b.toNat + f.toNat / 2 ^ 32 := by
  have hf := f.isLt
  have ha := a.isLt
  have hb := b.isLt
  rw [BitVec.toNat_add, BitVec.toNat_add, BitVec.toNat_setWidth, BitVec.toNat_setWidth, BitVec.toNat_ushiftRight,
    Nat.shiftRight_eq_div_pow]
  omega

/-- The four sums on natural numbers, each with its incoming carry (R207). -/
theorem addPad_toNat (w pad : FourWords) {f0 f1 f2 f3 : Nat} (h0 : f0 = w.p0.toNat + pad.p0.toNat)
    (h1 : f1 = w.p1.toNat + pad.p1.toNat + f0 / 2 ^ 32) (h2 : f2 = w.p2.toNat + pad.p2.toNat + f1 / 2 ^ 32)
    (h3 : f3 = w.p3.toNat + pad.p3.toNat + f2 / 2 ^ 32) :
    (addPad w pad).p0.toNat = f0 % 2 ^ 32 ∧ (addPad w pad).p1.toNat = f1 % 2 ^ 32 ∧
    (addPad w pad).p2.toNat = f2 % 2 ^ 32 ∧ (addPad w pad).p3.toNat = f3 % 2 ^ 32 := by
  have c0 : (w.p0.setWidth 64 + pad.p0.setWidth 64).toNat = f0 := by
    have hw := w.p0.isLt
    have hpad := pad.p0.isLt
    rw [BitVec.toNat_add, BitVec.toNat_setWidth, BitVec.toNat_setWidth]
    omega
  simp only [addPad, BitVec.toNat_setWidth, addCarry_toNat]
  rw [c0, ← h1, ← h2, ← h3]
  exact ⟨rfl, rfl, rfl, rfl⟩

/-- Adding the pad is addition modulo `2^128` (R207). -/
theorem addPad_val (w pad : FourWords) : (addPad w pad).val = (w.val + pad.val) % 2 ^ 128 := by
  obtain ⟨t0, t1, t2, t3⟩ := addPad_toNat w pad rfl rfl rfl rfl
  rw [FourWords.val, FourWords.val, FourWords.val, t0, t1, t2, t3]
  omega

/-- From proper digits, the repacked words plus the pad are the tag's bytes (R206, R207). -/
theorem addPad_repack_serialize {h : Limbs 32} (hh : h.Digits) (pad : FourWords) :
    (addPad (repack h) pad).serialize = ser ((h.val + pad.val) % 2 ^ 128) 16 := by
  refine le_inj (by rw [FourWords.serialize_length, ser_length]) ?_
  rw [FourWords.le_serialize, addPad_val, repack_val hh, Nat.mod_add_mod, le_ser]
  exact (Nat.mod_mod _ _).symm

/-- Settles O40: repacking keeps the low 128 bits, and the sum with the pad is taken modulo `2^128`. -/
theorem repackedLimbsPlusPadGiveTheTag : Obligations.RepackedLimbsPlusPadGiveTheTag := by
  unfold Obligations.RepackedLimbsPlusPadGiveTheTag
  exact fun h pad h0 h1 h2 h3 h4 => addPad_repack_serialize ⟨h0, h1, h2, h3, h4⟩ pad

end Sys2Proof.Machine

/-! ### The limb datapath as a whole and the command MAC (43_poly1305.md rules R208 to R210) -/

namespace Sys2Proof.Machine

/-! #### The two layers agree -/

/-- The loaded limbs stand for the clamped `r` (R197). -/
theorem loadR_val {otk : List Byte} (hotk : otk.length = 32) : (loadR otk).val = clampedR otk := by
  obtain ⟨d0, d1, d2, d3, d4, -⟩ := loadedLimbsAreTheDigitsOfR otk hotk
  rw [Limbs.val, d0, d1, d2, d3, d4]
  omega

/-- The four pad words stand for the key half `s` (R198). -/
theorem loadPad_val {otk : List Byte} (hotk : otk.length = 32) : (loadPad otk).val = padS otk := by
  have hword {i : Nat} (hi : i + 4 ≤ 16) :
      (leWord (slice otk (16 + i) (16 + (i + 4)))).toNat = padS otk / 2 ^ (8 * i) % 2 ^ 32 := by
    rw [leWord_toNat (by rw [slice_length]; omega)]
    exact le_four_at (slice_slice otk 16 (by omega)).symm (by rw [slice_length, hotk]; exact hi)
  have hlt : padS otk < 2 ^ 128 := by
    have hle := le_lt (slice otk 16 32)
    rwa [slice_length, hotk] at hle
  have p0 : (loadPad otk).p0.toNat = padS otk / 2 ^ (8 * 0) % 2 ^ 32 := hword (i := 0) (by decide)
  have p1 : (loadPad otk).p1.toNat = padS otk / 2 ^ (8 * 4) % 2 ^ 32 := hword (i := 4) (by decide)
  have p2 : (loadPad otk).p2.toNat = padS otk / 2 ^ (8 * 8) % 2 ^ 32 := hword (i := 8) (by decide)
  have p3 : (loadPad otk).p3.toNat = padS otk / 2 ^ (8 * 12) % 2 ^ 32 := hword (i := 12) (by decide)
  rw [FourWords.val, p0, p1, p2, p3]
  omega

/-- A block has at most 16 bytes (R195). -/
theorem blockAt_length_le (msg : List Byte) (k : Nat) : (blockAt msg k).length ≤ 16 := by
  rw [blockAt, slice_length]
  omega

/-- The block steps keep the limbs within their bounds and congruent to the accumulator of the value level (R202, R203). -/
theorem Poly1305Accumulator.foldl_stepAt_spec (msg : List Byte) (l : List Nat) {p : Poly1305Accumulator}
    (hh : p.h.BlockBounded) (hr : p.r.ClampBounded) (hs5 : p.s5 = scaleR p.r) {x : Nat} (hx : p.h.val ≡ x [MOD p1305]) :
    (l.foldl (Poly1305Accumulator.stepAt msg) p).h.BlockBounded ∧
    (l.foldl (Poly1305Accumulator.stepAt msg) p).h.val ≡
      l.foldl (fun h k => absorb p.r.val h (blockAt msg k)) x [MOD p1305] := by
  induction l generalizing p x with
  | nil => exact ⟨hh, hx⟩
  | cons k l ih =>
    obtain ⟨hbounded, hval⟩ := Poly1305Accumulator.blockStep_spec hh hr hs5 (blockAt_length_le msg k)
    have hstep : (p.stepAt msg k).h.val ≡ absorb p.r.val x (blockAt msg k) [MOD p1305] :=
      calc (p.stepAt msg k).h.val ≡ (p.h.val + blockInt (blockAt msg k)) * p.r.val [MOD p1305] := hval
        _ ≡ (x + blockInt (blockAt msg k)) * p.r.val [MOD p1305] := (hx.add_right _).mul_right _
        _ ≡ absorb p.r.val x (blockAt msg k) [MOD p1305] := (Nat.mod_modEq _ _).symm
    exact ih (p := p.stepAt msg k) hbounded hr hs5 hstep

/-- The zero limbs are within every bound and stand for 0 (R198, R203). -/
theorem Limbs.zero_blockBounded : (Limbs.zero 32).BlockBounded :=
  ⟨Nat.zero_le _, Nat.zero_le _, Nat.zero_le _, Nat.zero_le _, Nat.zero_le _⟩

@[simp] theorem Limbs.zero_val : (Limbs.zero 32).val = 0 := by decide

/-- `H` after the block steps of a message is within its bounds and congruent to the accumulator of the value level (R208). -/
theorem Poly1305Accumulator.absorbBlocks_start_spec (p : Poly1305Accumulator) {otk : List Byte} (hotk : otk.length = 32)
    (msg : List Byte) :
    ((p.start otk).absorbBlocks msg).h.BlockBounded ∧
    ((p.start otk).absorbBlocks msg).h.val ≡ absorbAll (clampedR otk) msg [MOD p1305] := by
  rw [Poly1305Accumulator.absorbBlocks_eq, absorbAll_eq, ← loadR_val hotk]
  exact Poly1305Accumulator.foldl_stepAt_spec msg _ (p := p.start otk) (x := 0) Limbs.zero_blockBounded
    (loadR_clampBounded otk) rfl (congrArg (· % p1305) Limbs.zero_val)

/-- Settles O41: the limbs stay congruent to the accumulator, the finalisation takes the residue and adds the pad. -/
theorem limbDatapathComputesPoly1305 : Obligations.LimbDatapathComputesPoly1305 := by
  unfold Obligations.LimbDatapathComputesPoly1305
  intro p otk msg hotk
  obtain ⟨hbounded, hcongr⟩ := p.absorbBlocks_start_spec hotk msg
  obtain ⟨hcarried, hcarry⟩ := finalCarry_spec hbounded
  obtain ⟨hdigits, hresidue⟩ := conditionalSubtract_spec hcarried
  have hpad : ((p.start otk).absorbBlocks msg).pad = loadPad otk :=
    (Poly1305Accumulator.foldl_stepAt_frame msg _ (p.start otk)).2.2
  have hvalue : (conditionalSubtract (finalCarry ((p.start otk).absorbBlocks msg).h)).val =
      absorbAll (clampedR otk) msg % p1305 := by rw [hresidue, hcarry]; exact hcongr
  rw [Poly1305Accumulator.runMac, Poly1305Accumulator.finish_tagx, addPad_repack_serialize hdigits, hvalue, hpad,
    loadPad_val hotk, poly1305Mac]

/-! #### The command MAC -/

/-- When the ranges MAC checks are valid (R210). -/
theorem State.badRange_macRanges_iff (s : State) :
    s.badRange s.macRanges = true ↔
      ¬ (s.validRange s.keyAddr 32 = true ∧ s.validRange s.bufAddr s.bufLen.toNat = true ∧
          s.validRange s.outAddr 16 = true) := by
  simp [State.badRange_iff, State.macRanges]

/-- The body of MAC ends normally with the tag of the value level at `OUT_ADDR` (R210). -/
theorem State.macBody_completes {s : State} (h : s.mem.wf) :
    CompletesWith (.next s.macBody) s s.outAddr (poly1305Mac s.key s.buf) 16 := by
  have htag : (s.hidden.runMac s.key s.buf).pa.tagx.toList = poly1305Mac s.key s.buf :=
    limbDatapathComputesPoly1305 s.hidden.pa s.key s.buf (Memory.readBytes_length _ _ _)
  rw [State.macBody, htag]
  exact State.succeed_completes h _ _ _ (by decide)

/-- Settles O42: MAC's two checks in their order, and its body with both passed. -/
theorem macWritesTheTag : Obligations.MacWritesTheTag := by
  unfold Obligations.MacWritesTheTag
  intro s hwf
  rw [exec_mac]
  refine ⟨fun hkey => ?_, fun hkey hranges => ?_, fun hkey hk hb ho => ?_⟩
  · refine State.runCommand_fails (e := .invalidKeyLength) s.hidden _ ?_
    rw [State.macCauses, s.badKeyLength_iff.mpr hkey, firstCause_true]
  · refine State.runCommand_fails (e := .bufferFault) s.hidden _ ?_
    rw [State.macCauses, State.badKeyLength_false hkey, s.badRange_macRanges_iff.mpr hranges, firstCause_false,
      firstCause_true]
  · have hgood : s.badRange s.macRanges = false :=
      Bool.eq_false_iff.mpr fun hbad => s.badRange_macRanges_iff.mp hbad ⟨hk, hb, ho⟩
    have hcauses : firstCause s.macCauses = none := by
      rw [State.macCauses, State.badKeyLength_false hkey, hgood, firstCause_false, firstCause_false, firstCause_nil]
    rw [State.runCommand_body _ hcauses]
    exact State.macBody_completes hwf

end Sys2Proof.Machine

/-! ### The AEAD Composer, the value level (44_aead.md rules R232 to R237 and R242) -/

namespace Sys2Proof.Machine

/-! #### The MAC input -/

@[simp] theorem pad16_length (n : Nat) : (pad16 n).length = (16 - n % 16) % 16 := zeros_length _

/-- The data and its padding together are whole blocks (R232). -/
theorem length_add_pad16_length_mod (n : Nat) : (n + (pad16 n).length) % 16 = 0 := by
  rw [pad16_length]
  omega

/-- The MAC input is the two padded sequences and then the length block (R233). -/
theorem macInput_eq (aad ct : List Byte) :
    macInput aad ct =
      (aad ++ pad16 aad.length ++ (ct ++ pad16 ct.length)) ++ (ser aad.length 8 ++ ser ct.length 8) := by
  simp only [macInput, List.append_assoc]

/-- Settles O43: each padded sequence is whole blocks, and the length block is the 16 bytes after them. -/
theorem macInputIsWholeBlocks : Obligations.MacInputIsWholeBlocks := by
  unfold Obligations.MacInputIsWholeBlocks
  refine ⟨fun aad ct => ⟨?_, ?_⟩, rfl⟩
  · have haad := length_add_pad16_length_mod aad.length
    have hct := length_add_pad16_length_mod ct.length
    simp only [macInput_eq, List.length_append, ser_length]
    omega
  · rw [macInput_eq]
    exact List.drop_left' (by simp only [List.length_append, ser_length]; omega)

/-! #### The tag comparison -/

/-- Bytes or-ed together give 0 exactly where every one of them is 0. -/
theorem foldl_or_eq_zero_iff (bytes : List Byte) (acc : Byte) :
    bytes.foldl (fun acc x => acc ||| x) acc = 0 ↔ acc = 0 ∧ ∀ x ∈ bytes, x = 0 := by
  induction bytes generalizing acc with
  | nil => simp
  | cons b bs ih => rw [List.foldl_cons, ih, List.forall_mem_cons, ← and_assoc, BitVec.ofNat_eq_ofNat, BitVec.or_eq_zero_iff]

/-- The bytewise difference of two sequences of one length is all 0 exactly where they are equal. -/
theorem forall_mem_xorBytes_eq_zero_iff {a b : List Byte} (h : a.length = b.length) :
    (∀ x ∈ xorBytes a b, x = 0) ↔ a = b := by
  induction a generalizing b with
  | nil => simp [xorBytes, List.length_eq_zero_iff.mp h.symm]
  | cons x xs ih =>
    cases b with
    | nil => simp at h
    | cons y ys =>
      have htail := ih (Nat.succ.inj h)
      rw [xorBytes] at htail ⊢
      rw [List.zipWith_cons_cons, List.forall_mem_cons, htail, BitVec.ofNat_eq_ofNat, BitVec.xor_eq_zero_iff, List.cons.injEq]

/-- The comparison accepts exactly equal tags (R236). -/
theorem tagEqual_iff {a b : List Byte} (h : a.length = b.length) : tagEqual a b = true ↔ a = b := by
  rw [tagEqual, beq_iff_eq, tagDiff, foldl_or_eq_zero_iff, forall_mem_xorBytes_eq_zero_iff h]
  exact and_iff_right rfl

/-- Settles O44: the accumulated difference is 0 exactly where each byte pair's is. -/
theorem tagComparisonIsEquality : Obligations.TagComparisonIsEquality := by
  unfold Obligations.TagComparisonIsEquality
  exact fun _ _ ha hb => tagEqual_iff (ha.trans hb.symm)

/-! #### The length limit -/

theorem aeadMaxBytes_eq : aeadMaxBytes = 274877906816 := rfl

/-- Settles O45: the limit is `2^32 - 2` chunks, which take the counters 1 to `2^32 - 2`. -/
theorem aeadLimitKeepsTheCounterInRange : Obligations.AeadLimitKeepsTheCounterInRange := by
  unfold Obligations.AeadLimitKeepsTheCounterInRange
  refine ⟨aeadMaxBytes_eq, fun n hn => Bool.eq_false_iff.mpr fun hover => ?_⟩
  obtain ⟨-, hlast⟩ := (counterOverflow_iff 1 n).mp hover
  rw [show (1 : Word).toNat = 1 from rfl] at hlast
  omega

/-! #### Open after Seal -/

/-- A sealed input put together from a ciphertext and a tag is cut into those two again (R235). -/
theorem sealedText_append (ct : List Byte) {tag : List Byte} (h : tag.length = 16) : sealedText (ct ++ tag) = ct :=
  List.take_left' (by rw [List.length_append, h, Nat.add_sub_cancel])

theorem sealedTag_append (ct : List Byte) {tag : List Byte} (h : tag.length = 16) : sealedTag (ct ++ tag) = tag :=
  List.drop_left' (by rw [List.length_append, h, Nat.add_sub_cancel])

/-- Settles O46: the tag is recomputed from the same ciphertext, and the stream is its own inverse. -/
theorem openOfSealIsThePlaintext : Obligations.OpenOfSealIsThePlaintext := by
  unfold Obligations.OpenOfSealIsThePlaintext
  intro key nonce aad pt
  have htag := poly1305Mac_length (tagKey key nonce) (macInput aad (xorStream key nonce 1 pt))
  rw [openBytes, sealBytes, sealedText_append _ htag, sealedTag_append _ htag, if_pos ((tagEqual_iff rfl).mpr rfl),
    xorStream_xorStream]

end Sys2Proof.Machine

/-! ### The commands SEAL, OPEN, XSEAL and XOPEN (44_aead.md rules R238 to R242) -/

namespace Sys2Proof.Machine

/-! #### Values the registers leave -/

/-- The limb datapath's tag under a 32-byte key is Poly1305 (R208). -/
theorem limbTag_eq {otk : List Byte} (hotk : otk.length = 32) (msg : List Byte) : limbTag otk msg = poly1305Mac otk msg :=
  limbDatapathComputesPoly1305 _ otk msg hotk

/-- Seal on the registers gives Seal (R234). -/
theorem Hidden.runSeal_eq_sealBytes (g : Hidden) (key nonce aad pt : List Byte) :
    (g.runSeal key nonce aad pt).2 = sealBytes key nonce aad pt := by
  rw [Hidden.runSeal_snd, limbTag_eq (tagKey_length key nonce), sealBytes]

/-- Verify on the registers leaves `DIFF` 0 exactly where the tags agree (R235, R236). -/
theorem Hidden.runVerify_diff_beq (g : Hidden) (key nonce aad sealed : List Byte) :
    ((g.runVerify key nonce aad sealed).ac.diff == 0) =
      tagEqual (poly1305Mac (tagKey key nonce) (macInput aad (sealedText sealed))) (sealedTag sealed) := by
  rw [Hidden.runVerify_diff, limbTag_eq (tagKey_length key nonce), tagEqual]

@[simp] theorem sealBytes_length (key nonce aad pt : List Byte) : (sealBytes key nonce aad pt).length = pt.length + 16 := by
  rw [sealBytes, List.length_append, xorStream_length, poly1305Mac_length]

/-- The two outcomes of Open by the comparison (R235). -/
theorem openBytes_eq_ok_iff {key nonce aad sealed pt : List Byte} :
    openBytes key nonce aad sealed = .ok pt ↔
      tagEqual (poly1305Mac (tagKey key nonce) (macInput aad (sealedText sealed))) (sealedTag sealed) = true ∧
      xorStream key nonce 1 (sealedText sealed) = pt := by
  unfold openBytes
  split
  next htags => simp only [htags, Except.ok.injEq, true_and]
  next htags => simp only [htags, reduceCtorEq, false_and]

theorem tagEqual_false_of_openBytes_error {key nonce aad sealed : List Byte} {e : ErrorKind}
    (h : openBytes key nonce aad sealed = .error e) :
    tagEqual (poly1305Mac (tagKey key nonce) (macInput aad (sealedText sealed))) (sealedTag sealed) = false := by
  refine Bool.eq_false_iff.mpr fun htags => ?_
  rw [openBytes, if_pos htags] at h
  cases h

/-! #### SEAL and XSEAL -/

@[simp] theorem State.beginAead_aad (s : State) : s.beginAead.aad = s.aad := rfl
@[simp] theorem State.beginAead_buf (s : State) : s.beginAead.buf = s.buf := rfl

/-- RES_LEN has 64 bits: a normal end leaves the low ones of the length it is given (R30, R98). -/
theorem State.succeed_completes_mod {s : State} (h : s.mem.wf) (g : Hidden) (addr : DWord) (bytes : List Byte) (len : Nat) :
    CompletesWith (.next ({ s with hidden := g }.succeed addr bytes len)) s addr bytes (len % 2 ^ 64) := by
  have hlen : BitVec.ofNat 64 len = BitVec.ofNat 64 (len % 2 ^ 64) :=
    BitVec.eq_of_toNat_eq (by simp only [BitVec.toNat_ofNat, Nat.mod_mod])
  rw [State.succeed, hlen]
  exact State.succeed_completes h g addr bytes (Nat.mod_lt _ (by decide))

/-- SEAL under a key and a nonce ends normally with Seal of the operands over the buffer (R238). -/
theorem State.sealWith_completes {s : State} (h : s.mem.wf) (g : Hidden) (key nonce : List Byte) :
    CompletesWith (.next (s.beginAead.sealWith g key nonce)) s s.bufAddr (sealBytes key nonce s.aad s.buf)
      ((s.bufLen.toNat + 16) % 2 ^ 64) := by
  rw [State.sealWith, Hidden.runSeal_eq_sealBytes]
  exact State.succeed_completes_mod h _ _ _ _

theorem State.plaintextTooLarge_iff (s : State) : s.plaintextTooLarge = true ↔ s.bufLen.toNat > 274877906816 := by
  rw [State.plaintextTooLarge, decide_eq_true_iff, aeadMaxBytes_eq]

theorem State.plaintextTooLarge_false_iff (s : State) : s.plaintextTooLarge = false ↔ s.bufLen.toNat ≤ 274877906816 := by
  rw [State.plaintextTooLarge, decide_eq_false_iff_not, aeadMaxBytes_eq]
  exact Nat.not_lt

/-- Within the size limit the length of the sealed output fits RES_LEN (R237). -/
theorem State.sealedLength_mod {s : State} (h : s.bufLen.toNat ≤ 274877906816) :
    (s.bufLen.toNat + 16) % 2 ^ 64 = s.bufLen.toNat + 16 :=
  Nat.mod_eq_of_lt (by omega)

/-- When the ranges SEAL and XSEAL check are valid (R238, R240). -/
theorem State.badRange_sealRanges_iff (s : State) (n : Nat) :
    s.badRange (s.sealRanges n) = true ↔
      ¬ (s.validRange s.keyAddr 32 = true ∧ s.validRange s.nonceAddr n = true ∧
          s.validRange s.aadAddr s.aadLen.toNat = true ∧ s.validRange s.bufAddr (s.bufLen.toNat + 16) = true) := by
  simp [State.badRange_iff, State.sealRanges]

/-- SEAL is the four checks of `State.bufferChecks` and its body, begun in the phase KeySetup (R238). -/
theorem exec_sealCmd_bufferChecks (s : State) :
    exec .sealCmd s =
      s.beginAead.runCommand (s.bufferChecks 12 s.plaintextTooLarge (s.sealRanges 12)) State.sealBody := rfl

/-- XSEAL likewise, with a 24-byte nonce (R240). -/
theorem exec_xseal_bufferChecks (s : State) :
    exec .xseal s =
      s.beginAead.runCommand (s.bufferChecks 24 s.plaintextTooLarge (s.sealRanges 24)) State.xsealBody := rfl

/-- XSEAL's body is SEAL's under the derived subkey and subnonce (R240). -/
theorem State.xsealBody_eq (s : State) :
    s.xsealBody = s.sealWith (s.hidden.runDerive s.key s.nonce24) (derive s.key s.nonce24).1 (derive s.key s.nonce24).2 := by
  rw [State.xsealBody, Hidden.runDerive_subkey, s.runDerive_subnonce]

/-- Settles O47: SEAL's checks are those of `State.bufferChecks`; within the size limit the result length fits RES_LEN. -/
theorem sealWritesCiphertextAndTag : Obligations.SealWritesCiphertextAndTag := by
  unfold Obligations.SealWritesCiphertextAndTag
  intro s hwf
  obtain ⟨hkey, hnonce, hlarge, hrange, hdone⟩ := State.runCommand_bufferChecks (s.hidden.enterPhase .keySetup)
    (exec_sealCmd_bufferChecks s) s.plaintextTooLarge_iff (s.badRange_sealRanges_iff 12)
    (State.sealWith_completes hwf _ s.key s.nonce)
  refine ⟨hkey, hnonce, hlarge, fun hk hn hsmall => hrange hk hn (Nat.not_lt.mpr hsmall),
    fun hk hn hsmall hkr hnr har hbr => ?_⟩
  rw [← State.sealedLength_mod hsmall]
  exact hdone hk hn (Nat.not_lt.mpr hsmall) ⟨hkr, hnr, har, hbr⟩

/-- Settles O49: XSEAL's checks are SEAL's with a 24-byte nonce, and its body is SEAL's under what it derives. -/
theorem xsealWritesCiphertextAndTag : Obligations.XsealWritesCiphertextAndTag := by
  unfold Obligations.XsealWritesCiphertextAndTag
  intro s hwf
  obtain ⟨hkey, hnonce, hlarge, hrange, hdone⟩ := State.runCommand_bufferChecks (s.hidden.enterPhase .keySetup)
    (exec_xseal_bufferChecks s) s.plaintextTooLarge_iff (s.badRange_sealRanges_iff 24)
    (s.beginAead.xsealBody_eq ▸ State.sealWith_completes hwf _ _ _)
  refine ⟨hkey, hnonce, hlarge, fun hk hn hsmall => hrange hk hn (Nat.not_lt.mpr hsmall),
    fun hk hn hsmall hkr hnr har hbr => ?_⟩
  rw [← State.sealedLength_mod hsmall]
  exact hdone hk hn (Nat.not_lt.mpr hsmall) ⟨hkr, hnr, har, hbr⟩

/-! #### OPEN and XOPEN -/

/-- OPEN under a key and a nonce puts the plaintext Open gives in place (R239). -/
theorem State.openWith_completes {s : State} (h : s.mem.wf) (g : Hidden) {key nonce pt : List Byte}
    (hopen : openBytes key nonce s.aad s.buf = .ok pt) :
    CompletesWith (.next (s.beginAead.openWith g key nonce)) s s.bufAddr pt (s.bufLen.toNat - 16) := by
  obtain ⟨htags, rfl⟩ := openBytes_eq_ok_iff.mp hopen
  have hlen := s.bufLen.isLt
  simp only [State.openWith, Hidden.runVerify_diff_beq, State.beginAead_aad, State.beginAead_buf, htags, if_true,
    Hidden.runStream_snd]
  exact State.succeed_completes h _ _ _ (by omega)

/-- OPEN under a key and a nonce ends with AuthenticationFailed where Open does (R239). -/
theorem State.openWith_fails {s : State} (g : Hidden) {key nonce : List Byte} {e : ErrorKind}
    (hopen : openBytes key nonce s.aad s.buf = .error e) : FailsWith (.next (s.beginAead.openWith g key nonce)) s 5 := by
  simp only [State.openWith, Hidden.runVerify_diff_beq, State.beginAead_aad, State.beginAead_buf,
    tagEqual_false_of_openBytes_error hopen, Bool.false_eq_true, if_false]
  exact s.raiseError_fails _ .authenticationFailed

/-- The five checks OPEN and XOPEN share, in the order of R268. -/
def State.openChecks (s : State) (nonceBytes : DWord) (ranges : List (DWord × Nat)) : List (Bool × ErrorKind) :=
  [(s.badKeyLength, .invalidKeyLength), (s.badNonceLength nonceBytes, .invalidNonceLength),
   (s.badTagLength, .invalidTagLength), (s.ciphertextTooLarge, .messageTooLarge), (s.badRange ranges, .bufferFault)]

theorem State.badTagLength_iff (s : State) : s.badTagLength = true ↔ s.bufLen.toNat < 16 := decide_eq_true_iff

theorem State.badTagLength_false {s : State} (h : 16 ≤ s.bufLen.toNat) : s.badTagLength = false :=
  decide_eq_false (Nat.not_lt.mpr h)

theorem State.ciphertextTooLarge_iff (s : State) :
    s.ciphertextTooLarge = true ↔ s.bufLen.toNat - 16 > 274877906816 := by
  rw [State.ciphertextTooLarge, decide_eq_true_iff, aeadMaxBytes_eq]

theorem State.ciphertextTooLarge_false {s : State} (h : s.bufLen.toNat - 16 ≤ 274877906816) :
    s.ciphertextTooLarge = false :=
  decide_eq_false (Nat.not_lt.mpr h)

/-- When the ranges OPEN and XOPEN check are valid (R239, R241). -/
theorem State.badRange_openRanges_iff (s : State) (n : Nat) :
    s.badRange (s.openRanges n) = true ↔
      ¬ (s.validRange s.keyAddr 32 = true ∧ s.validRange s.nonceAddr n = true ∧
          s.validRange s.aadAddr s.aadLen.toNat = true ∧ s.validRange s.bufAddr s.bufLen.toNat = true) := by
  simp [State.badRange_iff, State.openRanges]

/-- The checks pass exactly when each of them does (R268). -/
theorem State.openChecks_pass_iff (s : State) (nonceBytes : DWord) (ranges : List (DWord × Nat)) :
    firstCause (s.openChecks nonceBytes ranges) = none ↔
      s.keyLen = 32 ∧ s.nonceLen = nonceBytes ∧ 16 ≤ s.bufLen.toNat ∧ s.bufLen.toNat - 16 ≤ 274877906816 ∧
        ∀ r ∈ ranges, s.validRange r.1 r.2 = true := by
  simp [firstCause, State.openChecks, State.badKeyLength, State.badNonceLength, State.badTagLength, State.ciphertextTooLarge,
    aeadMaxBytes_eq, State.badRange]

/-- A command with these five checks raises the first that fails, and runs its body where none does (R268, R269); `Valid` says
what its range check means. -/
theorem State.runCommand_openChecks {s : State} (g : Hidden) {nonceBytes : DWord} {ranges : List (DWord × Nat)} {Valid : Prop}
    {body : State → State} {o : Host.Outcome State Fault Refusal}
    (ho : o = ({ s with hidden := g } : State).runCommand (s.openChecks nonceBytes ranges) body)
    (hranges : s.badRange ranges = true ↔ ¬ Valid) :
    (s.keyLen ≠ 32 → FailsWith o s 1) ∧
    (s.keyLen = 32 → s.nonceLen ≠ nonceBytes → FailsWith o s 2) ∧
    (s.keyLen = 32 → s.nonceLen = nonceBytes → s.bufLen.toNat < 16 → FailsWith o s 3) ∧
    (s.keyLen = 32 → s.nonceLen = nonceBytes → 16 ≤ s.bufLen.toNat → s.bufLen.toNat - 16 > 274877906816 →
      FailsWith o s 4) ∧
    (s.keyLen = 32 → s.nonceLen = nonceBytes → 16 ≤ s.bufLen.toNat → s.bufLen.toNat - 16 ≤ 274877906816 → ¬ Valid →
      FailsWith o s 7) ∧
    (s.keyLen = 32 → s.nonceLen = nonceBytes → 16 ≤ s.bufLen.toNat → s.bufLen.toNat - 16 ≤ 274877906816 → Valid →
      o = .next (body { s with hidden := g })) := by
  subst ho
  refine ⟨fun hkey => ?_, fun hkey hnonce => ?_, fun hkey hnonce hshort => ?_, fun hkey hnonce htag hbig => ?_,
    fun hkey hnonce htag hsmall hbad => ?_, fun hkey hnonce htag hsmall hvalid => ?_⟩
  · refine State.runCommand_fails (e := .invalidKeyLength) g _ ?_
    simp [State.openChecks, s.badKeyLength_iff.mpr hkey]
  · refine State.runCommand_fails (e := .invalidNonceLength) g _ ?_
    simp [State.openChecks, State.badKeyLength_false hkey, (s.badNonceLength_iff _).mpr hnonce]
  · refine State.runCommand_fails (e := .invalidTagLength) g _ ?_
    simp [State.openChecks, State.badKeyLength_false hkey, State.badNonceLength_false hnonce, s.badTagLength_iff.mpr hshort]
  · refine State.runCommand_fails (e := .messageTooLarge) g _ ?_
    simp [State.openChecks, State.badKeyLength_false hkey, State.badNonceLength_false hnonce, State.badTagLength_false htag,
      s.ciphertextTooLarge_iff.mpr hbig]
  · refine State.runCommand_fails (e := .bufferFault) g _ ?_
    simp [State.openChecks, State.badKeyLength_false hkey, State.badNonceLength_false hnonce, State.badTagLength_false htag,
      State.ciphertextTooLarge_false hsmall, hranges.mpr hbad]
  · have hgood : s.badRange ranges = false := Bool.eq_false_iff.mpr fun hbad => hranges.mp hbad hvalid
    exact State.runCommand_body _
      ((s.openChecks_pass_iff _ _).mpr ⟨hkey, hnonce, htag, hsmall, State.badRange_false hgood⟩)

/-- OPEN is its five checks and its body, begun in the phase KeySetup (R239). -/
theorem exec_openCmd_openChecks (s : State) :
    exec .openCmd s = s.beginAead.runCommand (s.openChecks 12 (s.openRanges 12)) State.openBody := rfl

/-- XOPEN likewise, with a 24-byte nonce (R241). -/
theorem exec_xopen_openChecks (s : State) :
    exec .xopen s = s.beginAead.runCommand (s.openChecks 24 (s.openRanges 24)) State.xopenBody := rfl

/-- XOPEN's body is OPEN's under the derived subkey and subnonce (R241). -/
theorem State.xopenBody_eq (s : State) :
    s.xopenBody = s.openWith (s.hidden.runDerive s.key s.nonce24) (derive s.key s.nonce24).1 (derive s.key s.nonce24).2 := by
  rw [State.xopenBody, Hidden.runDerive_subkey, s.runDerive_subnonce]

/-- Settles O48: the five checks in order; with all of them passed, OPEN's body ends as Open of the operands does. -/
theorem openVerifiesBeforeItWrites : Obligations.OpenVerifiesBeforeItWrites := by
  unfold Obligations.OpenVerifiesBeforeItWrites
  intro s hwf
  obtain ⟨hkey, hnonce, htag, hlarge, hrange, hbody⟩ := State.runCommand_openChecks (s.hidden.enterPhase .keySetup)
    (exec_openCmd_openChecks s) (s.badRange_openRanges_iff 12)
  refine ⟨hkey, hnonce, htag, hlarge, hrange, fun hk hn ht hsmall hkr hnr har hbr => ?_⟩
  rw [hbody hk hn ht hsmall ⟨hkr, hnr, har, hbr⟩]
  exact ⟨fun _ => State.openWith_completes hwf _, fun _ => State.openWith_fails _⟩

/-- Settles O50: XOPEN's checks are OPEN's with a 24-byte nonce, and its body is OPEN's under what it derives. -/
theorem xopenVerifiesBeforeItWrites : Obligations.XopenVerifiesBeforeItWrites := by
  unfold Obligations.XopenVerifiesBeforeItWrites
  intro s hwf
  obtain ⟨hkey, hnonce, htag, hlarge, hrange, hbody⟩ := State.runCommand_openChecks (s.hidden.enterPhase .keySetup)
    (exec_xopen_openChecks s) (s.badRange_openRanges_iff 24)
  refine ⟨hkey, hnonce, htag, hlarge, hrange, fun hk hn ht hsmall hkr hnr har hbr => ?_⟩
  rw [hbody hk hn ht hsmall ⟨hkr, hnr, har, hbr⟩, State.xopenBody_eq]
  exact ⟨fun _ => State.openWith_completes hwf _, fun _ => State.openWith_fails _⟩

/-! #### OPEN after SEAL -/

theorem DisjointRanges.symm {a n b m : Nat} (h : DisjointRanges a n b m) : DisjointRanges b m a n := by
  unfold DisjointRanges at h ⊢
  omega

section
variable {s t : State} (hsame : SameOperands s t)
include hsame

/-- The range check reads the populated set only (R62). -/
theorem SameOperands.validRange_eq (a : DWord) (n : Nat) : t.validRange a n = s.validRange a n := by
  rw [State.validRange, State.validRange, hsame.pop]

/-- An operand outside the range a command wrote is still there after it. -/
theorem SameOperands.key_eq {a n : Nat} (houtside : SameOutside s t a n)
    (hdisjoint : DisjointRanges s.keyAddr.toNat 32 a n) : t.key = s.key := by
  rw [State.key, hsame.keyAddr]
  exact houtside.readBytes_eq hdisjoint.symm

theorem SameOperands.nonce_eq {a n : Nat} (houtside : SameOutside s t a n)
    (hdisjoint : DisjointRanges s.nonceAddr.toNat 12 a n) : t.nonce = s.nonce := by
  rw [State.nonce, hsame.nonceAddr]
  exact houtside.readBytes_eq hdisjoint.symm

theorem SameOperands.aad_eq {a n : Nat} (houtside : SameOutside s t a n)
    (hdisjoint : DisjointRanges s.aadAddr.toNat s.aadLen.toNat a n) : t.aad = s.aad := by
  rw [State.aad, hsame.aadAddr, hsame.aadLen]
  exact houtside.readBytes_eq hdisjoint.symm

end

/-- The state with `BUF_LEN` set to RES_LEN: the result of the last command is the buffer of the next (R242). -/
def State.withResultAsBuf (s : State) : State := { s with bufLen := s.resLen }

/-- Where SEAL passed its checks, OPEN on what it wrote passes its own: the ranges are the same (R238, R239). -/
theorem State.withResultAsBuf_openChecks {s t : State} (hsame : SameOperands s t)
    (hlen : t.resLen.toNat = s.bufLen.toNat + 16)
    (hseal : firstCause (s.bufferChecks 12 s.plaintextTooLarge (s.sealRanges 12)) = none) :
    firstCause (t.withResultAsBuf.openChecks 12 (t.withResultAsBuf.openRanges 12)) = none := by
  obtain ⟨hkey, hnonce, hsmall, hvalid⟩ := (s.bufferChecks_pass_iff _ _ _).mp hseal
  have hfits : s.bufLen.toNat ≤ 274877906816 := s.plaintextTooLarge_false_iff.mp hsmall
  have hranges : t.withResultAsBuf.openRanges 12 = s.sealRanges 12 := by
    simp only [State.openRanges, State.sealRanges, State.withResultAsBuf, hsame.keyAddr, hsame.nonceAddr, hsame.aadAddr,
      hsame.aadLen, hsame.bufAddr, hlen]
  have hbuf : t.withResultAsBuf.bufLen.toNat = s.bufLen.toNat + 16 := hlen
  rw [State.openChecks_pass_iff, hranges, hbuf]
  exact ⟨hsame.keyLen.trans hkey, hsame.nonceLen.trans hnonce, Nat.le_add_left _ _, hfits,
    fun r hr => (hsame.validRange_eq r.1 r.2).trans (hvalid r hr)⟩

/-- A SEAL that ended with no error passed its checks and ended normally with Seal of its operands (R238). -/
theorem State.sealCmd_of_ok {s t : State} (hwf : s.mem.wf) (hseal : exec .sealCmd s = .next t) (hok : t.status = .ok) :
    firstCause (s.bufferChecks 12 s.plaintextTooLarge (s.sealRanges 12)) = none ∧
    CompletesWith (.next t) s s.bufAddr (sealBytes s.key s.nonce s.aad s.buf) (s.bufLen.toNat + 16) := by
  obtain ⟨hchecks, rfl⟩ := State.runCommand_eq_next_ok (exec_sealCmd_bufferChecks s ▸ hseal) hok
  obtain ⟨-, -, hsmall, -⟩ := (s.bufferChecks_pass_iff _ _ _).mp hchecks
  exact ⟨hchecks, State.sealedLength_mod (s.plaintextTooLarge_false_iff.mp hsmall) ▸ State.sealWith_completes hwf _ _ _⟩

/-- An OPEN that passes its checks puts the plaintext Open gives in place (R239). -/
theorem State.openCmd_completes {s : State} (hwf : s.mem.wf)
    (hchecks : firstCause (s.openChecks 12 (s.openRanges 12)) = none) {pt : List Byte}
    (hopen : openBytes s.key s.nonce s.aad s.buf = .ok pt) :
    CompletesWith (exec .openCmd s) s s.bufAddr pt (s.bufLen.toNat - 16) := by
  rw [exec_openCmd_openChecks, State.runCommand_body _ hchecks]
  exact State.openWith_completes hwf _ hopen

/-- Settles O51: OPEN finds SEAL's operands and the sealed bytes, passes its checks, and Open of Seal is the plaintext. -/
theorem openAfterSealRestoresTheBuffer : Obligations.OpenAfterSealRestoresTheBuffer := by
  unfold Obligations.OpenAfterSealRestoresTheBuffer
  intro s t hwf hseal hok hkey hnonce haad
  obtain ⟨hchecks, _, ⟨⟩, hread, houtside, hlen, -, -, hsame⟩ := State.sealCmd_of_ok hwf hseal hok
  rw [sealBytes_length, s.buf_length] at hread houtside
  have hbuf : t.withResultAsBuf.buf = sealBytes s.key s.nonce s.aad s.buf := by
    rw [← hread, ← hlen, ← hsame.bufAddr]
    rfl
  have hopen : openBytes t.key t.nonce t.aad t.withResultAsBuf.buf = .ok s.buf := by
    rw [hsame.key_eq houtside hkey, hsame.nonce_eq houtside hnonce, hsame.aad_eq houtside haad, hbuf]
    exact openOfSealIsThePlaintext _ _ _ _
  have hwf' : t.mem.wf := exec_memWf hwf hseal
  obtain ⟨u, hu, hplain, -, hresLen, hstatus, -⟩ := State.openCmd_completes (s := t.withResultAsBuf) hwf'
    (State.withResultAsBuf_openChecks hsame hlen hchecks) hopen
  have hshorter : t.withResultAsBuf.bufLen.toNat - 16 = s.bufLen.toNat := Nat.sub_eq_of_eq_add hlen
  have haddr : t.withResultAsBuf.bufAddr = s.bufAddr := hsame.bufAddr
  rw [s.buf_length, haddr] at hplain
  exact ⟨u, hu, hstatus, BitVec.eq_of_toNat_eq (hresLen.trans hshorter), hplain⟩

end Sys2Proof.Machine

/-! ### Errors (60_exceptions.md rules R260 to R281) -/

namespace Sys2Proof.Machine

/-! #### A command that ends with an error -/

/-- A command that ends with ERR 1 ended in error entry (R98, R269). -/
theorem exec_eq_raiseError_of_err {i : Instr} {s t : State} (ht : exec i s = .next t) (herr : t.status.err = true) :
    ∃ e g, t = { s with hidden := g }.raiseError e := by
  rcases exec_endsWithin i s with ⟨e, g, he⟩ | ⟨g, bytes, -, -, len, hs⟩
  · exact ⟨e, g, Host.Outcome.next.inj (ht.symm.trans he)⟩
  · cases hs.symm.trans ht
    exact absurd herr Bool.false_ne_true

/-- Settles O53: the command ended in error entry, which writes STATUS, RES_LEN and PEND. -/
theorem failedCommandWritesNoData : Obligations.FailedCommandWritesNoData := by
  unfold Obligations.FailedCommandWritesNoData
  intro i s t ht herr
  obtain ⟨e, g, rfl⟩ := exec_eq_raiseError_of_err ht herr
  exact ⟨rfl, rfl, rfl, s.raiseError_sameOperands g e⟩

/-! #### The STATUS words -/

/-- The error code stands in bits 15 to 8 of STATUS, over DONE and ERR (R29, R281). -/
theorem Status.failed_word (e : ErrorKind) : (Status.failed e).word = 0x0006 + 0x0100 * e.code.setWidth 64 := by
  cases e <;> rfl

/-- Settles O52: the codes are the table of R260, and error entry leaves the STATUS of the kind. -/
theorem errorCodesAndStatusWords : Obligations.ErrorCodesAndStatusWords :=
  ⟨rfl, rfl, rfl, rfl, rfl, rfl, rfl, fun e _ => Status.failed_word e⟩

/-- The ten values of R281. -/
def statusWords : List DWord :=
  [0x0000, 0x0001, 0x0002, 0x0106, 0x0206, 0x0306, 0x0406, 0x0506, 0x0606, 0x0706]

/-- The ten values are the words of the legal values of STATUS (R281). -/
theorem mem_statusWords_iff (v : DWord) : v ∈ statusWords ↔ ∃ f, LegalStatus f ∧ f.word = v := by
  constructor
  · revert v
    simp only [statusWords, List.forall_mem_cons]
    exact ⟨⟨_, .cleared, rfl⟩, ⟨_, .pending, rfl⟩, ⟨_, .ok, rfl⟩, ⟨_, .failed .invalidKeyLength, rfl⟩,
      ⟨_, .failed .invalidNonceLength, rfl⟩, ⟨_, .failed .invalidTagLength, rfl⟩, ⟨_, .failed .messageTooLarge, rfl⟩,
      ⟨_, .failed .authenticationFailed, rfl⟩, ⟨_, .failed .illegalCommand, rfl⟩, ⟨_, .failed .bufferFault, rfl⟩,
      fun _ hv => absurd hv List.not_mem_nil⟩
  · rintro ⟨f, hf, rfl⟩
    cases hf with
    | cleared => decide
    | pending => decide
    | ok => decide
    | failed e => cases e <;> decide

/-- Every legal value of STATUS is met: after reset, and from there after issue, the normal end and error entry. -/
theorem LegalStatus.exists_inv {f : Status} (h : LegalStatus f) : ∃ s : State, s.Inv ∧ s.status = f := by
  have hreset : State.reset.Inv := resetMeetsTheInvariant
  cases h with
  | cleared => exact ⟨_, hreset, rfl⟩
  | pending => exact ⟨_, hreset.issue 0, rfl⟩
  | ok => exact ⟨_, hreset.succeed Hidden.zero (addr := 0) (bytes := []) 0 rfl, rfl⟩
  | failed e => exact ⟨_, hreset.raiseError Hidden.zero e, rfl⟩

/-- Settles O56: the values read are the words of the legal values of STATUS, and each legal value is met. -/
theorem statusReadsOneOfTenValues : Obligations.StatusReadsOneOfTenValues := by
  unfold Obligations.StatusReadsOneOfTenValues
  constructor
  · intro s hinv
    exact (mem_statusWords_iff _).mpr ⟨s.status, hinv.statusLegal, rfl⟩
  · intro v hv
    obtain ⟨f, hf, rfl⟩ := (mem_statusWords_iff v).mp hv
    obtain ⟨s, hinv, rfl⟩ := hf.exists_inv
    exact ⟨s, hinv, rfl⟩

/-! #### Illegal words -/

/-- A word that decodes to no command completes with IllegalCommand (R93, R266). -/
theorem completeWord_of_illegal {w : Word} (h : w.toNat = 0 ∨ 10 ≤ w.toNat) (s : State) :
    completeWord w s = .next (s.raiseError .illegalCommand) := by
  rcases completeWord_cases w s with ⟨i, hdecode, -⟩ | ⟨-, hillegal⟩
  · have hlegal := (exists_eq_encode_iff w).mp ⟨i, (decode_eq_ok_iff w i).mp hdecode⟩
    omega
  · exact hillegal

/-- Settles O4: the pending word completes in error entry of IllegalCommand, and the statement writes that state out. -/
theorem illegalWordCompletesWithIllegalCommand : Obligations.IllegalWordCompletesWithIllegalCommand := by
  unfold Obligations.IllegalWordCompletesWithIllegalCommand
  intro s w hpend hword
  exact (engineTurn_pending hpend).trans (completeWord_of_illegal hword s)

end Sys2Proof.Machine

/-! ### Reset and hazards (70_reset_and_hazards.md rules R300, R301, R306 and R310) -/

namespace Sys2Proof.Machine

/-! #### The turns of the HOST and the reset event -/

/-- The HOST moves where the schedule gives it the turn (log entry 5). -/
theorem step_of_schedule_host {s : State} {rest : List Turn} (hschedule : s.schedule = .host :: rest) :
    step s = hostTurn { s with schedule := rest } := by
  simp only [step, hschedule]

/-- The reset event happens where the schedule gives it a turn (R300). -/
theorem step_of_schedule_reset {s : State} {left : Hidden} {rest : List Turn} (hschedule : s.schedule = .reset left :: rest) :
    step s = .next ({ s with schedule := rest }.resetEvent left) := by
  simp only [step, hschedule]

/-- Settles O17: the step is the reset event, which the statement reads field by field; PEND is empty after it. -/
theorem resetEventAbandonsThePendingCommand : Obligations.ResetEventAbandonsThePendingCommand := by
  unfold Obligations.ResetEventAbandonsThePendingCommand
  intro s left turns hschedule
  exact ⟨_, step_of_schedule_reset hschedule, rfl, rfl, rfl, rfl, rfl, rfl, rfl, rfl, rfl, rfl, rfl, rfl, rfl, rfl, rfl, rfl, rfl,
    rfl, rfl, rfl, engineTurn_idle rfl⟩

/-! #### A command with nothing set up -/

/-- A command that checks the key length first fails with InvalidKeyLength where it is not 32 (R268), whatever the internal
register files hold. -/
theorem State.runCommand_fails_of_keyLen {s : State} (hkey : s.keyLen ≠ 32) (g : Hidden) (later : List (Bool × ErrorKind))
    (body : State → State) :
    FailsWith (({ s with hidden := g } : State).runCommand ((s.badKeyLength, .invalidKeyLength) :: later) body) s 1 := by
  refine State.runCommand_fails (e := .invalidKeyLength) g body ?_
  rw [s.badKeyLength_iff.mpr hkey, firstCause_true]

/-- Every command checks the key length before anything else (R301). -/
theorem exec_fails_of_keyLen (i : Instr) {s : State} (hkey : s.keyLen ≠ 32) : FailsWith (exec i s) s 1 := by
  cases i with
  | block => exact State.runCommand_fails_of_keyLen hkey s.hidden _ _
  | xor => exact State.runCommand_fails_of_keyLen hkey s.hidden _ _
  | derive => exact State.runCommand_fails_of_keyLen hkey s.hidden _ _
  | xxor => exact State.runCommand_fails_of_keyLen hkey s.hidden _ _
  | mac => exact State.runCommand_fails_of_keyLen hkey s.hidden _ _
  | sealCmd => exact State.runCommand_fails_of_keyLen hkey s.beginAead.hidden _ _
  | openCmd => exact State.runCommand_fails_of_keyLen hkey s.beginAead.hidden _ _
  | xseal => exact State.runCommand_fails_of_keyLen hkey s.beginAead.hidden _ _
  | xopen => exact State.runCommand_fails_of_keyLen hkey s.beginAead.hidden _ _

/-- The word placed as the next command is the one pending (log entry 9). -/
theorem State.withFetchWord_pend (s : State) (w : Word) : (s.withFetchWord 32 w.toNat).pend = some w := by
  rw [State.withFetchWord, Nat.mod_eq_of_lt w.isLt, BitVec.ofNat_toNat, BitVec.setWidth_eq]
  rfl

/-- The next step from a legal word placed as the next command is that command (R98, log entry 9). -/
theorem step_withFetchWord {w : Word} {i : Instr} (hdecode : decode w = .ok i) (s : State) :
    step (s.withFetchWord 32 w.toNat) = exec i { s.withFetchWord 32 w.toNat with schedule := s.schedule } := by
  rw [step_of_schedule_engine (s := s.withFetchWord 32 w.toNat) rfl]
  exact engineTurn_of_decode (s.withFetchWord_pend w) hdecode

/-- Settles O18: KEY_LEN is 0 after reset, and every command checks it first. -/
theorem everyCommandFromResetReportsInvalidKeyLength : Obligations.EveryCommandFromResetReportsInvalidKeyLength := by
  unfold Obligations.EveryCommandFromResetReportsInvalidKeyLength
  intro i w hdecode
  have hkey : State.reset.keyLen ≠ 32 := by decide
  obtain ⟨t, ht, hmem, hlen, hstatus, -, -⟩ :=
    exec_fails_of_keyLen i (s := { State.reset.withFetchWord 32 w.toNat with schedule := State.reset.schedule }) hkey
  refine ⟨t, (step_withFetchWord hdecode State.reset).trans ht, ?_, hlen, hmem⟩
  rw [hstatus]
  rfl

/-! #### A register write issued while a command is pending -/

/-- A command completes with PEND empty, BUSY 0 and DONE 1, the operands and the HOST's side as they were (R38, R98). -/
theorem exec_completes (i : Instr) (s : State) :
    ∃ t, exec i s = .next t ∧ t.pend = none ∧ t.status.busy = false ∧ t.status.done = true ∧ SameOperands s t := by
  rcases exec_endsWithin i s with ⟨e, g, he⟩ | ⟨g, bytes, -, -, len, hs⟩
  · exact ⟨_, he, rfl, rfl, rfl, s.raiseError_sameOperands g e⟩
  · exact ⟨_, hs, rfl, rfl, rfl, s.succeed_sameOperands g _ bytes len⟩

/-- An aligned write of 8 bytes at the offset of slot `slot` is performed on that slot (R31, R32). -/
theorem hostPerform_slotWrite {slot : Nat} (hslot : slot < 16) (v : DWord) (s : State) :
    hostPerform (.regWrite (8 * slot) 8 v) s = .next (s.regWrite slot v) := by
  have hok : regAccessOk (8 * slot) 8 = true := (regAccessOk_iff _ _).mpr ⟨by omega, by omega, rfl⟩
  have hindex : 8 * slot / Config.regSlotBytes = slot := Nat.mul_div_cancel_left slot (by decide)
  simp only [hostPerform, hok, if_true, hindex]

/-- While BUSY is 1, a HOST's turn on an access that is no STATUS read has it held (R69). -/
theorem step_holds {s : State} {a : HostAccess} {rest : List HostAccess} {turns : List Turn} (hbusy : s.status.busy = true)
    (hscript : s.script = a :: rest) (ha : isStatusRead a = false) (hschedule : s.schedule = .host :: turns) :
    step s = .next { s with script := rest, held := s.held ++ [a], schedule := turns } :=
  (step_of_schedule_host hschedule).trans (hostTurn_of_not_statusRead (s := { s with schedule := turns }) hbusy hscript ha)

/-- Settles O11: the write is held, the command completes on the old registers and frees BUSY, and then the held write is
performed. -/
theorem registerWriteWhileBusyAppliesAfterCompletion : Obligations.RegisterWriteWhileBusyAppliesAfterCompletion := by
  unfold Obligations.RegisterWriteWhileBusyAppliesAfterCompletion
  intro s i w slot v rest turns hbusy hpend hdecode hheld _ hslot hscript hschedule
  obtain ⟨t, ht, -, hidle, -, hsame⟩ := exec_completes i
    { s with script := rest, held := [.regWrite (8 * slot) 8 v], schedule := .host :: turns }
  have hhold := step_holds hbusy hscript rfl hschedule
  rw [hheld] at hhold
  have hwrite : step t = .next (({ t with held := [], schedule := turns } : State).regWrite slot v) := by
    rw [step_of_schedule_host hsame.schedule, hostTurn_of_held (s := { t with schedule := turns }) hidle hsame.held]
    exact hostPerform_slotWrite hslot v _
  refine ⟨t, ht, (core_run_succ hhold 2).trans ((core_run_succ ?_ 1).trans (core_run_succ hwrite 0))⟩
  rw [step_of_schedule_engine rfl, ← ht]
  exact engineTurn_of_decode hpend hdecode

/-! #### A pending command under any schedule -/

/-- The ENGINE's turn completes whatever word is pending, legal or not (R93, R98). -/
theorem engineTurn_completes {s : State} {w : Word} (hpend : s.pend = some w) :
    ∃ t, engineTurn s = .next t ∧ t.pend = none ∧ t.status.busy = false ∧ t.status.done = true := by
  rw [engineTurn_pending hpend]
  rcases completeWord_cases w s with ⟨i, -, hi⟩ | ⟨-, hillegal⟩
  · obtain ⟨t, ht, hempty, hbusy, hdone, -⟩ := exec_completes i s
    exact ⟨t, hi.trans ht, hempty, hbusy, hdone⟩
  · exact ⟨_, hillegal, rfl, rfl, rfl⟩

/-- While BUSY is 1 the HOST's turn is never refused and leaves STATUS, PEND and the schedule alone: it reads STATUS or has an
access held (R69). -/
theorem hostTurn_of_busy {s : State} (hbusy : s.status.busy = true) :
    ∃ t, hostTurn s = .next t ∧ t.status = s.status ∧ t.pend = s.pend ∧ t.schedule = s.schedule := by
  rcases hostTurn_cases s with hnone | ⟨-, a, rest, -, -, hhold⟩ | ⟨-, a, rest, -, ha, hperform⟩ | ⟨hidle, -⟩ | ⟨hidle, -⟩
  · exact ⟨s, hnone, rfl, rfl, rfl⟩
  · exact ⟨_, hhold, rfl, rfl, rfl⟩
  · obtain rfl := (isStatusRead_iff a).mp ha
    exact ⟨_, hperform, rfl, rfl, rfl⟩
  · exact absurd (hidle.symm.trans hbusy) Bool.false_ne_true
  · exact absurd (hidle.symm.trans hbusy) Bool.false_ne_true

/-- Within `n` steps the pending command completes: PEND is empty, BUSY 0 and DONE 1 (R98). -/
def State.CompletesWithin (s : State) (n : Nat) : Prop :=
  ∃ k t, k ≤ n ∧ Sys2Proof.core.run k s = .next t ∧ t.pend = none ∧ t.status.busy = false ∧ t.status.done = true

/-- A step that is the ENGINE's turn on a pending word completes it (R98). -/
theorem State.completesWithin_of_engineTurn {s u : State} {w : Word} (hstep : step s = engineTurn u) (hpend : u.pend = some w)
    (n : Nat) : s.CompletesWithin (n + 1) := by
  obtain ⟨t, ht, hdone⟩ := engineTurn_completes hpend
  exact ⟨1, t, Nat.le_add_left 1 n, core_run_succ (hstep.trans ht) 0, hdone⟩

/-- What completes after a step completes with the step counted in. -/
theorem State.CompletesWithin.of_step {s u : State} {n : Nat} (hstep : step s = .next u) (h : u.CompletesWithin n) :
    s.CompletesWithin (n + 1) := by
  obtain ⟨k, t, hk, hrun, hdone⟩ := h
  exact ⟨k + 1, t, Nat.succ_le_succ hk, (core_run_succ hstep k).trans hrun, hdone⟩

/-- While BUSY is 1 and a word is pending, every turn but a reset completes the word or is the HOST's, which leaves it pending;
where the turns are used up the ENGINE moves (R310). -/
theorem State.completesWithin_schedule {turns : List Turn} (hreset : ∀ turn ∈ turns, ∀ left, turn ≠ .reset left) {s : State}
    {w : Word} (hschedule : s.schedule = turns) (hbusy : s.status.busy = true) (hpend : s.pend = some w) :
    s.CompletesWithin (turns.length + 1) := by
  induction turns generalizing s with
  | nil => exact State.completesWithin_of_engineTurn (step_of_schedule_nil hschedule hpend) hpend 0
  | cons turn rest ih =>
    obtain ⟨hturn, hrest⟩ := List.forall_mem_cons.mp hreset
    cases turn with
    | engine => exact State.completesWithin_of_engineTurn (step_of_schedule_engine hschedule) hpend _
    | reset left => exact absurd rfl (hturn left)
    | host =>
      obtain ⟨t, ht, hstatus, hpend', hschedule'⟩ := hostTurn_of_busy (s := { s with schedule := rest }) hbusy
      have hnext : step s = .next t := (step_of_schedule_host hschedule).trans ht
      have hbusy' : t.status.busy = true := by rw [hstatus]; exact hbusy
      exact (ih hrest hschedule' hbusy' (hpend'.trans hpend)).of_step hnext

/-- Settles O59: under the invariant a word in PEND means BUSY 1, so the HOST's turns leave the word pending until the
ENGINE moves. -/
theorem pendingCommandCompletesUnderEverySchedule : Obligations.PendingCommandCompletesUnderEverySchedule := by
  unfold Obligations.PendingCommandCompletesUnderEverySchedule
  intro s w hinv hpend hreset
  have hbusy : s.status.busy = true := by rw [hinv.busyIffPending, hpend]; rfl
  exact State.completesWithin_schedule hreset rfl hbusy hpend

end Sys2Proof.Machine
